-- ==== Sys2Proof/Word.lean ====
section
/-! DEFINITION. The word, byte and register-number types of the core block. -/

namespace Sys2Proof

/-- A 32-bit word: XLEN = ILEN = 32 (spec 00 R9, 10 R15, 30 R50). -/
abbrev Word := BitVec 32

/-- The unit of memory (spec 20 R32). -/
abbrev Byte := BitVec 8

/-- A register number as an instruction names it: an unsigned 5-bit field (spec 30 R51). -/
abbrev Reg := BitVec 5

end Sys2Proof
end

