-- ==== Sys2Proof/Config.lean ====
section
/-! DEFINITION. The implementation parameters of spec 00 R9 and the free values. The parameters are plain data that
State carries unchanged (log 1), so that every statement about every state holds for every value of every parameter. -/

namespace Sys2Proof

/-- UNKNOWN_POLICY (spec 00 R9, 40 R79, D3): whether the host keeps stepping after an unknown instruction. -/
inductive UnknownPolicy where
  | continue
  | halt
deriving DecidableEq, Repr

/-- IRQ_ACTION (spec 00 R9, 40 R76, D18): what the core does with a pending interrupt at a step. -/
inductive IrqAction where
  | ignore
  | refuse
deriving DecidableEq, Repr

/-- REG_RESET_POLICY (spec 00 R9, 10 R29, D12): what x1..x31 and the pc hold after a register-file reset.
`unknown` gives free values (log 7). -/
inductive RegResetPolicy where
  | zero
  | unknown
deriving DecidableEq, Repr

/-- REM_BY_ZERO (spec 45 R118): the remainder for a divisor 0 is the dividend (the default), or one fixed word
(DESIGN CHOICE: the spec gives the parameter no type, log 13). -/
inductive RemByZero where
  | dividend
  | fixed (v : Word)
deriving DecidableEq, Repr

/-- The parameter table of spec 00 R9. XLEN, NREGS and ILEN are fixed by the types `Word` and `Reg`. -/
structure Params where
  /-- MEM_SIZE in bytes (D33). -/
  memSize : Nat
  unknownPolicy : UnknownPolicy
  irqAction : IrqAction
  regReset : RegResetPolicy
  /-- DIV_BY_ZERO_Q_S -/
  divByZeroQS : Word
  /-- DIV_BY_ZERO_Q_U -/
  divByZeroQU : Word
  /-- REM_BY_ZERO -/
  remByZero : RemByZero
  /-- DIV_OVF_Q -/
  divOvfQ : Word
  /-- DIV_OVF_R -/
  divOvfR : Word
  /-- IRQ_HANDLER_TIMER, OPEN in the spec (D14). -/
  handlerTimer : Word
  /-- IRQ_HANDLER_EXTERNAL, OPEN in the spec (D14). -/
  handlerExternal : Word
  /-- IRQ_HANDLER_SOFTWARE, OPEN in the spec (D14). -/
  handlerSoftware : Word
  /-- IRQ_ID_BITS, OPEN in the spec (D37); `none` is the unbounded naturals. -/
  irqIdBits : Option Nat
  /-- IRQ_PRIO_BITS, OPEN in the spec (D37); `none` is the unbounded naturals. -/
  irqPrioBits : Option Nat
  /-- IRQ_CAPACITY, OPEN in the spec (D17); `none` is the unbounded table. -/
  irqCapacity : Option Nat
deriving DecidableEq, Repr

/-- The defaults of spec 00 R9 and 45 R118. The three handlers are OPEN in the spec: 0 is a DESIGN CHOICE (log 8)
that no statement rests on. -/
def Params.default : Params where
  memSize := 1048576
  unknownPolicy := .continue
  irqAction := .ignore
  regReset := .zero
  divByZeroQS := 0xFFFFFFFF#32
  divByZeroQU := 0xFFFFFFFF#32
  remByZero := .dividend
  divOvfQ := 0x80000000#32
  divOvfR := 0#32
  handlerTimer := 0#32
  handlerExternal := 0#32
  handlerSoftware := 0#32
  irqIdBits := none
  irqPrioBits := none
  irqCapacity := none

/-- The constraint of spec 00 R9 on MEM_SIZE: 4 <= MEM_SIZE <= 2^32. -/
def Params.legal (p : Params) : Bool := decide (4 ≤ p.memSize) && decide (p.memSize ≤ 2 ^ 32)

/-- FREE VALUE (log 7): what register `r` holds after register-file reset number `n` under REG_RESET_POLICY =
`unknown` (spec 10 R29, I8). It has no body: nothing can be proved of its value. -/
opaque Config.resetReg : Nat → Reg → Word

/-- FREE VALUE (log 7): what the pc holds after register-file reset number `n` under REG_RESET_POLICY = `unknown`. -/
opaque Config.resetPc : Nat → Word

end Sys2Proof
end

