-- ==== Sys2Proof/Machine/State.lean ====
section
/-! DEFINITION. The state of the block (spec 10 R14), the reasons a step stops, and the state after reset. -/

namespace Sys2Proof.Machine

/-- Memory (spec 20 R32): the bytes that differ from 0, addresses strictly rising. The spec zero-initialises memory
(spec 10 R30, 20 R45), so an address that is not listed reads 0. `Memory.wf` says the form. -/
abbrev Memory := List Host.Cell

/-- A context snapshot (spec 10 R14, 48 R143): register values x0..x31 and a pc. -/
structure Snapshot where
  regs : Vector Word 32
  pc : Word
deriving DecidableEq, Repr

/-- One entry of the interrupt table (spec 10 R14, R25); a lower priority is more urgent. -/
structure IrqEntry where
  priority : Nat
  handler : Word
  description : String
  pending : Bool
deriving DecidableEq, Repr

/-- The interrupt table: a finite map from ids, kept as a list with strictly rising ids (spec 10 R25). -/
abbrev IrqTable := List (Nat × IrqEntry)

/-- The state: the tuple of spec 10 R14, and two fields of the model's own (`params`, log 1, and `freeSeq`, log 7). -/
structure State where
  /-- x1..x31 (spec 10 R15), x1 first; x0 is hardwired and has no storage (R16, log 11). -/
  x : Vector Word 31
  /-- The program counter (spec 10 R20). -/
  pc : Word
  /-- The saved-context slot (spec 10 R24). -/
  saved : Option Snapshot
  /-- Memory (spec 20 R32). -/
  mem : Memory
  /-- The interrupt table (spec 10 R25). -/
  irq : IrqTable
  /-- The interrupt controller's enable bit (spec 10 R26). -/
  irqEn : Bool
  /-- The implementation parameters (spec 00 R9), which no transaction changes. -/
  params : Params
  /-- How many register-file resets have drawn free values (REG_RESET_POLICY = unknown only). -/
  freeSeq : Nat
deriving DecidableEq, Repr

/-- Why a step stops with a fault. -/
inductive Fault where
  /-- OutOfBounds(address, width) (spec 40 R77, R83; 20 R33): raised by fetch, by a load and by a store whose span is
  not inside memory; the state before the step stands (60 R150). Safe: the hardware raises the same error, and a run
  ends there (spec 40 R85). -/
  | outOfBounds (addr width : Nat)
deriving DecidableEq, Repr

/-- Why a step has no meaning. -/
inductive Refusal where
  /-- An arm of `exec` whose instruction has no meaning yet; no arm answers it. Safe: nothing can be proved of it. -/
  | notModelled (mnemonic : String)
  /-- A step taken while the interrupt `id` is pending and enabled under IRQ_ACTION = refuse (spec 40 R76, D18).
  Safe: the spec itself has the model refuse, "toward unprovable". -/
  | interruptPending (id : Nat)
deriving DecidableEq, Repr

/-- What a step or a meaning answers. -/
abbrev Result := Host.Outcome State Fault Refusal

/-- The three standard interrupts (spec 60 R153), none pending; their handlers are OPEN parameters (D14, log 8). -/
def standardIrqs (p : Params) : IrqTable :=
  [(0, ⟨1, p.handlerTimer, "timer", false⟩),
   (1, ⟨2, p.handlerExternal, "external", false⟩),
   (2, ⟨3, p.handlerSoftware, "software", false⟩)]

/-- The machine right after reset, and at power-on (spec 10 R30, 70 R168 to R170), with the default parameters. -/
def State.reset : State where
  x := Vector.replicate 31 0#32
  pc := 0#32
  saved := none
  mem := []
  irq := standardIrqs Params.default
  irqEn := true
  params := Params.default
  freeSeq := 0

end Sys2Proof.Machine
end

