-- ==== Sys2Proof/Machine/Flags.lean ====
section
/-! DEFINITION. The block has no flags (spec 10 R27): the set and branch instructions compare registers directly. This
file holds those comparisons. -/

namespace Sys2Proof.Machine

/-- s(a) < s(b) (spec 00 R11). -/
def ltS (a b : Word) : Bool := a.slt b

/-- u(a) < u(b) (spec 00 R11). -/
def ltU (a b : Word) : Bool := a.ult b

/-- The 1 or 0 that a set instruction writes (spec 42 R97, 44 R110). -/
def boolWord (c : Bool) : Word := if c then 1#32 else 0#32

end Sys2Proof.Machine
end

