-- ==== Sys2Proof/Syntax.lean ====
section
/-! DEFINITION. The instructions: one constructor per row of spec/opcode_table.json, in the table's order. -/

namespace Sys2Proof

/-- The 48 rows of spec/opcode_table.json. Immediates are held assembled, as spec 30 R53 to R57 read them, before
their sign extension: 12 bits for I and S, 13 bits (bit 0 zero) for B, 21 bits (bit 0 zero) for J, and the 32-bit
imm_u (bits 11:0 zero) for U. -/
inductive Instr where
  /-- LB (spec R88) -/
  | lb (rd rs1 : Reg) (imm : BitVec 12)
  /-- LH (spec R89) -/
  | lh (rd rs1 : Reg) (imm : BitVec 12)
  /-- LW (spec R90) -/
  | lw (rd rs1 : Reg) (imm : BitVec 12)
  /-- LBU (spec R91) -/
  | lbu (rd rs1 : Reg) (imm : BitVec 12)
  /-- LHU (spec R92) -/
  | lhu (rd rs1 : Reg) (imm : BitVec 12)
  /-- ADDI (spec R96) -/
  | addi (rd rs1 : Reg) (imm : BitVec 12)
  /-- SLTI (spec R97) -/
  | slti (rd rs1 : Reg) (imm : BitVec 12)
  /-- SLTIU (spec R98) -/
  | sltiu (rd rs1 : Reg) (imm : BitVec 12)
  /-- XORI (spec R99) -/
  | xori (rd rs1 : Reg) (imm : BitVec 12)
  /-- ORI (spec R100) -/
  | ori (rd rs1 : Reg) (imm : BitVec 12)
  /-- ANDI (spec R101) -/
  | andi (rd rs1 : Reg) (imm : BitVec 12)
  /-- SLLI (spec R102) -/
  | slli (rd rs1 : Reg) (shamt : BitVec 5)
  /-- SRLI (spec R103) -/
  | srli (rd rs1 : Reg) (shamt : BitVec 5)
  /-- SRAI (spec R104) -/
  | srai (rd rs1 : Reg) (shamt : BitVec 5)
  /-- AUIPC (spec R105) -/
  | auipc (rd : Reg) (imm : Word)
  /-- SB (spec R93) -/
  | sb (rs1 rs2 : Reg) (imm : BitVec 12)
  /-- SH (spec R94) -/
  | sh (rs1 rs2 : Reg) (imm : BitVec 12)
  /-- SW (spec R95) -/
  | sw (rs1 rs2 : Reg) (imm : BitVec 12)
  /-- ADD (spec R107) -/
  | add (rd rs1 rs2 : Reg)
  /-- SUB (spec R108) -/
  | sub (rd rs1 rs2 : Reg)
  /-- SLL (spec R109) -/
  | sll (rd rs1 rs2 : Reg)
  /-- SLT (spec R110) -/
  | slt (rd rs1 rs2 : Reg)
  /-- SLTU (spec R111) -/
  | sltu (rd rs1 rs2 : Reg)
  /-- XOR (spec R112) -/
  | xor (rd rs1 rs2 : Reg)
  /-- SRL (spec R113) -/
  | srl (rd rs1 rs2 : Reg)
  /-- SRA (spec R114) -/
  | sra (rd rs1 rs2 : Reg)
  /-- OR (spec R115) -/
  | or (rd rs1 rs2 : Reg)
  /-- AND (spec R116) -/
  | and (rd rs1 rs2 : Reg)
  /-- MUL (spec R119) -/
  | mul (rd rs1 rs2 : Reg)
  /-- MULH (spec R120) -/
  | mulh (rd rs1 rs2 : Reg)
  /-- MULHSU (spec R121) -/
  | mulhsu (rd rs1 rs2 : Reg)
  /-- MULHU (spec R122) -/
  | mulhu (rd rs1 rs2 : Reg)
  /-- DIV (spec R123) -/
  | div (rd rs1 rs2 : Reg)
  /-- DIVU (spec R124) -/
  | divu (rd rs1 rs2 : Reg)
  /-- REM (spec R125) -/
  | rem (rd rs1 rs2 : Reg)
  /-- REMU (spec R126) -/
  | remu (rd rs1 rs2 : Reg)
  /-- LUI (spec R106) -/
  | lui (rd : Reg) (imm : Word)
  /-- BEQ (spec R132) -/
  | beq (rs1 rs2 : Reg) (imm : BitVec 13)
  /-- BNE (spec R133) -/
  | bne (rs1 rs2 : Reg) (imm : BitVec 13)
  /-- BLT (spec R134) -/
  | blt (rs1 rs2 : Reg) (imm : BitVec 13)
  /-- BGE (spec R135) -/
  | bge (rs1 rs2 : Reg) (imm : BitVec 13)
  /-- BLTU (spec R136) -/
  | bltu (rs1 rs2 : Reg) (imm : BitVec 13)
  /-- BGEU (spec R137) -/
  | bgeu (rs1 rs2 : Reg) (imm : BitVec 13)
  /-- JALR (spec R139) -/
  | jalr (rd rs1 : Reg) (imm : BitVec 12)
  /-- JAL (spec R138) -/
  | jal (rd : Reg) (imm : BitVec 21)
  /-- ECALL (spec R140) -/
  | ecall
  /-- EBREAK (spec R141) -/
  | ebreak
  /-- HALT (spec R78) -/
  | halt
deriving DecidableEq, Repr

end Sys2Proof
end

