-- ==== Sys2Proof/WellFormed.lean ====
section
/-! DEFINITION. What the encodings of spec 30 can express of an instruction's immediates. Register numbers, shift
amounts and 12-bit immediates have no further condition. -/

namespace Sys2Proof

/-- A B-immediate ends in the implicit zero bit (spec 30 R55). -/
def immBWellFormed (imm : BitVec 13) : Bool := !imm.getLsbD 0

/-- A J-immediate ends in the implicit zero bit (spec 30 R57). -/
def immJWellFormed (imm : BitVec 21) : Bool := !imm.getLsbD 0

/-- A U-immediate is bits 31:12 shifted into position: its bits 11:0 are zero (spec 30 R56). -/
def immUWellFormed (imm : Word) : Bool := imm.extractLsb' 0 12 == 0#12

/-- The instruction is one that some word encodes. -/
def Instr.wellFormed : Instr → Bool
  | .lb _ _ _ => true
  | .lh _ _ _ => true
  | .lw _ _ _ => true
  | .lbu _ _ _ => true
  | .lhu _ _ _ => true
  | .addi _ _ _ => true
  | .slti _ _ _ => true
  | .sltiu _ _ _ => true
  | .xori _ _ _ => true
  | .ori _ _ _ => true
  | .andi _ _ _ => true
  | .slli _ _ _ => true
  | .srli _ _ _ => true
  | .srai _ _ _ => true
  | .auipc _ imm => immUWellFormed imm
  | .sb _ _ _ => true
  | .sh _ _ _ => true
  | .sw _ _ _ => true
  | .add _ _ _ => true
  | .sub _ _ _ => true
  | .sll _ _ _ => true
  | .slt _ _ _ => true
  | .sltu _ _ _ => true
  | .xor _ _ _ => true
  | .srl _ _ _ => true
  | .sra _ _ _ => true
  | .or _ _ _ => true
  | .and _ _ _ => true
  | .mul _ _ _ => true
  | .mulh _ _ _ => true
  | .mulhsu _ _ _ => true
  | .mulhu _ _ _ => true
  | .div _ _ _ => true
  | .divu _ _ _ => true
  | .rem _ _ _ => true
  | .remu _ _ _ => true
  | .lui _ imm => immUWellFormed imm
  | .beq _ _ imm => immBWellFormed imm
  | .bne _ _ imm => immBWellFormed imm
  | .blt _ _ imm => immBWellFormed imm
  | .bge _ _ imm => immBWellFormed imm
  | .bltu _ _ imm => immBWellFormed imm
  | .bgeu _ _ imm => immBWellFormed imm
  | .jalr _ _ _ => true
  | .jal _ imm => immJWellFormed imm
  | .ecall => true
  | .ebreak => true
  | .halt => true

end Sys2Proof
end

