-- ==== Sys2Proof/Decode.lean ====
section
/-! DEFINITION. The decoder (spec 30), total on any bytes, and after it the encoder. -/

namespace Sys2Proof

/-- Why a word is an unknown instruction (spec 30 R68), or why there is no word. Every unknown word behaves the same
(spec 40 R79); the names only say which check it failed. -/
inductive DecodeReject where
  /-- Fewer than four bytes: no instruction word (spec 30 R50). -/
  | truncated
  /-- The opcode is not one of the ten classes (spec 30 R59). -/
  | unknownOpcode (w : Word)
  /-- funct3 names no instruction of the class (spec 30 R60, R62, R64, R65). -/
  | unknownFunct3 (w : Word)
  /-- funct7, with funct3, names no instruction of the class (spec 30 R61, R63). -/
  | unknownFunct7 (w : Word)
  /-- A SYSTEM word other than ECALL and EBREAK (spec 30 R66). -/
  | unknownSystem (w : Word)
deriving DecidableEq, Repr

/-! ### Fields (spec 30 R51) -/

/-- opcode = w[6:0] -/
def opcodeOf (w : Word) : BitVec 7 := w.extractLsb' 0 7

/-- rd = w[11:7] -/
def rdOf (w : Word) : Reg := w.extractLsb' 7 5

/-- funct3 = w[14:12] -/
def funct3Of (w : Word) : BitVec 3 := w.extractLsb' 12 3

/-- rs1 = w[19:15] -/
def rs1Of (w : Word) : Reg := w.extractLsb' 15 5

/-- rs2 = w[24:20] -/
def rs2Of (w : Word) : Reg := w.extractLsb' 20 5

/-- funct7 = w[31:25] -/
def funct7Of (w : Word) : BitVec 7 := w.extractLsb' 25 7

/-- shamt = w[24:20], the same bits as rs2 -/
def shamtOf (w : Word) : BitVec 5 := w.extractLsb' 20 5

/-! ### Immediates before sign extension -/

/-- The field w[31:20] of the I-immediate (spec 30 R53). -/
def immIOf (w : Word) : BitVec 12 := w.extractLsb' 20 12

/-- The S-immediate's bits (w[31:25], w[11:7]) (spec 30 R54). -/
def immSOf (w : Word) : BitVec 12 := w.extractLsb' 25 7 ++ w.extractLsb' 7 5

/-- The B-immediate's bits (w[31], w[7], w[30:25], w[11:8], 0) (spec 30 R55). -/
def immBOf (w : Word) : BitVec 13 :=
  w.extractLsb' 31 1 ++ w.extractLsb' 7 1 ++ w.extractLsb' 25 6 ++ w.extractLsb' 8 4 ++ 0#1

/-- The U-immediate (w[31:12], twelve zeros) (spec 30 R56). -/
def immUOf (w : Word) : Word := w.extractLsb' 12 20 ++ 0#12

/-- The J-immediate's bits (w[31], w[19:12], w[20], w[30:21], 0) (spec 30 R57). -/
def immJOf (w : Word) : BitVec 21 :=
  w.extractLsb' 31 1 ++ w.extractLsb' 12 8 ++ w.extractLsb' 20 1 ++ w.extractLsb' 21 10 ++ 0#1

/-! ### The classes -/

/-- The LOAD class by funct3 (spec 30 R60). -/
def decodeLoad (w : Word) : Except DecodeReject Instr :=
  match funct3Of w with
  | 0b000#3 => .ok (.lb (rdOf w) (rs1Of w) (immIOf w))
  | 0b001#3 => .ok (.lh (rdOf w) (rs1Of w) (immIOf w))
  | 0b010#3 => .ok (.lw (rdOf w) (rs1Of w) (immIOf w))
  | 0b100#3 => .ok (.lbu (rdOf w) (rs1Of w) (immIOf w))
  | 0b101#3 => .ok (.lhu (rdOf w) (rs1Of w) (immIOf w))
  | _ => .error (.unknownFunct3 w)

/-- The OP-IMM class by funct3, and by funct7 for the shifts (spec 30 R61). -/
def decodeOpImm (w : Word) : Except DecodeReject Instr :=
  match funct3Of w with
  | 0b000#3 => .ok (.addi (rdOf w) (rs1Of w) (immIOf w))
  | 0b010#3 => .ok (.slti (rdOf w) (rs1Of w) (immIOf w))
  | 0b011#3 => .ok (.sltiu (rdOf w) (rs1Of w) (immIOf w))
  | 0b100#3 => .ok (.xori (rdOf w) (rs1Of w) (immIOf w))
  | 0b110#3 => .ok (.ori (rdOf w) (rs1Of w) (immIOf w))
  | 0b111#3 => .ok (.andi (rdOf w) (rs1Of w) (immIOf w))
  | 0b001#3 =>
    match funct7Of w with
    | 0b0000000#7 => .ok (.slli (rdOf w) (rs1Of w) (shamtOf w))
    | _ => .error (.unknownFunct7 w)
  | 0b101#3 =>
    match funct7Of w with
    | 0b0000000#7 => .ok (.srli (rdOf w) (rs1Of w) (shamtOf w))
    | 0b0100000#7 => .ok (.srai (rdOf w) (rs1Of w) (shamtOf w))
    | _ => .error (.unknownFunct7 w)

/-- The STORE class by funct3 (spec 30 R62). -/
def decodeStore (w : Word) : Except DecodeReject Instr :=
  match funct3Of w with
  | 0b000#3 => .ok (.sb (rs1Of w) (rs2Of w) (immSOf w))
  | 0b001#3 => .ok (.sh (rs1Of w) (rs2Of w) (immSOf w))
  | 0b010#3 => .ok (.sw (rs1Of w) (rs2Of w) (immSOf w))
  | _ => .error (.unknownFunct3 w)

/-- OP with funct7 0000000 (spec 30 R63). -/
def decodeOpBase (w : Word) : Except DecodeReject Instr :=
  match funct3Of w with
  | 0b000#3 => .ok (.add (rdOf w) (rs1Of w) (rs2Of w))
  | 0b001#3 => .ok (.sll (rdOf w) (rs1Of w) (rs2Of w))
  | 0b010#3 => .ok (.slt (rdOf w) (rs1Of w) (rs2Of w))
  | 0b011#3 => .ok (.sltu (rdOf w) (rs1Of w) (rs2Of w))
  | 0b100#3 => .ok (.xor (rdOf w) (rs1Of w) (rs2Of w))
  | 0b101#3 => .ok (.srl (rdOf w) (rs1Of w) (rs2Of w))
  | 0b110#3 => .ok (.or (rdOf w) (rs1Of w) (rs2Of w))
  | 0b111#3 => .ok (.and (rdOf w) (rs1Of w) (rs2Of w))

/-- OP with funct7 0100000 (spec 30 R63). -/
def decodeOpAlt (w : Word) : Except DecodeReject Instr :=
  match funct3Of w with
  | 0b000#3 => .ok (.sub (rdOf w) (rs1Of w) (rs2Of w))
  | 0b101#3 => .ok (.sra (rdOf w) (rs1Of w) (rs2Of w))
  | _ => .error (.unknownFunct7 w)

/-- OP with funct7 0000001, the multiply/divide variant (spec 30 R63). -/
def decodeOpMulDiv (w : Word) : Except DecodeReject Instr :=
  match funct3Of w with
  | 0b000#3 => .ok (.mul (rdOf w) (rs1Of w) (rs2Of w))
  | 0b001#3 => .ok (.mulh (rdOf w) (rs1Of w) (rs2Of w))
  | 0b010#3 => .ok (.mulhsu (rdOf w) (rs1Of w) (rs2Of w))
  | 0b011#3 => .ok (.mulhu (rdOf w) (rs1Of w) (rs2Of w))
  | 0b100#3 => .ok (.div (rdOf w) (rs1Of w) (rs2Of w))
  | 0b101#3 => .ok (.divu (rdOf w) (rs1Of w) (rs2Of w))
  | 0b110#3 => .ok (.rem (rdOf w) (rs1Of w) (rs2Of w))
  | 0b111#3 => .ok (.remu (rdOf w) (rs1Of w) (rs2Of w))

/-- The OP class by funct7 and funct3 (spec 30 R63). -/
def decodeOp (w : Word) : Except DecodeReject Instr :=
  match funct7Of w with
  | 0b0000000#7 => decodeOpBase w
  | 0b0100000#7 => decodeOpAlt w
  | 0b0000001#7 => decodeOpMulDiv w
  | _ => .error (.unknownFunct7 w)

/-- The BRANCH class by funct3 (spec 30 R64). -/
def decodeBranch (w : Word) : Except DecodeReject Instr :=
  match funct3Of w with
  | 0b000#3 => .ok (.beq (rs1Of w) (rs2Of w) (immBOf w))
  | 0b001#3 => .ok (.bne (rs1Of w) (rs2Of w) (immBOf w))
  | 0b100#3 => .ok (.blt (rs1Of w) (rs2Of w) (immBOf w))
  | 0b101#3 => .ok (.bge (rs1Of w) (rs2Of w) (immBOf w))
  | 0b110#3 => .ok (.bltu (rs1Of w) (rs2Of w) (immBOf w))
  | 0b111#3 => .ok (.bgeu (rs1Of w) (rs2Of w) (immBOf w))
  | _ => .error (.unknownFunct3 w)

/-- The JALR class by funct3 (spec 30 R65). -/
def decodeJalr (w : Word) : Except DecodeReject Instr :=
  match funct3Of w with
  | 0b000#3 => .ok (.jalr (rdOf w) (rs1Of w) (immIOf w))
  | _ => .error (.unknownFunct3 w)

/-- The SYSTEM class: two exact words (spec 30 R66). -/
def decodeSystem (w : Word) : Except DecodeReject Instr :=
  if w = 0x00000073#32 then .ok .ecall
  else if w = 0x00100073#32 then .ok .ebreak
  else .error (.unknownSystem w)

/-- The class dispatch on the opcode (spec 30 R59, R65). -/
def decodeClass (w : Word) : Except DecodeReject Instr :=
  match opcodeOf w with
  | 0b0000011#7 => decodeLoad w
  | 0b0010011#7 => decodeOpImm w
  | 0b0010111#7 => .ok (.auipc (rdOf w) (immUOf w))
  | 0b0100011#7 => decodeStore w
  | 0b0110011#7 => decodeOp w
  | 0b0110111#7 => .ok (.lui (rdOf w) (immUOf w))
  | 0b1100011#7 => decodeBranch w
  | 0b1100111#7 => decodeJalr w
  | 0b1101111#7 => .ok (.jal (rdOf w) (immJOf w))
  | 0b1110011#7 => decodeSystem w
  | _ => .error (.unknownOpcode w)

/-- Decoding one word: the sentinel is checked before the opcode is looked at (spec 30 R67). -/
def decodeWord (w : Word) : Except DecodeReject Instr :=
  if w = 0#32 then .ok .halt else decodeClass w

/-- The word of four bytes, the first the least significant (spec 20 R35). -/
def wordOfBytes (b0 b1 b2 b3 : Byte) : Word := b3 ++ b2 ++ b1 ++ b0

/-- The four bytes of a word, the least significant first (spec 20 R35). -/
def bytesOfWord (w : Word) : List Byte :=
  [w.extractLsb' 0 8, w.extractLsb' 8 8, w.extractLsb' 16 8, w.extractLsb' 24 8]

/-- Decoding from bytes: one instruction and the bytes after it. Every instruction is four bytes (spec 30 R50). -/
def decodeBytes : List Byte → Except DecodeReject (Instr × List Byte)
  | b0 :: b1 :: b2 :: b3 :: rest =>
    match decodeWord (wordOfBytes b0 b1 b2 b3) with
    | .ok i => .ok (i, rest)
    | .error r => .error r
  | _ => .error .truncated

/-- The word whose low `nbits` bits are those of `w` and whose other bits are 0. -/
def tableWord (nbits w : Nat) : Word := BitVec.ofNat 32 (w % 2 ^ nbits)

/-- The instruction the decoder reads from the word that spec/opcode_table.json's numbering calls `w`. -/
def decodeTableWord (nbits w : Nat) : Option Instr :=
  match decodeBytes (bytesOfWord (tableWord nbits w)) with
  | .ok (i, _) => some i
  | .error _ => none

/-! ### The opcode table and the decoder of spec 30 R70 -/

/-- A row of spec/opcode_table.json: a word `w` is the row's instruction when `w &&& mask = pattern`. -/
structure OpcodeRow where
  mnemonic : String
  mask : Word
  pattern : Word
  build : Word → Instr

/-- The row's test of a word. -/
def OpcodeRow.accepts (r : OpcodeRow) (w : Word) : Bool := w &&& r.mask == r.pattern

/-- The load rows of spec/opcode_table.json. -/
def loadRows : List OpcodeRow :=
  [⟨"LB", 0x0000707F#32, 0x00000003#32, fun w => .lb (rdOf w) (rs1Of w) (immIOf w)⟩,
   ⟨"LH", 0x0000707F#32, 0x00001003#32, fun w => .lh (rdOf w) (rs1Of w) (immIOf w)⟩,
   ⟨"LW", 0x0000707F#32, 0x00002003#32, fun w => .lw (rdOf w) (rs1Of w) (immIOf w)⟩,
   ⟨"LBU", 0x0000707F#32, 0x00004003#32, fun w => .lbu (rdOf w) (rs1Of w) (immIOf w)⟩,
   ⟨"LHU", 0x0000707F#32, 0x00005003#32, fun w => .lhu (rdOf w) (rs1Of w) (immIOf w)⟩]

/-- The opImm rows of spec/opcode_table.json. -/
def opImmRows : List OpcodeRow :=
  [⟨"ADDI", 0x0000707F#32, 0x00000013#32, fun w => .addi (rdOf w) (rs1Of w) (immIOf w)⟩,
   ⟨"SLTI", 0x0000707F#32, 0x00002013#32, fun w => .slti (rdOf w) (rs1Of w) (immIOf w)⟩,
   ⟨"SLTIU", 0x0000707F#32, 0x00003013#32, fun w => .sltiu (rdOf w) (rs1Of w) (immIOf w)⟩,
   ⟨"XORI", 0x0000707F#32, 0x00004013#32, fun w => .xori (rdOf w) (rs1Of w) (immIOf w)⟩,
   ⟨"ORI", 0x0000707F#32, 0x00006013#32, fun w => .ori (rdOf w) (rs1Of w) (immIOf w)⟩,
   ⟨"ANDI", 0x0000707F#32, 0x00007013#32, fun w => .andi (rdOf w) (rs1Of w) (immIOf w)⟩,
   ⟨"SLLI", 0xFE00707F#32, 0x00001013#32, fun w => .slli (rdOf w) (rs1Of w) (shamtOf w)⟩,
   ⟨"SRLI", 0xFE00707F#32, 0x00005013#32, fun w => .srli (rdOf w) (rs1Of w) (shamtOf w)⟩,
   ⟨"SRAI", 0xFE00707F#32, 0x40005013#32, fun w => .srai (rdOf w) (rs1Of w) (shamtOf w)⟩]

/-- The store rows of spec/opcode_table.json. -/
def storeRows : List OpcodeRow :=
  [⟨"SB", 0x0000707F#32, 0x00000023#32, fun w => .sb (rs1Of w) (rs2Of w) (immSOf w)⟩,
   ⟨"SH", 0x0000707F#32, 0x00001023#32, fun w => .sh (rs1Of w) (rs2Of w) (immSOf w)⟩,
   ⟨"SW", 0x0000707F#32, 0x00002023#32, fun w => .sw (rs1Of w) (rs2Of w) (immSOf w)⟩]

/-- The op rows of spec/opcode_table.json. -/
def opRows : List OpcodeRow :=
  [⟨"ADD", 0xFE00707F#32, 0x00000033#32, fun w => .add (rdOf w) (rs1Of w) (rs2Of w)⟩,
   ⟨"SUB", 0xFE00707F#32, 0x40000033#32, fun w => .sub (rdOf w) (rs1Of w) (rs2Of w)⟩,
   ⟨"SLL", 0xFE00707F#32, 0x00001033#32, fun w => .sll (rdOf w) (rs1Of w) (rs2Of w)⟩,
   ⟨"SLT", 0xFE00707F#32, 0x00002033#32, fun w => .slt (rdOf w) (rs1Of w) (rs2Of w)⟩,
   ⟨"SLTU", 0xFE00707F#32, 0x00003033#32, fun w => .sltu (rdOf w) (rs1Of w) (rs2Of w)⟩,
   ⟨"XOR", 0xFE00707F#32, 0x00004033#32, fun w => .xor (rdOf w) (rs1Of w) (rs2Of w)⟩,
   ⟨"SRL", 0xFE00707F#32, 0x00005033#32, fun w => .srl (rdOf w) (rs1Of w) (rs2Of w)⟩,
   ⟨"SRA", 0xFE00707F#32, 0x40005033#32, fun w => .sra (rdOf w) (rs1Of w) (rs2Of w)⟩,
   ⟨"OR", 0xFE00707F#32, 0x00006033#32, fun w => .or (rdOf w) (rs1Of w) (rs2Of w)⟩,
   ⟨"AND", 0xFE00707F#32, 0x00007033#32, fun w => .and (rdOf w) (rs1Of w) (rs2Of w)⟩]

/-- The mulDiv rows of spec/opcode_table.json. -/
def mulDivRows : List OpcodeRow :=
  [⟨"MUL", 0xFE00707F#32, 0x02000033#32, fun w => .mul (rdOf w) (rs1Of w) (rs2Of w)⟩,
   ⟨"MULH", 0xFE00707F#32, 0x02001033#32, fun w => .mulh (rdOf w) (rs1Of w) (rs2Of w)⟩,
   ⟨"MULHSU", 0xFE00707F#32, 0x02002033#32, fun w => .mulhsu (rdOf w) (rs1Of w) (rs2Of w)⟩,
   ⟨"MULHU", 0xFE00707F#32, 0x02003033#32, fun w => .mulhu (rdOf w) (rs1Of w) (rs2Of w)⟩,
   ⟨"DIV", 0xFE00707F#32, 0x02004033#32, fun w => .div (rdOf w) (rs1Of w) (rs2Of w)⟩,
   ⟨"DIVU", 0xFE00707F#32, 0x02005033#32, fun w => .divu (rdOf w) (rs1Of w) (rs2Of w)⟩,
   ⟨"REM", 0xFE00707F#32, 0x02006033#32, fun w => .rem (rdOf w) (rs1Of w) (rs2Of w)⟩,
   ⟨"REMU", 0xFE00707F#32, 0x02007033#32, fun w => .remu (rdOf w) (rs1Of w) (rs2Of w)⟩]

/-- The branch rows of spec/opcode_table.json. -/
def branchRows : List OpcodeRow :=
  [⟨"BEQ", 0x0000707F#32, 0x00000063#32, fun w => .beq (rs1Of w) (rs2Of w) (immBOf w)⟩,
   ⟨"BNE", 0x0000707F#32, 0x00001063#32, fun w => .bne (rs1Of w) (rs2Of w) (immBOf w)⟩,
   ⟨"BLT", 0x0000707F#32, 0x00004063#32, fun w => .blt (rs1Of w) (rs2Of w) (immBOf w)⟩,
   ⟨"BGE", 0x0000707F#32, 0x00005063#32, fun w => .bge (rs1Of w) (rs2Of w) (immBOf w)⟩,
   ⟨"BLTU", 0x0000707F#32, 0x00006063#32, fun w => .bltu (rs1Of w) (rs2Of w) (immBOf w)⟩,
   ⟨"BGEU", 0x0000707F#32, 0x00007063#32, fun w => .bgeu (rs1Of w) (rs2Of w) (immBOf w)⟩]

/-- The other rows of spec/opcode_table.json. -/
def otherRows : List OpcodeRow :=
  [⟨"AUIPC", 0x0000007F#32, 0x00000017#32, fun w => .auipc (rdOf w) (immUOf w)⟩,
   ⟨"LUI", 0x0000007F#32, 0x00000037#32, fun w => .lui (rdOf w) (immUOf w)⟩,
   ⟨"JALR", 0x0000707F#32, 0x00000067#32, fun w => .jalr (rdOf w) (rs1Of w) (immIOf w)⟩,
   ⟨"JAL", 0x0000007F#32, 0x0000006F#32, fun w => .jal (rdOf w) (immJOf w)⟩,
   ⟨"ECALL", 0xFFFFFFFF#32, 0x00000073#32, fun _ => .ecall⟩,
   ⟨"EBREAK", 0xFFFFFFFF#32, 0x00100073#32, fun _ => .ebreak⟩]

/-- The 47 rows of spec/opcode_table.json that are decoded; its row HALT is the sentinel (spec 30 R67). -/
def opcodeTable : List OpcodeRow :=
  loadRows ++ opImmRows ++ storeRows ++ opRows ++ mulDivRows ++ branchRows ++ otherRows

/-- The first of the rows that accepts the word gives the instruction. -/
def decodeByRows (w : Word) : List OpcodeRow → Option Instr
  | [] => none
  | r :: rs => if r.accepts w then some (r.build w) else decodeByRows w rs

/-- Decode as spec 30 R70 writes it: the sentinel, then the first row that matches, else unknown. -/
def decodeByTable (w : Word) : Option Instr :=
  if w = 0#32 then some .halt else decodeByRows w opcodeTable

/-- The mnemonic of an instruction's row of spec/opcode_table.json. -/
def Instr.mnemonic : Instr → String
  | .lb _ _ _ => "LB"
  | .lh _ _ _ => "LH"
  | .lw _ _ _ => "LW"
  | .lbu _ _ _ => "LBU"
  | .lhu _ _ _ => "LHU"
  | .addi _ _ _ => "ADDI"
  | .slti _ _ _ => "SLTI"
  | .sltiu _ _ _ => "SLTIU"
  | .xori _ _ _ => "XORI"
  | .ori _ _ _ => "ORI"
  | .andi _ _ _ => "ANDI"
  | .slli _ _ _ => "SLLI"
  | .srli _ _ _ => "SRLI"
  | .srai _ _ _ => "SRAI"
  | .auipc _ _ => "AUIPC"
  | .sb _ _ _ => "SB"
  | .sh _ _ _ => "SH"
  | .sw _ _ _ => "SW"
  | .add _ _ _ => "ADD"
  | .sub _ _ _ => "SUB"
  | .sll _ _ _ => "SLL"
  | .slt _ _ _ => "SLT"
  | .sltu _ _ _ => "SLTU"
  | .xor _ _ _ => "XOR"
  | .srl _ _ _ => "SRL"
  | .sra _ _ _ => "SRA"
  | .or _ _ _ => "OR"
  | .and _ _ _ => "AND"
  | .mul _ _ _ => "MUL"
  | .mulh _ _ _ => "MULH"
  | .mulhsu _ _ _ => "MULHSU"
  | .mulhu _ _ _ => "MULHU"
  | .div _ _ _ => "DIV"
  | .divu _ _ _ => "DIVU"
  | .rem _ _ _ => "REM"
  | .remu _ _ _ => "REMU"
  | .lui _ _ => "LUI"
  | .beq _ _ _ => "BEQ"
  | .bne _ _ _ => "BNE"
  | .blt _ _ _ => "BLT"
  | .bge _ _ _ => "BGE"
  | .bltu _ _ _ => "BLTU"
  | .bgeu _ _ _ => "BGEU"
  | .jalr _ _ _ => "JALR"
  | .jal _ _ => "JAL"
  | .ecall => "ECALL"
  | .ebreak => "EBREAK"
  | .halt => "HALT"

/-! ### The encoder (spec 30 R52) -/

/-- R and I-shift format: funct7, rs2 or shamt, rs1, funct3, rd, opcode. -/
def encodeR (f7 : BitVec 7) (rs2 rs1 : BitVec 5) (f3 : BitVec 3) (rd : Reg) (op : BitVec 7) : Word :=
  f7 ++ rs2 ++ rs1 ++ f3 ++ rd ++ op

/-- I format: imm[11:0], rs1, funct3, rd, opcode. -/
def encodeI (imm : BitVec 12) (rs1 : Reg) (f3 : BitVec 3) (rd : Reg) (op : BitVec 7) : Word :=
  imm ++ rs1 ++ f3 ++ rd ++ op

/-- S format: imm[11:5], rs2, rs1, funct3, imm[4:0], opcode. -/
def encodeS (imm : BitVec 12) (rs2 rs1 : Reg) (f3 : BitVec 3) (op : BitVec 7) : Word :=
  imm.extractLsb' 5 7 ++ rs2 ++ rs1 ++ f3 ++ imm.extractLsb' 0 5 ++ op

/-- B format: imm[12], imm[10:5], rs2, rs1, funct3, imm[4:1], imm[11], opcode. -/
def encodeB (imm : BitVec 13) (rs2 rs1 : Reg) (f3 : BitVec 3) (op : BitVec 7) : Word :=
  imm.extractLsb' 12 1 ++ imm.extractLsb' 5 6 ++ rs2 ++ rs1 ++ f3 ++ imm.extractLsb' 1 4 ++ imm.extractLsb' 11 1 ++ op

/-- U format: imm[31:12], rd, opcode. -/
def encodeU (imm : Word) (rd : Reg) (op : BitVec 7) : Word := imm.extractLsb' 12 20 ++ rd ++ op

/-- J format: imm[20], imm[10:1], imm[11], imm[19:12], rd, opcode. -/
def encodeJ (imm : BitVec 21) (rd : Reg) (op : BitVec 7) : Word :=
  imm.extractLsb' 20 1 ++ imm.extractLsb' 1 10 ++ imm.extractLsb' 11 1 ++ imm.extractLsb' 12 8 ++ rd ++ op

/-- The word of an instruction, from the format table of spec 30 R52 and the fixed fields of each row. -/
def encode : Instr → Word
  | .lb rd rs1 imm => encodeI imm rs1 0b000#3 rd 0b0000011#7
  | .lh rd rs1 imm => encodeI imm rs1 0b001#3 rd 0b0000011#7
  | .lw rd rs1 imm => encodeI imm rs1 0b010#3 rd 0b0000011#7
  | .lbu rd rs1 imm => encodeI imm rs1 0b100#3 rd 0b0000011#7
  | .lhu rd rs1 imm => encodeI imm rs1 0b101#3 rd 0b0000011#7
  | .addi rd rs1 imm => encodeI imm rs1 0b000#3 rd 0b0010011#7
  | .slti rd rs1 imm => encodeI imm rs1 0b010#3 rd 0b0010011#7
  | .sltiu rd rs1 imm => encodeI imm rs1 0b011#3 rd 0b0010011#7
  | .xori rd rs1 imm => encodeI imm rs1 0b100#3 rd 0b0010011#7
  | .ori rd rs1 imm => encodeI imm rs1 0b110#3 rd 0b0010011#7
  | .andi rd rs1 imm => encodeI imm rs1 0b111#3 rd 0b0010011#7
  | .slli rd rs1 shamt => encodeR 0b0000000#7 shamt rs1 0b001#3 rd 0b0010011#7
  | .srli rd rs1 shamt => encodeR 0b0000000#7 shamt rs1 0b101#3 rd 0b0010011#7
  | .srai rd rs1 shamt => encodeR 0b0100000#7 shamt rs1 0b101#3 rd 0b0010011#7
  | .auipc rd imm => encodeU imm rd 0b0010111#7
  | .sb rs1 rs2 imm => encodeS imm rs2 rs1 0b000#3 0b0100011#7
  | .sh rs1 rs2 imm => encodeS imm rs2 rs1 0b001#3 0b0100011#7
  | .sw rs1 rs2 imm => encodeS imm rs2 rs1 0b010#3 0b0100011#7
  | .add rd rs1 rs2 => encodeR 0b0000000#7 rs2 rs1 0b000#3 rd 0b0110011#7
  | .sub rd rs1 rs2 => encodeR 0b0100000#7 rs2 rs1 0b000#3 rd 0b0110011#7
  | .sll rd rs1 rs2 => encodeR 0b0000000#7 rs2 rs1 0b001#3 rd 0b0110011#7
  | .slt rd rs1 rs2 => encodeR 0b0000000#7 rs2 rs1 0b010#3 rd 0b0110011#7
  | .sltu rd rs1 rs2 => encodeR 0b0000000#7 rs2 rs1 0b011#3 rd 0b0110011#7
  | .xor rd rs1 rs2 => encodeR 0b0000000#7 rs2 rs1 0b100#3 rd 0b0110011#7
  | .srl rd rs1 rs2 => encodeR 0b0000000#7 rs2 rs1 0b101#3 rd 0b0110011#7
  | .sra rd rs1 rs2 => encodeR 0b0100000#7 rs2 rs1 0b101#3 rd 0b0110011#7
  | .or rd rs1 rs2 => encodeR 0b0000000#7 rs2 rs1 0b110#3 rd 0b0110011#7
  | .and rd rs1 rs2 => encodeR 0b0000000#7 rs2 rs1 0b111#3 rd 0b0110011#7
  | .mul rd rs1 rs2 => encodeR 0b0000001#7 rs2 rs1 0b000#3 rd 0b0110011#7
  | .mulh rd rs1 rs2 => encodeR 0b0000001#7 rs2 rs1 0b001#3 rd 0b0110011#7
  | .mulhsu rd rs1 rs2 => encodeR 0b0000001#7 rs2 rs1 0b010#3 rd 0b0110011#7
  | .mulhu rd rs1 rs2 => encodeR 0b0000001#7 rs2 rs1 0b011#3 rd 0b0110011#7
  | .div rd rs1 rs2 => encodeR 0b0000001#7 rs2 rs1 0b100#3 rd 0b0110011#7
  | .divu rd rs1 rs2 => encodeR 0b0000001#7 rs2 rs1 0b101#3 rd 0b0110011#7
  | .rem rd rs1 rs2 => encodeR 0b0000001#7 rs2 rs1 0b110#3 rd 0b0110011#7
  | .remu rd rs1 rs2 => encodeR 0b0000001#7 rs2 rs1 0b111#3 rd 0b0110011#7
  | .lui rd imm => encodeU imm rd 0b0110111#7
  | .beq rs1 rs2 imm => encodeB imm rs2 rs1 0b000#3 0b1100011#7
  | .bne rs1 rs2 imm => encodeB imm rs2 rs1 0b001#3 0b1100011#7
  | .blt rs1 rs2 imm => encodeB imm rs2 rs1 0b100#3 0b1100011#7
  | .bge rs1 rs2 imm => encodeB imm rs2 rs1 0b101#3 0b1100011#7
  | .bltu rs1 rs2 imm => encodeB imm rs2 rs1 0b110#3 0b1100011#7
  | .bgeu rs1 rs2 imm => encodeB imm rs2 rs1 0b111#3 0b1100011#7
  | .jalr rd rs1 imm => encodeI imm rs1 0b000#3 rd 0b1100111#7
  | .jal rd imm => encodeJ imm rd 0b1101111#7
  | .ecall => 0x00000073#32
  | .ebreak => 0x00100073#32
  | .halt => 0x00000000#32

end Sys2Proof
end

