-- ==== Sys2Proof/Machine/Memory.lean ====
section
/-! DEFINITION. Memory: reading and writing bytes, byte strings and little-endian numbers (spec 20). -/

namespace Sys2Proof.Machine

/-- One byte; an address that is not listed holds 0 (spec 10 R30, 20 R46). -/
def Memory.read : Memory → Nat → Byte
  | [], _ => 0#8
  | (b, v) :: m, a => if a = b then v else Memory.read m a

/-- List a byte at its place among rising addresses. -/
def Memory.insert : Memory → Nat → Byte → Memory
  | [], a, v => [(a, v)]
  | (b, w) :: m, a, v =>
    if a < b then (a, v) :: (b, w) :: m
    else if a = b then (a, v) :: m
    else (b, w) :: Memory.insert m a v

/-- Write one byte; writing 0, what an unlisted address reads as, removes the entry. -/
def Memory.write (m : Memory) (a : Nat) (v : Byte) : Memory :=
  if v = 0#8 then m.filter (fun c => c.1 != a) else m.insert a v

/-- The bytes at `a .. a+n-1` (spec 20 R38). -/
def Memory.readBytes (m : Memory) (a : Nat) : Nat → List Byte
  | 0 => []
  | n + 1 => m.read a :: Memory.readBytes m (a + 1) n

/-- Write a byte string from `a` on (spec 20 R39). -/
def Memory.writeBytes (m : Memory) (a : Nat) : List Byte → Memory
  | [] => m
  | b :: bs => Memory.writeBytes (m.write a b) (a + 1) bs

/-- The number of a little-endian byte string: the sum of byte k times 2^(8k) (spec 20 R35, R36). -/
def leNat : List Byte → Nat
  | [] => 0
  | b :: bs => b.toNat + 256 * leNat bs

/-- The `n` low bytes of `v`, the least significant first: truncation to 8n bits is silent (spec 20 R37). -/
def leBytes : Nat → Nat → List Byte
  | 0, _ => []
  | n + 1, v => BitVec.ofNat 8 v :: leBytes n (v / 256)

/-- The little-endian number in the `n` bytes at `a` (spec 20 R36). -/
def Memory.readLE (m : Memory) (a n : Nat) : Nat := leNat (m.readBytes a n)

/-- Store the low `8n` bits of `v` little-endian at `a` (spec 20 R37). -/
def Memory.writeLE (m : Memory) (a n v : Nat) : Memory := m.writeBytes a (leBytes n v)

/-- Every listed address is above `lo` and the addresses rise, and no listed byte is 0. -/
def Memory.wfAbove : Nat → Memory → Bool
  | _, [] => true
  | lo, (b, v) :: m => decide (lo ≤ b) && v != 0#8 && Memory.wfAbove (b + 1) m

/-- The canonical form: addresses strictly rising, no entry equal to what an unlisted address reads as. -/
def Memory.wf (m : Memory) : Bool := Memory.wfAbove 0 m

/-- Every listed address is below `size` (spec 20 R32, R42). -/
def Memory.within (size : Nat) (m : Memory) : Bool := m.all (fun c => decide (c.1 < size))

/-- InBounds(a, n) on mathematical integers, with no wrap-around (spec 20 R33). -/
def inBounds (size : Nat) (a n : Int) : Bool := decide (0 ≤ a) && decide (a + n - 1 < (size : Int))

end Sys2Proof.Machine
end

