-- ==== Sys2Proof/Machine/Operands.lean ====
section
/-! DEFINITION. The operand forms: the readings of a word and of an immediate field (spec 00 R11, 30 R53 to R58). -/

namespace Sys2Proof.Machine

/-- m32(n) = n mod 2^32, for any integer (spec 00 R11): "masked to 32 bits". -/
def m32 (n : Int) : Word := BitVec.ofInt 32 n

/-- u(v): the unsigned reading (spec 00 R11). -/
def u (v : Word) : Int := (v.toNat : Int)

/-- s(v): the two's-complement reading (spec 00 R11). -/
def sg (v : Word) : Int := v.toInt

/-- sext_N of a field: its top bit copied into the bits above it (spec 00 R11). -/
def sext {n : Nat} (v : BitVec n) : Word := v.signExtend 32

/-- zext_N of a field (spec 00 R11). -/
def zext {n : Nat} (v : BitVec n) : Word := v.setWidth 32

/-- The effective address m32(x[rs1] + imm) of a load or store (spec 41 R86, D6). -/
def effAddr (base : Word) (imm : BitVec 12) : Word := base + sext imm

/-- The shift amount of a register shift: the low 5 bits (spec 44 R109, D11). -/
def shiftAmount (v : Word) : Nat := v.toNat % 32

end Sys2Proof.Machine
end

