-- ==== Sys2Proof/Machine/Ops.lean ====
section
/-! DEFINITION. The named operations over registers and memory, which every meaning is written from. -/

namespace Sys2Proof.Machine

/-! ### Registers -/

/-- x[r] (spec 10 R15); register 0 always reads 0 (R16). -/
def State.reg (s : State) (r : Reg) : Word :=
  if h : r.toNat = 0 then 0#32
  else s.x[r.toNat - 1]'(by have := r.isLt; omega)

/-- x[r] <- v (spec 10 R17); a write to register 0 is discarded (R16). -/
def State.setReg (s : State) (r : Reg) (v : Word) : State :=
  if h : r.toNat = 0 then s
  else { s with x := s.x.set (r.toNat - 1) v (by have := r.isLt; omega) }

/-- pc <- v (spec 10 R21). -/
def State.setPc (s : State) (v : Word) : State := { s with pc := v }

/-- The address of the next instruction in memory, mod 2^32 (spec 10 R22). -/
def State.nextPc (s : State) : Word := s.pc + 4#32

/-! ### Memory -/

/-- MemRead(a, n) (spec 20 R36): `none` where InBounds(a, n) fails. -/
def State.memRead (s : State) (a : Int) (n : Nat) : Option Nat :=
  if inBounds s.params.memSize a n then some (s.mem.readLE a.toNat n) else none

/-- MemWrite(a, n, v) (spec 20 R37): `none`, with no byte written, where InBounds(a, n) fails. -/
def State.memWrite (s : State) (a : Int) (n v : Nat) : Option State :=
  if inBounds s.params.memSize a n then some { s with mem := s.mem.writeLE a.toNat n v } else none

/-! ### Raising an error

The block has no trap mechanism (spec 60 R151): an error saves nothing, changes no mode and transfers no control, and
there is no return from one. -/

/-- raise OutOfBounds(a, n): the step ends with the state as it was before it (spec 40 R83, 60 R150). -/
def raiseOutOfBounds (a n : Nat) : Result := .fault (.outOfBounds a n)

/-! ### Committing a step (spec 40 R82) -/

/-- x[rd] <- v; pc <- pc + 4. -/
def State.retire (s : State) (rd : Reg) (v : Word) : Result := .next ((s.setReg rd v).setPc s.nextPc)

/-- pc <- pc + 4 and nothing else. -/
def State.advance (s : State) : State := s.setPc s.nextPc

/-- pc <- pc + imm if the condition holds, else pc <- pc + 4 (spec 46 R131). -/
def State.branchIf (s : State) (taken : Bool) (imm : BitVec 13) : Result :=
  .next (s.setPc (if taken then s.pc + sext imm else s.nextPc))

/-- Link and jump: t <- pc + 4; pc <- target; x[rd] <- t (spec 46 R138, R139). -/
def State.linkAndJump (s : State) (rd : Reg) (target : Word) : Result :=
  .next ((s.setReg rd s.nextPc).setPc target)

/-- A load of `n` bytes at `ea`; `ext` makes the register value of the number read (spec 41 R88 to R92). -/
def State.load (s : State) (rd : Reg) (ea : Word) (n : Nat) (ext : Nat → Word) : Result :=
  match s.memRead ea.toNat n with
  | some v => s.retire rd (ext v)
  | none => raiseOutOfBounds ea.toNat n

/-- A store of the low `8n` bits of `v` at `ea` (spec 41 R93 to R95). -/
def State.store (s : State) (ea : Word) (n : Nat) (v : Word) : Result :=
  match s.memWrite ea.toNat n v.toNat with
  | some t => .next t.advance
  | none => raiseOutOfBounds ea.toNat n

/-! ### Fetch (spec 40 R75 to R79) -/

/-- The word at the live pc, four bytes little-endian; `none` where InBounds(pc, 4) fails (spec 40 R77). -/
def State.fetch (s : State) : Option Word := (s.memRead s.pc.toNat 4).map (BitVec.ofNat 32)

/-- What a step finds at the pc, in the order of checks of spec 60 R152. -/
inductive Fetched where
  | outOfBounds
  | unknown (w : Word)
  | instr (i : Instr)
deriving DecidableEq, Repr

/-- Fetch and decode. -/
def State.fetchDecode (s : State) : Fetched :=
  match s.fetch with
  | none => .outOfBounds
  | some w =>
    match decodeWord w with
    | .ok i => .instr i
    | .error _ => .unknown w

/-- The word `w` stored little-endian at the pc where the fetch's four bytes are in bounds; otherwise the state as it
is (DESIGN CHOICE, log 12). -/
def State.placeWord (s : State) (w : Word) : State :=
  match s.memWrite s.pc.toNat 4 w.toNat with
  | some t => t
  | none => s

end Sys2Proof.Machine
end

