-- ==== Sys2Proof/Machine/Control.lean ====
section
/-! DEFINITION. Branches and jumps (spec 46). No target is checked (R128) and there is no delay slot (R129). -/

namespace Sys2Proof.Machine

/-- BEQ (spec 46 R132). -/
def execBeq (rs1 rs2 : Reg) (imm : BitVec 13) (s : State) : Result :=
  s.branchIf (s.reg rs1 == s.reg rs2) imm

/-- BNE (spec 46 R133). -/
def execBne (rs1 rs2 : Reg) (imm : BitVec 13) (s : State) : Result :=
  s.branchIf (s.reg rs1 != s.reg rs2) imm

/-- BLT (spec 46 R134). -/
def execBlt (rs1 rs2 : Reg) (imm : BitVec 13) (s : State) : Result :=
  s.branchIf (ltS (s.reg rs1) (s.reg rs2)) imm

/-- BGE (spec 46 R135). -/
def execBge (rs1 rs2 : Reg) (imm : BitVec 13) (s : State) : Result :=
  s.branchIf (!ltS (s.reg rs1) (s.reg rs2)) imm

/-- BLTU (spec 46 R136). -/
def execBltu (rs1 rs2 : Reg) (imm : BitVec 13) (s : State) : Result :=
  s.branchIf (ltU (s.reg rs1) (s.reg rs2)) imm

/-- BGEU (spec 46 R137). -/
def execBgeu (rs1 rs2 : Reg) (imm : BitVec 13) (s : State) : Result :=
  s.branchIf (!ltU (s.reg rs1) (s.reg rs2)) imm

/-- JAL: link and jump to pc + imm_j (spec 46 R138). -/
def execJal (rd : Reg) (imm : BitVec 21) (s : State) : Result := s.linkAndJump rd (s.pc + sext imm)

/-- JALR: link and jump to x[rs1] + imm_i with bit 0 cleared (spec 46 R139). -/
def execJalr (rd rs1 : Reg) (imm : BitVec 12) (s : State) : Result :=
  s.linkAndJump rd ((s.reg rs1 + sext imm) &&& 0xFFFFFFFE#32)

end Sys2Proof.Machine
end

