-- ==== Sys2Proof/Machine/LoadStore.lean ====
section
/-! DEFINITION. Loads and stores (spec 41). -/

namespace Sys2Proof.Machine

/-- LB: load byte, sign-extended (spec 41 R88). -/
def execLb (rd rs1 : Reg) (imm : BitVec 12) (s : State) : Result :=
  s.load rd (effAddr (s.reg rs1) imm) 1 (fun v => sext (BitVec.ofNat 8 v))

/-- LH: load half-word, sign-extended (spec 41 R89). -/
def execLh (rd rs1 : Reg) (imm : BitVec 12) (s : State) : Result :=
  s.load rd (effAddr (s.reg rs1) imm) 2 (fun v => sext (BitVec.ofNat 16 v))

/-- LW: load word (spec 41 R90). -/
def execLw (rd rs1 : Reg) (imm : BitVec 12) (s : State) : Result :=
  s.load rd (effAddr (s.reg rs1) imm) 4 (fun v => BitVec.ofNat 32 v)

/-- LBU: load byte, zero-extended (spec 41 R91). -/
def execLbu (rd rs1 : Reg) (imm : BitVec 12) (s : State) : Result :=
  s.load rd (effAddr (s.reg rs1) imm) 1 (fun v => zext (BitVec.ofNat 8 v))

/-- LHU: load half-word, zero-extended (spec 41 R92). -/
def execLhu (rd rs1 : Reg) (imm : BitVec 12) (s : State) : Result :=
  s.load rd (effAddr (s.reg rs1) imm) 2 (fun v => zext (BitVec.ofNat 16 v))

/-- SB: store byte (spec 41 R93). -/
def execSb (rs1 rs2 : Reg) (imm : BitVec 12) (s : State) : Result :=
  s.store (effAddr (s.reg rs1) imm) 1 (s.reg rs2)

/-- SH: store half-word (spec 41 R94). -/
def execSh (rs1 rs2 : Reg) (imm : BitVec 12) (s : State) : Result :=
  s.store (effAddr (s.reg rs1) imm) 2 (s.reg rs2)

/-- SW: store word (spec 41 R95). -/
def execSw (rs1 rs2 : Reg) (imm : BitVec 12) (s : State) : Result :=
  s.store (effAddr (s.reg rs1) imm) 4 (s.reg rs2)

end Sys2Proof.Machine
end

