-- ==== Sys2Proof/Machine/MulDiv.lean ====
section
/-! DEFINITION. Multiply and divide instructions (spec 45). None raises an exception: a corner gives a parameter (R118). -/

namespace Sys2Proof.Machine

/-- The high 32 bits of an exact product: m32(floor(p / 2^32)) (spec 45 R120 to R122). -/
def highHalf (p : Int) : Word := m32 (p / 4294967296)

/-- A signed division overflows: -2^31 by -1 (spec 45 R118). -/
def divOverflows (a b : Word) : Bool := a == 0x80000000#32 && b == 0xFFFFFFFF#32

/-- The quotient of DIV, rounded toward zero, with the corners of spec 45 R118 (R123). -/
def quotientS (p : Params) (a b : Word) : Word :=
  if b = 0#32 then p.divByZeroQS
  else if divOverflows a b then p.divOvfQ
  else m32 ((sg a).tdiv (sg b))

/-- The quotient of DIVU (spec 45 R118, R124). -/
def quotientU (p : Params) (a b : Word) : Word :=
  if b = 0#32 then p.divByZeroQU else BitVec.ofNat 32 (a.toNat / b.toNat)

/-- REM_BY_ZERO: by default the dividend (spec 45 R118). -/
def remainderByZero (p : Params) (a : Word) : Word :=
  match p.remByZero with
  | .dividend => a
  | .fixed v => v

/-- The remainder of REM, with the sign of the dividend (spec 45 R118, R125). -/
def remainderS (p : Params) (a b : Word) : Word :=
  if b = 0#32 then remainderByZero p a
  else if divOverflows a b then p.divOvfR
  else m32 (sg a - sg b * (sg a).tdiv (sg b))

/-- The remainder of REMU (spec 45 R118, R126). -/
def remainderU (p : Params) (a b : Word) : Word :=
  if b = 0#32 then remainderByZero p a else BitVec.ofNat 32 (a.toNat % b.toNat)

/-- MUL: the low 32 bits of the product (spec 45 R119). -/
def execMul (rd rs1 rs2 : Reg) (s : State) : Result :=
  s.retire rd (s.reg rs1 * s.reg rs2)

/-- MULH: high half, signed by signed (spec 45 R120). -/
def execMulh (rd rs1 rs2 : Reg) (s : State) : Result :=
  s.retire rd (highHalf (sg (s.reg rs1) * sg (s.reg rs2)))

/-- MULHSU: high half, signed by unsigned (spec 45 R121). -/
def execMulhsu (rd rs1 rs2 : Reg) (s : State) : Result :=
  s.retire rd (highHalf (sg (s.reg rs1) * u (s.reg rs2)))

/-- MULHU: high half, unsigned by unsigned (spec 45 R122). -/
def execMulhu (rd rs1 rs2 : Reg) (s : State) : Result :=
  s.retire rd (highHalf (u (s.reg rs1) * u (s.reg rs2)))

/-- DIV: signed quotient (spec 45 R123). -/
def execDiv (rd rs1 rs2 : Reg) (s : State) : Result :=
  s.retire rd (quotientS s.params (s.reg rs1) (s.reg rs2))

/-- DIVU: unsigned quotient (spec 45 R124). -/
def execDivu (rd rs1 rs2 : Reg) (s : State) : Result :=
  s.retire rd (quotientU s.params (s.reg rs1) (s.reg rs2))

/-- REM: signed remainder (spec 45 R125). -/
def execRem (rd rs1 rs2 : Reg) (s : State) : Result :=
  s.retire rd (remainderS s.params (s.reg rs1) (s.reg rs2))

/-- REMU: unsigned remainder (spec 45 R126). -/
def execRemu (rd rs1 rs2 : Reg) (s : State) : Result :=
  s.retire rd (remainderU s.params (s.reg rs1) (s.reg rs2))

end Sys2Proof.Machine
end

