-- ==== Sys2Proof/Machine/Op.lean ====
section
/-! DEFINITION. Integer register-register instructions (spec 44). None raises an exception. -/

namespace Sys2Proof.Machine

/-- ADD: wrapping sum (spec 44 R107). -/
def execAdd (rd rs1 rs2 : Reg) (s : State) : Result :=
  s.retire rd (s.reg rs1 + s.reg rs2)

/-- SUB: wrapping difference (spec 44 R108). -/
def execSub (rd rs1 rs2 : Reg) (s : State) : Result :=
  s.retire rd (s.reg rs1 - s.reg rs2)

/-- SLL: shift left logical (spec 44 R109). -/
def execSll (rd rs1 rs2 : Reg) (s : State) : Result :=
  s.retire rd (s.reg rs1 <<< shiftAmount (s.reg rs2))

/-- SLT: set if less than, signed (spec 44 R110). -/
def execSlt (rd rs1 rs2 : Reg) (s : State) : Result :=
  s.retire rd (boolWord (ltS (s.reg rs1) (s.reg rs2)))

/-- SLTU: set if less than, unsigned (spec 44 R111). -/
def execSltu (rd rs1 rs2 : Reg) (s : State) : Result :=
  s.retire rd (boolWord (ltU (s.reg rs1) (s.reg rs2)))

/-- XOR: exclusive or (spec 44 R112). -/
def execXor (rd rs1 rs2 : Reg) (s : State) : Result :=
  s.retire rd (s.reg rs1 ^^^ s.reg rs2)

/-- SRL: shift right logical (spec 44 R113). -/
def execSrl (rd rs1 rs2 : Reg) (s : State) : Result :=
  s.retire rd (s.reg rs1 >>> shiftAmount (s.reg rs2))

/-- SRA: shift right arithmetic (spec 44 R114). -/
def execSra (rd rs1 rs2 : Reg) (s : State) : Result :=
  s.retire rd ((s.reg rs1).sshiftRight (shiftAmount (s.reg rs2)))

/-- OR: or (spec 44 R115). -/
def execOr (rd rs1 rs2 : Reg) (s : State) : Result :=
  s.retire rd (s.reg rs1 ||| s.reg rs2)

/-- AND: and (spec 44 R116). -/
def execAnd (rd rs1 rs2 : Reg) (s : State) : Result :=
  s.retire rd (s.reg rs1 &&& s.reg rs2)

end Sys2Proof.Machine
end

