-- ==== Sys2Proof/Machine/OpImm.lean ====
section
/-! DEFINITION. Integer register-immediate instructions (spec 42). None raises an exception. -/

namespace Sys2Proof.Machine

/-- ADDI: add immediate, wrapping (spec 42 R96). -/
def execAddi (rd rs1 : Reg) (imm : BitVec 12) (s : State) : Result :=
  s.retire rd (s.reg rs1 + sext imm)

/-- SLTI: set if less than immediate, signed (spec 42 R97). -/
def execSlti (rd rs1 : Reg) (imm : BitVec 12) (s : State) : Result :=
  s.retire rd (boolWord (ltS (s.reg rs1) (sext imm)))

/-- SLTIU: set if less than the sign-extended immediate, unsigned (spec 42 R98). -/
def execSltiu (rd rs1 : Reg) (imm : BitVec 12) (s : State) : Result :=
  s.retire rd (boolWord (ltU (s.reg rs1) (sext imm)))

/-- XORI: exclusive or (spec 42 R99). -/
def execXori (rd rs1 : Reg) (imm : BitVec 12) (s : State) : Result :=
  s.retire rd (s.reg rs1 ^^^ sext imm)

/-- ORI: or (spec 42 R100). -/
def execOri (rd rs1 : Reg) (imm : BitVec 12) (s : State) : Result :=
  s.retire rd (s.reg rs1 ||| sext imm)

/-- ANDI: and (spec 42 R101). -/
def execAndi (rd rs1 : Reg) (imm : BitVec 12) (s : State) : Result :=
  s.retire rd (s.reg rs1 &&& sext imm)

/-- SLLI: shift left logical by shamt (spec 42 R102). -/
def execSlli (rd rs1 : Reg) (shamt : BitVec 5) (s : State) : Result :=
  s.retire rd (s.reg rs1 <<< shamt.toNat)

/-- SRLI: shift right logical by shamt (spec 42 R103). -/
def execSrli (rd rs1 : Reg) (shamt : BitVec 5) (s : State) : Result :=
  s.retire rd (s.reg rs1 >>> shamt.toNat)

/-- SRAI: shift right arithmetic by shamt (spec 42 R104). -/
def execSrai (rd rs1 : Reg) (shamt : BitVec 5) (s : State) : Result :=
  s.retire rd ((s.reg rs1).sshiftRight shamt.toNat)

end Sys2Proof.Machine
end

