-- ==== Sys2Proof/Machine/System.lean ====
section
/-! DEFINITION. System instructions (spec 47) and the sentinel (spec 40 R78). -/

namespace Sys2Proof.Machine

/-- ECALL: a no-op placeholder (spec 47 R140). -/
def execEcall (s : State) : Result := .next s.advance

/-- EBREAK: a no-op placeholder (spec 47 R141). -/
def execEbreak (s : State) : Result := .next s.advance

/-- HALT, the sentinel word 0: no state change, the pc stays at it (spec 40 R78). Its status, HALT with
continue? = false, is `stepStatus` (log 3). -/
def execHalt (s : State) : Result := .next s

end Sys2Proof.Machine
end

