-- ==== Sys2Proof/Machine/UpperImm.lean ====
section
/-! DEFINITION. Upper-immediate instructions (spec 43). -/

namespace Sys2Proof.Machine

/-- AUIPC: pc + imm_u, the pc being the instruction's own address (spec 43 R105, D7). -/
def execAuipc (rd : Reg) (imm : Word) (s : State) : Result := s.retire rd (s.pc + imm)

/-- LUI: imm_u (spec 43 R106). -/
def execLui (rd : Reg) (imm : Word) (s : State) : Result := s.retire rd imm

end Sys2Proof.Machine
end

