-- ==== Sys2Proof/Machine/Irq.lean ====
section
/-! DEFINITION. The interrupt table and the controller's answers (spec 60 R153 to R161). -/

namespace Sys2Proof.Machine

/-- The entry of an id, where it is registered. -/
def IrqTable.get? : IrqTable → Nat → Option IrqEntry
  | [], _ => none
  | (i, e) :: t, id => if id = i then some e else IrqTable.get? t id

/-- irq[id] <- e: the id stays unique and the ids rise (spec 60 R154). -/
def IrqTable.put : IrqTable → Nat → IrqEntry → IrqTable
  | [], id, e => [(id, e)]
  | (i, f) :: t, id, e =>
    if id < i then (id, e) :: (i, f) :: t
    else if id = i then (id, e) :: t
    else (i, f) :: IrqTable.put t id e

/-- The ids rise strictly, from `lo` on. -/
def IrqTable.wfAbove : Nat → IrqTable → Bool
  | _, [] => true
  | lo, (i, _) :: t => decide (lo ≤ i) && IrqTable.wfAbove (i + 1) t

/-- "identity keyed by id, unique" (spec 10 R25), in the one canonical order. -/
def IrqTable.wf (t : IrqTable) : Bool := IrqTable.wfAbove 0 t

/-- An entry of the table is pending. -/
def IrqTable.anyPending (t : IrqTable) : Bool := t.any (fun p => p.2.pending)

/-- (priority, id) of one entry comes before that of another, or is the same, in lexicographic order (spec 60 R158). -/
def irqBefore (a b : Nat × IrqEntry) : Bool :=
  decide (a.2.priority < b.2.priority) || (decide (a.2.priority = b.2.priority) && decide (a.1 ≤ b.1))

/-- The pending entry with the least (priority, id): lower is more urgent, ties go to the lowest id (spec 60 R158). -/
def IrqTable.best : IrqTable → Option (Nat × IrqEntry)
  | [] => none
  | p :: t =>
    if p.2.pending then
      match IrqTable.best t with
      | none => some p
      | some q => if irqBefore p q then some p else some q
    else IrqTable.best t

/-- has_pending() (spec 60 R157). -/
def State.hasPending (s : State) : Bool := s.irqEn && s.irq.anyPending

/-- highest_priority_pending() (spec 60 R158): masked, not cleared, by the enable bit (10 R26). -/
def State.highestPending (s : State) : Option (Nat × IrqEntry) := if s.irqEn then s.irq.best else none

/-- What the step's sample stops: under IRQ_ACTION = refuse, the id of the pending interrupt (spec 40 R76, D18). -/
def State.irqGate (s : State) : Option Refusal :=
  match s.params.irqAction with
  | .ignore => none
  | .refuse =>
    match s.highestPending with
    | none => none
    | some (id, _) => some (.interruptPending id)

end Sys2Proof.Machine
end

