-- ==== Sys2Proof/Machine/Step.lean ====
section
/-! DEFINITION. One step (spec 40 R75): sample the interrupt controller, fetch, decode, execute. -/

namespace Sys2Proof.Machine

/-- `step()` (spec 40 R75). An unknown word advances the pc and changes nothing else (R79). -/
def step (s : State) : Host.Outcome State Fault Refusal :=
  match s.irqGate with
  | some r => .refused r
  | none =>
    match s.fetchDecode with
    | .outOfBounds => raiseOutOfBounds s.pc.toNat 4
    | .unknown _ => .next s.advance
    | .instr i => exec i s

/-- `s` with the word `w` of `nbits` bits, the bits above them zero, stored where `step` fetches: at the pc. It stands
for the host's `load_program` (spec 20 R44, 70 R171, log 12). -/
def State.withFetchWord (s : State) (nbits w : Nat) : State := s.placeWord (tableWord nbits w)

end Sys2Proof.Machine
end

