-- ==== Sys2Proof/Machine/Status.lean ====
section
/-! DEFINITION. What a transaction answers: the status of a step (spec 40 R84), the errors of the ports with their
codes (spec 60 R149), and the outcome of a port transaction. A status is an output, not state (spec 10 R14, log 3). -/

namespace Sys2Proof.Machine

/-- The errors of spec 60 R149 with the information each records. -/
inductive PortError where
  | outOfBounds (a n : Int)
  | invalidRegister (n : Int)
  | noSavedContext
  | unknownInterrupt (id : Nat)
deriving DecidableEq, Repr

/-- The numeric code of an error (spec 60 R149). -/
def PortError.code : PortError → Nat
  | .outOfBounds _ _ => 3
  | .invalidRegister _ => 4
  | .noSavedContext => 5
  | .unknownInterrupt _ => 6

/-- Why the model refuses a port transaction. The spec gives a refusal no meaning and so no state after it (spec 40 R76,
93 I10): refusing is safe, and that `PortOutcome.after` goes on from the unchanged state is the model's choice (DESIGN
CHOICE, unsafe, log 19). -/
inductive PortRefusal where
  /-- A registration of a new id with IRQ_CAPACITY entries in the table (spec 60 R154, I10). -/
  | irqTableFull
  /-- An id wider than IRQ_ID_BITS (I10). -/
  | irqIdTooWide
  /-- A priority wider than IRQ_PRIO_BITS (I10). -/
  | irqPriorityTooWide
  /-- `step()` refused by the machine (spec 40 R76). -/
  | step (r : Refusal)
deriving DecidableEq, Repr

/-- The outcome of one port transaction: a value and the next state, an error, or a refusal. An error carries no
state: every piece of state is as it was before the transaction (spec 60 R150). A refusal carries none either, because the
spec gives it no meaning. -/
inductive PortOutcome (α : Type) where
  | ok (a : α) (s : State)
  | error (e : PortError)
  | refused (r : PortRefusal)
deriving DecidableEq, Repr

/-- The state after a transaction begun in `s`: after an error, `s` (spec 60 R150). After a refusal, `s` too: DESIGN CHOICE
(log 19), since the spec leaves open what state stands after a refused transaction. -/
def PortOutcome.after {α : Type} (o : PortOutcome α) (s : State) : State :=
  match o with
  | .ok _ t => t
  | .error _ => s
  | .refused _ => s

/-- The status a step returns (spec 40 R84). -/
inductive StepStatus where
  | ok
  /-- The pc of the sentinel (spec 60 R149). -/
  | halt (pc : Word)
  /-- The unknown word and its address. -/
  | unknown (w addr : Word)
  | outOfBounds (addr width : Nat)
  /-- No status: the machine refuses the step (spec 40 R76). -/
  | refused (r : Refusal)
deriving DecidableEq, Repr

/-- The numeric code of a step's status (spec 60 R149); a refused step has none. -/
def StepStatus.code : StepStatus → Option Nat
  | .ok => some 0
  | .halt _ => some 1
  | .unknown _ _ => some 2
  | .outOfBounds _ _ => some 3
  | .refused _ => none

/-- The status of the step taken in `s` (spec 40 R84). -/
def stepStatus (s : State) : StepStatus :=
  match s.irqGate with
  | some r => .refused r
  | none =>
    match s.fetchDecode with
    | .outOfBounds => .outOfBounds s.pc.toNat 4
    | .unknown w => .unknown w s.pc
    | .instr .halt => .halt s.pc
    | .instr i =>
      match exec i s with
      | .next _ => .ok
      | .fault (.outOfBounds a n) => .outOfBounds a n
      | .refused r => .refused r

/-- `continue?` of a status (spec 40 R84): `none` where the transaction raised or is refused. -/
def StepStatus.continues (p : Params) : StepStatus → Option Bool
  | .ok => some true
  | .unknown _ _ => some (p.unknownPolicy == .continue)
  | .halt _ => some false
  | .outOfBounds _ _ => none
  | .refused _ => none

/-- What a step reports: the sample of the interrupt controller, an output of the step only (spec 40 R76), and the
status. -/
structure StepReport where
  irq : Option (Nat × IrqEntry)
  status : StepStatus
deriving DecidableEq, Repr

/-- The report of the step taken in `s`. -/
def stepReport (s : State) : StepReport := ⟨s.highestPending, stepStatus s⟩

end Sys2Proof.Machine
end

