-- ==== Sys2Proof/Machine/IrqPorts.lean ====
section
/-! DEFINITION. The interrupt controller's ports (spec 60 R154 to R161). -/

namespace Sys2Proof.Machine

/-- The number fits in a width, where there is one (spec 00 R9, I10). -/
def fitsBits (width : Option Nat) (n : Nat) : Bool :=
  match width with
  | none => true
  | some k => decide (n < 2 ^ k)

/-- A registration would go beyond IRQ_CAPACITY: the id is new and the table is full (spec 60 R154, I10). -/
def State.irqFull (s : State) (id : Nat) : Bool :=
  match s.params.irqCapacity with
  | none => false
  | some k => (s.irq.get? id).isNone && decide (k ≤ s.irq.length)

/-- register_interrupt(id, priority, handler_addr, description) (spec 60 R154): a registered id is replaced and its
pending flag cleared (D17). -/
def portRegister (id priority : Nat) (handler : Int) (description : String) (s : State) : PortOutcome Unit :=
  if fitsBits s.params.irqIdBits id = false then .refused .irqIdTooWide
  else if fitsBits s.params.irqPrioBits priority = false then .refused .irqPriorityTooWide
  else if s.irqFull id then .refused .irqTableFull
  else .ok () { s with irq := s.irq.put id ⟨priority, m32 handler, description, false⟩ }

/-- The pending flag of a registered id set to `b`. -/
def State.setPending (s : State) (id : Nat) (b : Bool) : PortOutcome Unit :=
  match s.irq.get? id with
  | none => .error (.unknownInterrupt id)
  | some e => .ok () { s with irq := s.irq.put id { e with pending := b } }

/-- trigger_interrupt(id) (spec 60 R155): the enable bit does not block it. -/
def portTrigger (id : Nat) (s : State) : PortOutcome Unit := s.setPending id true

/-- clear_interrupt(id) (spec 60 R156). -/
def portClear (id : Nat) (s : State) : PortOutcome Unit := s.setPending id false

/-- has_pending() (spec 60 R157). -/
def portHasPending (s : State) : PortOutcome Bool := .ok s.hasPending s

/-- highest_priority_pending() (spec 60 R158). -/
def portHighest (s : State) : PortOutcome (Option (Nat × IrqEntry)) := .ok s.highestPending s

/-- enable() (spec 60 R159). -/
def portEnable (s : State) : PortOutcome Unit := .ok () { s with irqEn := true }

/-- disable() (spec 60 R159). -/
def portDisable (s : State) : PortOutcome Unit := .ok () { s with irqEn := false }

/-- Controller reset (spec 60 R161): exactly the three standard entries, none pending, enabled. It is a part of facade
reset (70 R168) and no port of its own: spec 00 R8 gives the controller no reset transaction. -/
def State.resetIrq (s : State) : State := { s with irq := standardIrqs s.params, irqEn := true }

end Sys2Proof.Machine
end

