-- ==== Sys2Proof/Machine/MemPorts.lean ====
section
/-! DEFINITION. The memory's ports (spec 20 R36 to R45). Addresses, lengths and values are integers (R34, D27). -/

namespace Sys2Proof.Machine

/-- A read port of `n` bytes: the zero-extended number (spec 20 R36). -/
def State.portReadN (s : State) (a : Int) (n : Nat) : PortOutcome Nat :=
  match s.memRead a n with
  | some v => .ok v s
  | none => .error (.outOfBounds a n)

/-- A write port of `n` bytes: the value is reduced mod 2^(8n) (spec 20 R37). -/
def State.portWriteN (s : State) (a : Int) (n : Nat) (v : Int) : PortOutcome Unit :=
  match s.memWrite a n (v % (2 ^ (8 * n) : Int)).toNat with
  | some t => .ok () t
  | none => .error (.outOfBounds a n)

/-- read_byte(a) (spec 20 R36). -/
def portReadByte (a : Int) (s : State) : PortOutcome Nat := s.portReadN a 1

/-- read_half(a) (spec 20 R36). -/
def portReadHalf (a : Int) (s : State) : PortOutcome Nat := s.portReadN a 2

/-- read_word(a) (spec 20 R36). -/
def portReadWord (a : Int) (s : State) : PortOutcome Nat := s.portReadN a 4

/-- write_byte(a, v) (spec 20 R37). -/
def portWriteByte (a v : Int) (s : State) : PortOutcome Unit := s.portWriteN a 1 v

/-- write_half(a, v) (spec 20 R37). -/
def portWriteHalf (a v : Int) (s : State) : PortOutcome Unit := s.portWriteN a 2 v

/-- write_word(a, v) (spec 20 R37). -/
def portWriteWord (a v : Int) (s : State) : PortOutcome Unit := s.portWriteN a 4 v

/-- read_block(a, len) (spec 20 R38): a negative length always fails. -/
def portReadBlock (a len : Int) (s : State) : PortOutcome (List Byte) :=
  if 0 ≤ len ∧ inBounds s.params.memSize a len = true then .ok (s.mem.readBytes a.toNat len.toNat) s
  else .error (.outOfBounds a len)

/-- write_block(a, bytes) (spec 20 R39): the whole span is checked first. -/
def portWriteBlock (a : Int) (bytes : List Byte) (s : State) : PortOutcome Unit :=
  if inBounds s.params.memSize a bytes.length then .ok () { s with mem := s.mem.writeBytes a.toNat bytes }
  else .error (.outOfBounds a bytes.length)

/-- Every byte to 0 (spec 20 R45): nothing is listed. -/
def State.resetMem (s : State) : State := { s with mem := [] }

/-- The memory's reset() (spec 20 R45). -/
def portResetMem (s : State) : PortOutcome Unit := .ok () s.resetMem

/-- load_program(words, base) (spec 20 R44): the words one after another, 4 bytes each, the whole span checked first;
no register and no pc changes (D23). -/
def portLoadProgram (words : List Word) (base : Int) (s : State) : PortOutcome Unit :=
  portWriteBlock base (words.flatMap bytesOfWord) s

end Sys2Proof.Machine
end

