-- ==== Sys2Proof/Machine/RegFile.lean ====
section
/-! DEFINITION. The register file's ports (spec 10 R18 to R29) and the context snapshot unit (spec 48). -/

namespace Sys2Proof.Machine

/-! ### Register-file ports -/

/-- The register number of a port index in [0, 31] (spec 10 R18, D29). -/
def portReg? (n : Int) : Option Reg :=
  if 0 ≤ n ∧ n ≤ 31 then some (BitVec.ofNat 5 n.toNat) else none

/-- read(n) (spec 10 R18). -/
def portRead (n : Int) (s : State) : PortOutcome Word :=
  match portReg? n with
  | some r => .ok (s.reg r) s
  | none => .error (.invalidRegister n)

/-- write(n, v) for any integer v (spec 10 R19). -/
def portWrite (n v : Int) (s : State) : PortOutcome Unit :=
  match portReg? n with
  | some r => .ok () (s.setReg r (m32 v))
  | none => .error (.invalidRegister n)

/-- get_pc() (spec 10 R23). -/
def portGetPc (s : State) : PortOutcome Word := .ok s.pc s

/-- set_pc(v) for any integer v; it never raises (spec 10 R23). -/
def portSetPc (v : Int) (s : State) : PortOutcome Unit := .ok () (s.setPc (m32 v))

/-- Register-file reset (spec 10 R29): zeros under REG_RESET_POLICY = zero; under `unknown`, free values (log 7). -/
def State.resetRegFile (s : State) : State :=
  match s.params.regReset with
  | .zero => { s with x := Vector.replicate 31 0#32, pc := 0#32, saved := none }
  | .unknown =>
    { s with
      x := Vector.ofFn (fun i : Fin 31 => Config.resetReg s.freeSeq (BitVec.ofNat 5 (i.val + 1)))
      pc := Config.resetPc s.freeSeq
      saved := none
      freeSeq := s.freeSeq + 1 }

/-- The register file's reset() (spec 10 R29). -/
def portResetRegFile (s : State) : PortOutcome Unit := .ok () s.resetRegFile

/-! ### Context snapshot unit -/

/-- A snapshot as a host passes it in: its values are masked to 32 bits by the restore (spec 48 R145; log 14). -/
structure RawSnapshot where
  regs : Vector Int 32
  pc : Int
deriving DecidableEq, Repr

/-- A snapshot as a host passes it back unchanged. -/
def Snapshot.toRaw (c : Snapshot) : RawSnapshot := ⟨Vector.ofFn (fun i : Fin 32 => u c.regs[i]), u c.pc⟩

/-- The snapshot of the live registers and pc; regs[0] = 0 (spec 48 R144). -/
def State.snapshot (s : State) : Snapshot :=
  ⟨Vector.ofFn (fun i : Fin 32 => s.reg (BitVec.ofNat 5 i.val)), s.pc⟩

/-- x1..x31 and the pc from a snapshot, masked; regs[0] is ignored and `saved` stays (spec 48 R145, D20). -/
def State.restoreFrom (s : State) (c : RawSnapshot) : State :=
  { s with x := Vector.ofFn (fun i : Fin 31 => m32 (c.regs[i.val + 1]'(by omega))), pc := m32 c.pc }

/-- save_context() (spec 48 R144). -/
def portSaveContext (s : State) : PortOutcome Snapshot := .ok s.snapshot { s with saved := some s.snapshot }

/-- restore_context(ctx?) (spec 48 R145). -/
def portRestoreContext (ctx : Option RawSnapshot) (s : State) : PortOutcome Unit :=
  match ctx with
  | some c => .ok () (s.restoreFrom c)
  | none =>
    match s.saved with
    | some c => .ok () (s.restoreFrom c.toRaw)
    | none => .error .noSavedContext

/-- init_context(entry, sp) (spec 48 R146): register-file reset, then the pc and x2. -/
def portInitContext (entry sp : Int) (s : State) : PortOutcome Unit :=
  .ok () ((s.resetRegFile.setPc (m32 entry)).setReg 2#5 (m32 sp))

end Sys2Proof.Machine
end

