-- ==== Sys2Proof/Machine/Ports.lean ====
section
/-! DEFINITION. The facade's ports and the block's whole interface (spec 00 R8): every transaction the host may issue
between steps, as one type with one meaning. -/

namespace Sys2Proof.Machine

/-- Facade reset (spec 70 R168): register file, memory and interrupt controller. -/
def State.facadeReset (s : State) : State := s.resetRegFile.resetMem.resetIrq

/-- reset() (spec 70 R168); it raises no error. -/
def portReset (s : State) : PortOutcome Unit := .ok () s.facadeReset

/-- get_state() (spec 10 R31): the 32 registers and the pc. -/
def portGetState (s : State) : PortOutcome Snapshot := .ok s.snapshot s

/-- step() as a port (spec 40 R75, R84; 60 R150): the report, or the error that ends the run. -/
def portStep (s : State) : PortOutcome StepReport :=
  match step s with
  | .next t => .ok (stepReport s) t
  | .fault (.outOfBounds a n) => .error (.outOfBounds a n)
  | .refused r => .refused (.step r)

/-- The port transactions of spec 00 R8. -/
inductive Txn where
  | read (n : Int)
  | write (n v : Int)
  | getPc
  | setPc (v : Int)
  | resetRegFile
  | saveContext
  | restoreContext (ctx : Option RawSnapshot)
  | initContext (entry sp : Int)
  | readByte (a : Int)
  | readHalf (a : Int)
  | readWord (a : Int)
  | writeByte (a v : Int)
  | writeHalf (a v : Int)
  | writeWord (a v : Int)
  | readBlock (a len : Int)
  | writeBlock (a : Int) (bytes : List Byte)
  | resetMem
  | registerInterrupt (id priority : Nat) (handler : Int) (description : String)
  | triggerInterrupt (id : Nat)
  | clearInterrupt (id : Nat)
  | hasPending
  | highestPriorityPending
  | enable
  | disable
  | loadProgram (words : List Word) (base : Int)
  | step
  | reset
  | getState
deriving DecidableEq, Repr

/-- The value a transaction returns. -/
inductive Resp where
  | none
  | word (v : Word)
  | nat (n : Nat)
  | bool (b : Bool)
  | bytes (bs : List Byte)
  | snapshot (c : Snapshot)
  | irq (e : Option (Nat × IrqEntry))
  | step (r : StepReport)
deriving DecidableEq, Repr

/-- An outcome with its value changed. -/
def PortOutcome.map {α β : Type} (f : α → β) : PortOutcome α → PortOutcome β
  | .ok a s => .ok (f a) s
  | .error e => .error e
  | .refused r => .refused r

/-- One transaction of the block (spec 00 R7, R8): atomic, and in any state. -/
def transact (t : Txn) (s : State) : PortOutcome Resp :=
  match t with
  | .read n => (portRead n s).map .word
  | .write n v => (portWrite n v s).map (fun _ => .none)
  | .getPc => (portGetPc s).map .word
  | .setPc v => (portSetPc v s).map (fun _ => .none)
  | .resetRegFile => (portResetRegFile s).map (fun _ => .none)
  | .saveContext => (portSaveContext s).map .snapshot
  | .restoreContext c => (portRestoreContext c s).map (fun _ => .none)
  | .initContext entry sp => (portInitContext entry sp s).map (fun _ => .none)
  | .readByte a => (portReadByte a s).map .nat
  | .readHalf a => (portReadHalf a s).map .nat
  | .readWord a => (portReadWord a s).map .nat
  | .writeByte a v => (portWriteByte a v s).map (fun _ => .none)
  | .writeHalf a v => (portWriteHalf a v s).map (fun _ => .none)
  | .writeWord a v => (portWriteWord a v s).map (fun _ => .none)
  | .readBlock a len => (portReadBlock a len s).map .bytes
  | .writeBlock a bs => (portWriteBlock a bs s).map (fun _ => .none)
  | .resetMem => (portResetMem s).map (fun _ => .none)
  | .registerInterrupt id p h d => (portRegister id p h d s).map (fun _ => .none)
  | .triggerInterrupt id => (portTrigger id s).map (fun _ => .none)
  | .clearInterrupt id => (portClear id s).map (fun _ => .none)
  | .hasPending => (portHasPending s).map .bool
  | .highestPriorityPending => (portHighest s).map .irq
  | .enable => (portEnable s).map (fun _ => .none)
  | .disable => (portDisable s).map (fun _ => .none)
  | .loadProgram ws base => (portLoadProgram ws base s).map (fun _ => .none)
  | .step => (portStep s).map .step
  | .reset => (portReset s).map (fun _ => .none)
  | .getState => (portGetState s).map .snapshot

/-- The code of a transaction that returned a value: 0 OK, but for a step the code of its status (spec 60 R149). -/
def Resp.code : Resp → Option Nat
  | .none => some 0
  | .word _ => some 0
  | .nat _ => some 0
  | .bool _ => some 0
  | .bytes _ => some 0
  | .snapshot _ => some 0
  | .irq _ => some 0
  | .step r => r.status.code

/-- The code of the one status every transaction ends with (spec 60 R149); a refused transaction has none (log 19). -/
def PortOutcome.code (o : PortOutcome Resp) : Option Nat :=
  match o with
  | .ok r _ => r.code
  | .error e => some e.code
  | .refused _ => none

/-- A host's sequence of transactions: the state after all of them (spec 20 R46). After a refused transaction it goes on
from the state before it (DESIGN CHOICE, log 19). -/
def transactAll : List Txn → State → State
  | [], s => s
  | t :: ts, s => transactAll ts ((transact t s).after s)

/-- The host's context switch (spec 48 R147): the current task's snapshot, if there is one, then the next task's saved
context or its first run. `next` is the task switched to: its prior context, or its entry point and stack pointer. -/
def contextSwitch (hasCurrent : Bool) (next : Option (RawSnapshot ⊕ (Int × Int))) (s : State) : State :=
  let s1 := if hasCurrent then (portSaveContext s).after s else s
  match next with
  | none => s1
  | some (.inl c) => (portRestoreContext (some c) s1).after s1
  | some (.inr (entry, sp)) => (portInitContext entry sp s1).after s1

end Sys2Proof.Machine
end

