-- ==== Sys2Proof/Safety.lean ====
section
/-! DEFINITION. The invariant of the block and what a run is, in the terms the statements use. -/

namespace Sys2Proof.Machine

/-- Every context the slot may hold came from `save_context`, whose regs[0] is 0 (spec 48 R144). -/
def savedOk (c : Option Snapshot) : Bool :=
  match c with
  | none => true
  | some c => c.regs[0] == 0#32

/-- The three standard ids are registered (spec 60 R153): no transaction unregisters an id. -/
def standardRegistered (t : IrqTable) : Bool :=
  (t.get? 0).isSome && (t.get? 1).isSome && (t.get? 2).isSome

/-- The invariant: legal parameters (spec 00 R9), memory canonical and inside [0, MEM_SIZE) (20 R42), the interrupt
table keyed by unique ids with the standard ones among them (10 R25, 60 R153), and a saved context with regs[0] = 0. -/
abbrev State.Inv (s : State) : Prop :=
  s.params.legal = true ∧ s.mem.wf = true ∧ s.mem.within s.params.memSize = true ∧ s.irq.wf = true ∧
    standardRegistered s.irq = true ∧ savedOk s.saved = true

/-- How a host's run ends (spec 40 R85). -/
inductive RunEnd where
  /-- A step returned continue? = false: the state and the status. -/
  | stopped (s : State) (status : StepStatus)
  /-- A step raised an error: the state before it, which stands. -/
  | raised (s : State) (f : Fault)
  /-- The machine refused a step. -/
  | refused (s : State) (r : Refusal)
  /-- The host's step bound. -/
  | bound (s : State)
deriving DecidableEq, Repr

/-- The host's loop of `step()` calls, at most `k` of them (spec 40 R85): it ends at the first step that returns
continue? = false or raises. -/
def hostRun : Nat → State → RunEnd
  | 0, s => .bound s
  | k + 1, s =>
    match step s with
    | .fault f => .raised s f
    | .refused r => .refused s r
    | .next t =>
      if (stepStatus s).continues s.params = some true then hostRun k t else .stopped t (stepStatus s)

/-- A safe run: within the bound, no step raises an error and none is refused. -/
def safeRun (k : Nat) (s : State) : Bool :=
  match hostRun k s with
  | .stopped _ _ => true
  | .bound _ => true
  | .raised _ _ => false
  | .refused _ _ => false

end Sys2Proof.Machine
end

