-- ==== Sys2Proof/Certificates/Slice0/Obligations.lean ====
section
/-! DEFINITION. The statements for the provers. The notation of spec 00 R11 is written out here on integers, apart from
the model's own bit-vector operations, so that a statement says what the rule says and not what the model computes. -/

namespace Sys2Proof.Spec

open Sys2Proof.Machine

/-- m32(n) = n mod 2^32 (spec 00 R11). -/
def wrap32 (n : Int) : Word := BitVec.ofNat 32 (n % 4294967296).toNat

/-- u(v): the unsigned reading (spec 00 R11). -/
def uval (v : Word) : Int := v.toNat

/-- The two's-complement reading of the `n`-bit number `v` (spec 00 R11). -/
def signed (n v : Nat) : Int := if v < 2 ^ (n - 1) then v else v - 2 ^ n

/-- s(v) of a word (spec 00 R11). -/
def sval (v : Word) : Int := signed 32 v.toNat

/-- The sum over k in 0..n-1 of mem[a + k] * 2^(8k) (spec 20 R36). -/
def leSum (m : Memory) (a n : Nat) : Nat := ∑ k ∈ Finset.range n, (m.read (a + k)).toNat * 2 ^ (8 * k)

/-- Every byte of memory reads the same. -/
def SameMemory (s t : State) : Prop := ∀ a, t.mem.read a = s.mem.read a

/-- Every general register reads the same. -/
def SameRegs (s t : State) : Prop := ∀ r, t.reg r = s.reg r

/-- The saved-context slot, the interrupt table, the enable bit and the model's own fields are the same. -/
def SameRest (s t : State) : Prop :=
  t.saved = s.saved ∧ t.irq = s.irq ∧ t.irqEn = s.irqEn ∧ t.params = s.params ∧ t.freeSeq = s.freeSeq

/-- `t` is `s` with `v` written to `rd` (nothing, where `rd` is x0: spec 10 R16) and the pc at `npc`, every other
register, every byte of memory and everything else as before. -/
def RegisterWritten (s t : State) (rd : Reg) (v npc : Word) : Prop :=
  (∀ r, t.reg r = if r = 0#5 then 0#32 else if r = rd then v else s.reg r) ∧ t.pc = npc ∧
    SameMemory s t ∧ SameRest s t

/-- The instruction completes, writing `v` to `rd` and advancing the pc by 4. -/
def Writes (i : Instr) (s : State) (rd : Reg) (v : Word) : Prop :=
  ∃ t, exec i s = .next t ∧ RegisterWritten s t rd v (wrap32 (uval s.pc + 4))

/-- The instruction completes with the pc at `npc` and nothing else changed. -/
def MovesPc (i : Instr) (s : State) (npc : Word) : Prop :=
  ∃ t, exec i s = .next t ∧ t.pc = npc ∧ SameRegs s t ∧ SameMemory s t ∧ SameRest s t

/-- Every word of the row (`mask`, `pattern`) of spec/opcode_table.json decodes to `f` of it. -/
def RowDecodes (mask pattern : Word) (f : Word → Instr) : Prop :=
  ∀ w : Word, w &&& mask = pattern → decodeWord w = .ok (f w)

/-- A load rule of spec 41: the row of the table, and for every base, displacement and state, the value of the `n`
bytes at the effective address where they are inside memory, and the error where they are not. -/
def LoadRule (mk : Reg → Reg → BitVec 12 → Instr) (pattern : Word) (n : Nat) (value : Nat → Word) : Prop :=
  RowDecodes 0x0000707F#32 pattern
    (fun w => mk (w.extractLsb' 7 5) (w.extractLsb' 15 5) (w.extractLsb' 20 12)) ∧
  ∀ (rd rs1 : Reg) (imm : BitVec 12) (s : State),
    ((effAddr (s.reg rs1) imm).toNat + n ≤ s.params.memSize →
      Writes (mk rd rs1 imm) s rd (value (leSum s.mem (effAddr (s.reg rs1) imm).toNat n))) ∧
    (s.params.memSize < (effAddr (s.reg rs1) imm).toNat + n →
      exec (mk rd rs1 imm) s = .fault (.outOfBounds (effAddr (s.reg rs1) imm).toNat n))

/-- A store rule of spec 41: the row of the table, and for every state the `n` low bytes of x[rs2] stored
little-endian at the effective address with every other byte as before, or the error with nothing stored. -/
def StoreRule (mk : Reg → Reg → BitVec 12 → Instr) (pattern : Word) (n : Nat) : Prop :=
  RowDecodes 0x0000707F#32 pattern
    (fun w => mk (w.extractLsb' 15 5) (w.extractLsb' 20 5) (w.extractLsb' 25 7 ++ w.extractLsb' 7 5)) ∧
  ∀ (rs1 rs2 : Reg) (imm : BitVec 12) (s : State),
    ((effAddr (s.reg rs1) imm).toNat + n ≤ s.params.memSize →
      ∃ t, exec (mk rs1 rs2 imm) s = .next t ∧ t.pc = wrap32 (uval s.pc + 4) ∧ SameRegs s t ∧ SameRest s t ∧
        (∀ k, k < n → (t.mem.read ((effAddr (s.reg rs1) imm).toNat + k)).toNat =
          (s.reg rs2).toNat / 2 ^ (8 * k) % 256) ∧
        (∀ a, a < (effAddr (s.reg rs1) imm).toNat ∨ (effAddr (s.reg rs1) imm).toNat + n ≤ a →
          t.mem.read a = s.mem.read a)) ∧
    (s.params.memSize < (effAddr (s.reg rs1) imm).toNat + n →
      exec (mk rs1 rs2 imm) s = .fault (.outOfBounds (effAddr (s.reg rs1) imm).toNat n))

/-- An OP-IMM rule of spec 42: the row, and the value of x[rs1] and imm_i written to rd. -/
def OpImmRule (mk : Reg → Reg → BitVec 12 → Instr) (pattern : Word) (value : Word → Word → Word) : Prop :=
  RowDecodes 0x0000707F#32 pattern
    (fun w => mk (w.extractLsb' 7 5) (w.extractLsb' 15 5) (w.extractLsb' 20 12)) ∧
  ∀ (rd rs1 : Reg) (imm : BitVec 12) (s : State),
    Writes (mk rd rs1 imm) s rd (value (s.reg rs1) (wrap32 (signed 12 imm.toNat)))

/-- An immediate-shift rule of spec 42: the row, and the value of x[rs1] and shamt written to rd. -/
def ShiftImmRule (mk : Reg → Reg → BitVec 5 → Instr) (pattern : Word) (value : Word → Nat → Word) : Prop :=
  RowDecodes 0xFE00707F#32 pattern
    (fun w => mk (w.extractLsb' 7 5) (w.extractLsb' 15 5) (w.extractLsb' 20 5)) ∧
  ∀ (rd rs1 : Reg) (shamt : BitVec 5) (s : State), Writes (mk rd rs1 shamt) s rd (value (s.reg rs1) shamt.toNat)

/-- A register-register rule of spec 44 and 45: the row, and the value of x[rs1] and x[rs2], under the parameters,
written to rd. -/
def OpRule (mk : Reg → Reg → Reg → Instr) (pattern : Word) (value : Params → Word → Word → Word) : Prop :=
  RowDecodes 0xFE00707F#32 pattern
    (fun w => mk (w.extractLsb' 7 5) (w.extractLsb' 15 5) (w.extractLsb' 20 5)) ∧
  ∀ (rd rs1 rs2 : Reg) (s : State), Writes (mk rd rs1 rs2) s rd (value s.params (s.reg rs1) (s.reg rs2))

/-- A branch rule of spec 46: the row, and the pc moved to pc + imm_b where the condition holds of x[rs1] and x[rs2],
and to pc + 4 where it does not; nothing else changes. -/
def BranchRule (mk : Reg → Reg → BitVec 13 → Instr) (pattern : Word) (cond : Word → Word → Prop) : Prop :=
  RowDecodes 0x0000707F#32 pattern
    (fun w => mk (w.extractLsb' 15 5) (w.extractLsb' 20 5)
      (w.extractLsb' 31 1 ++ w.extractLsb' 7 1 ++ w.extractLsb' 25 6 ++ w.extractLsb' 8 4 ++ 0#1)) ∧
  ∀ (rs1 rs2 : Reg) (imm : BitVec 13) (s : State),
    (cond (s.reg rs1) (s.reg rs2) → MovesPc (mk rs1 rs2 imm) s (wrap32 (uval s.pc + signed 13 imm.toNat))) ∧
    (¬ cond (s.reg rs1) (s.reg rs2) → MovesPc (mk rs1 rs2 imm) s (wrap32 (uval s.pc + 4)))

/-- The 1 or 0 of a condition. -/
def oneIf (c : Prop) [Decidable c] : Word := if c then 1#32 else 0#32

/-- The fetch of `s` is in bounds and reads the little-endian word `w` at the pc (spec 40 R77). -/
def AtPc (s : State) (w : Word) : Prop :=
  s.pc.toNat + 4 ≤ s.params.memSize ∧ w = BitVec.ofNat 32 (leSum s.mem s.pc.toNat 4)

/-- The interrupt sample lets the step through (spec 40 R76). -/
def SampleLetsThrough (s : State) : Prop := s.params.irqAction = .ignore ∨ s.highestPending = none

/-- The one data access of an instruction: its effective address and width (spec 41, 60 R152). -/
def dataAccess (s : State) : Instr → Option (Word × Nat)
  | .lb _ rs1 imm => some (effAddr (s.reg rs1) imm, 1)
  | .lh _ rs1 imm => some (effAddr (s.reg rs1) imm, 2)
  | .lw _ rs1 imm => some (effAddr (s.reg rs1) imm, 4)
  | .lbu _ rs1 imm => some (effAddr (s.reg rs1) imm, 1)
  | .lhu _ rs1 imm => some (effAddr (s.reg rs1) imm, 2)
  | .sb rs1 _ imm => some (effAddr (s.reg rs1) imm, 1)
  | .sh rs1 _ imm => some (effAddr (s.reg rs1) imm, 2)
  | .sw rs1 _ imm => some (effAddr (s.reg rs1) imm, 4)
  | _ => none

/-- The instruction is a store. -/
def isStore : Instr → Bool
  | .sb _ _ _ => true
  | .sh _ _ _ => true
  | .sw _ _ _ => true
  | _ => false

/-- A memory read port of `n` bytes (spec 20 R36). -/
def ReadPortRule (port : Int → State → PortOutcome Nat) (n : Nat) : Prop :=
  ∀ (a : Int) (s : State),
    (0 ≤ a ∧ a + n - 1 < s.params.memSize → port a s = .ok (leSum s.mem a.toNat n) s) ∧
    (¬ (0 ≤ a ∧ a + n - 1 < s.params.memSize) → port a s = .error (.outOfBounds a n))

/-- A memory write port of `n` bytes, with its round trip through the read port (spec 20 R37). -/
def WritePortRule (port : Int → Int → State → PortOutcome Unit) (readPort : Int → State → PortOutcome Nat)
    (n : Nat) : Prop :=
  ∀ (a v : Int) (s : State),
    (0 ≤ a ∧ a + n - 1 < s.params.memSize →
      ∃ t, port a v s = .ok () t ∧ t.pc = s.pc ∧ SameRegs s t ∧ SameRest s t ∧
        (∀ k : Nat, k < n → ((t.mem.read (a.toNat + k)).toNat : Int) = v % 2 ^ (8 * n) / 2 ^ (8 * k) % 256) ∧
        (∀ c : Nat, (c : Int) < a ∨ a + n ≤ c → t.mem.read c = s.mem.read c) ∧
        readPort a t = .ok (v % 2 ^ (8 * n)).toNat t) ∧
    (¬ (0 ≤ a ∧ a + n - 1 < s.params.memSize) → port a v s = .error (.outOfBounds a n))

end Sys2Proof.Spec

open Sys2Proof Sys2Proof.Machine Sys2Proof.Spec

/-! ### Encoding and decoding (spec 30) -/

/-- Decoding the word of a well-formed instruction gives the instruction back, at every value of every operand.
Derived from spec 30 R52 to R66. -/
def Obligations.DecodeOfEncodeIsTheInstruction : Prop :=
  ∀ i : Instr, i.wellFormed = true → decodeWord (encode i) = .ok i

/-- A word that decodes is the word of the instruction it decodes to, which is well formed: no two words decode to one
instruction, and no bit of a decoded word is dropped. Derived from spec 30 R52 to R66. -/
def Obligations.DecodedWordIsTheEncoding : Prop :=
  ∀ (w : Word) (i : Instr), decodeWord w = .ok i → i.wellFormed = true ∧ encode i = w

/-- The class dispatch of the decoder is the search of the opcode table, and at most one row of the table accepts a word.
Derived from spec 30 R70, which marks the sentence on the rows' disjointness as its own inference ("derived: checked over
every pair of rows"). -/
def Obligations.DecoderSearchesTheOpcodeTable : Prop :=
  (∀ w : Word, (decodeWord w).toOption = decodeByTable w) ∧
  ∀ (w : Word) (j k : Nat) (r q : OpcodeRow), opcodeTable[j]? = some r → opcodeTable[k]? = some q →
    r.accepts w = true → q.accepts w = true → j = k

/-- Spec 30 R68: a nonzero word is unknown exactly when no row of the table accepts it; every word whose opcode is not
one of the ten classes is. -/
def Obligations.UnknownWordsAreThoseOfNoRow : Prop :=
  (∀ w : Word, w ≠ 0#32 → ((∃ r, decodeWord w = .error r) ↔ ∀ r ∈ opcodeTable, r.accepts w = false)) ∧
  (∀ w : Word, w ≠ 0#32 → w.extractLsb' 0 7 ∉ [0x03#7, 0x13#7, 0x17#7, 0x23#7, 0x33#7, 0x37#7, 0x63#7, 0x67#7, 0x6F#7,
    0x73#7] → ∃ r, decodeWord w = .error r)

/-- A few words of the spec (30 R71, 41 to 47, 95 sections 2.1 and 2.2) decode to the instructions they stand for. -/
def Obligations.SpecWordsDecode : Prop :=
  decodeWord 0x003100B3#32 = .ok (.add 1#5 2#5 3#5) ∧ decodeWord 0xFFC0A103#32 = .ok (.lw 2#5 1#5 (-4)) ∧
  decodeWord 0xFE002FA3#32 = .ok (.sw 0#5 0#5 (-1)) ∧ decodeWord 0x40415093#32 = .ok (.srai 1#5 2#5 4#5) ∧
  decodeWord 0xFE209EE3#32 = .ok (.bne 1#5 2#5 (-4)) ∧ decodeWord 0xFF9FF06F#32 = .ok (.jal 0#5 (-8)) ∧
  decodeWord 0x003100E7#32 = .ok (.jalr 1#5 2#5 3#12) ∧ decodeWord 0x12345097#32 = .ok (.auipc 1#5 0x12345000#32) ∧
  decodeWord 0x023160B3#32 = .ok (.rem 1#5 2#5 3#5) ∧ decodeWord 0x00100073#32 = .ok .ebreak ∧
  decodeWord 0#32 = .ok .halt ∧ decodeWord 0x30200073#32 = .error (.unknownSystem 0x30200073#32)

/-! ### The step (spec 40) -/

/-- Where the sample lets the step through and the word at the pc decodes, the step is the execution of the instruction
it decodes to, and nothing is done around it. Derived from spec 40 R75 and R80. -/
def Obligations.StepRunsTheDecodedInstruction : Prop :=
  ∀ (s : State) (w : Word) (i : Instr), SampleLetsThrough s → AtPc s w → decodeWord w = .ok i → step s = exec i s

/-- Spec 40 R77: fetch reads the little-endian word at the live pc, aligned or not, and an out-of-bounds fetch raises
OutOfBounds(pc, 4) and changes nothing. -/
def Obligations.FetchReadsTheWordAtThePc : Prop :=
  ∀ s : State,
    (∀ w, AtPc s w → s.fetch = some w) ∧
    (s.params.memSize < s.pc.toNat + 4 → SampleLetsThrough s →
      step s = .fault (.outOfBounds s.pc.toNat 4) ∧ (transact .step s).after s = s)

/-- On the sentinel word the step changes no state and returns HALT with continue? = false. Derived from spec 40 R78: that
a later step halts again is the sentence it marks as its own inference, and that HALT is an instruction which completes in
every state is the model's reading (log 3, DEDUCED; spec 30 R67 says that the word is not decoded). -/
def Obligations.SentinelHaltsWithNoChange : Prop :=
  (∀ s : State, exec .halt s = .next s) ∧
  ∀ s : State, SampleLetsThrough s → AtPc s 0#32 →
    step s = .next s ∧ stepStatus s = .halt s.pc ∧ (stepStatus s).continues s.params = some false ∧
      transactAll [.step, .step] s = s

/-- Spec 40 R79: an unknown word writes no register and no memory, advances the pc by 4 and is reported with the word
and its address; continue? is UNKNOWN_POLICY's. -/
def Obligations.UnknownWordOnlyAdvancesThePc : Prop :=
  ∀ (s : State) (w : Word), SampleLetsThrough s → AtPc s w → w ≠ 0#32 → (∀ r ∈ opcodeTable, r.accepts w = false) →
    (∃ t, step s = .next t ∧ t.pc = wrap32 (uval s.pc + 4) ∧ SameRegs s t ∧ SameMemory s t ∧ SameRest s t) ∧
    stepStatus s = .unknown w s.pc ∧
    ((stepStatus s).continues s.params = some true ↔ s.params.unknownPolicy = .continue)

/-- Spec 40 R76: the sample is reported by every step; under IRQ_ACTION = ignore neither the interrupt table nor the
enable bit has any effect on the step; under refuse a pending, enabled interrupt makes the machine refuse. -/
def Obligations.InterruptSampleHasNoEffectUnlessRefusing : Prop :=
  (∀ s : State, (stepReport s).irq = s.highestPending) ∧
  (∀ (s : State) (table : IrqTable) (en : Bool), s.params.irqAction = .ignore →
    step { s with irq := table, irqEn := en } =
      match step s with
      | .next t => .next { t with irq := table, irqEn := en }
      | .fault f => .fault f
      | .refused r => .refused r) ∧
  (∀ (s : State) (id : Nat) (e : IrqEntry), s.params.irqAction = .refuse → s.highestPending = some (id, e) →
    step s = .refused (.interruptPending id))

/-- Spec 40 R83: a step raises exactly OutOfBounds of the first failing check: of the fetch, or of the load or store at
the pc; and the state is as before the step. -/
def Obligations.StepFaultsExactlyOnFailedBoundsChecks : Prop :=
  ∀ (s : State) (f : Fault),
    (step s = .fault f ↔
      SampleLetsThrough s ∧
        ((s.params.memSize < s.pc.toNat + 4 ∧ f = .outOfBounds s.pc.toNat 4) ∨
          ∃ w i ea n, AtPc s w ∧ decodeWord w = .ok i ∧ dataAccess s i = some (ea, n) ∧
            s.params.memSize < ea.toNat + n ∧ f = .outOfBounds ea.toNat n)) ∧
    (step s = .fault f → (transact .step s).after s = s)

/-- A step completes whenever the sample lets it through, its fetch is in bounds, and the data access of the decoded
instruction, if it has one, is in bounds: no instruction and no word stops the machine otherwise. Derived from
spec 40 R84 and 60 R152. -/
def Obligations.StepCompletesWithinBounds : Prop :=
  ∀ (s : State) (w : Word), SampleLetsThrough s → AtPc s w →
    (∀ i ea n, decodeWord w = .ok i → dataAccess s i = some (ea, n) → ea.toNat + n ≤ s.params.memSize) →
    ∃ t, step s = .next t

/-- Spec 40 R84: the status of a step says what the step did. -/
def Obligations.StatusSaysWhatTheStepDid : Prop :=
  ∀ s : State,
    match stepStatus s with
    | .ok => (∃ w i, AtPc s w ∧ decodeWord w = .ok i ∧ i ≠ .halt ∧ step s = exec i s) ∧ (∃ t, step s = .next t) ∧
        (stepStatus s).continues s.params = some true
    | .halt a => a = s.pc ∧ AtPc s 0#32 ∧ step s = .next s ∧ (stepStatus s).continues s.params = some false
    | .unknown w a => a = s.pc ∧ AtPc s w ∧ (∃ r, decodeWord w = .error r) ∧
        (∃ t, step s = .next t ∧ t.pc = wrap32 (uval s.pc + 4) ∧ SameRegs s t ∧ SameMemory s t ∧ SameRest s t) ∧
        (stepStatus s).continues s.params = some (decide (s.params.unknownPolicy = .continue))
    | .outOfBounds a n => step s = .fault (.outOfBounds a n) ∧ (stepStatus s).continues s.params = none
    | .refused r => step s = .refused r

/-- A host's run ends at the sentinel with the state there, and at an unknown word after the advance where
UNKNOWN_POLICY = halt, whatever the bound. Derived from spec 40 R85 and R79. -/
def Obligations.HostRunEndsWhereContinueIsFalse : Prop :=
  (∀ (k : Nat) (s : State), SampleLetsThrough s → AtPc s 0#32 → hostRun (k + 1) s = .stopped s (.halt s.pc)) ∧
  (∀ (k : Nat) (s : State) (w : Word) (r : DecodeReject), SampleLetsThrough s → AtPc s w → decodeWord w = .error r →
    s.params.unknownPolicy = .halt → ∃ t, hostRun (k + 1) s = .stopped t (.unknown w s.pc) ∧ step s = .next t) ∧
  (∀ (k : Nat) (s : State) (f : Fault), step s = .fault f → hostRun (k + 1) s = .raised s f)

/-! ### Loads and stores (spec 41) -/

/-- Spec 41 R86, R87: the effective address is m32(x[rs1] + imm), checked as an unsigned number whatever its alignment,
and neither a load nor a store modifies the base register (unless a load names it as its destination). -/
def Obligations.EffectiveAddressWrapsAndKeepsTheBase : Prop :=
  (∀ (base : Word) (imm : BitVec 12), effAddr base imm = wrap32 (uval base + signed 12 imm.toNat)) ∧
  ∀ (i : Instr) (s : State) (ea : Word) (n : Nat), dataAccess s i = some (ea, n) →
    (ea.toNat + n ≤ s.params.memSize → ∃ t, exec i s = .next t) ∧
    (s.params.memSize < ea.toNat + n → exec i s = .fault (.outOfBounds ea.toNat n)) ∧
    ∀ t, exec i s = .next t → ∀ r, (∀ rs1 imm, i ≠ .lb r rs1 imm ∧ i ≠ .lh r rs1 imm ∧ i ≠ .lw r rs1 imm ∧
      i ≠ .lbu r rs1 imm ∧ i ≠ .lhu r rs1 imm) → t.reg r = s.reg r

/-- Spec 41 R88 to R92: each load, by its row, value, extension, frame and error. -/
def Obligations.LoadsReadExtendedMemory : Prop :=
  LoadRule .lb 0x00000003#32 1 (fun v => wrap32 (signed 8 v)) ∧
  LoadRule .lh 0x00001003#32 2 (fun v => wrap32 (signed 16 v)) ∧
  LoadRule .lw 0x00002003#32 4 (fun v => wrap32 v) ∧
  LoadRule .lbu 0x00004003#32 1 (fun v => wrap32 v) ∧
  LoadRule .lhu 0x00005003#32 2 (fun v => wrap32 v)

/-- Spec 41 R93 to R95: each store, by its row, the bytes it stores, frame and error. -/
def Obligations.StoresWriteTheirBytesOrNothing : Prop :=
  StoreRule .sb 0x00000023#32 1 ∧ StoreRule .sh 0x00001023#32 2 ∧ StoreRule .sw 0x00002023#32 4

/-- A word stored by SW is what a later fetch at its address reads: no fence is needed. Derived from spec 20 R49 and
41 R95. -/
def Obligations.FetchSeesTheStoredWord : Prop :=
  ∀ (rs1 rs2 : Reg) (imm : BitVec 12) (s t : State), exec (.sw rs1 rs2 imm) s = .next t →
    (t.setPc (effAddr (s.reg rs1) imm)).fetch = some (s.reg rs2)

/-! ### Register-immediate and upper-immediate instructions (spec 42, 43) -/

/-- Spec 42 R96 to R101. -/
def Obligations.OpImmWritesTheRulesValue : Prop :=
  OpImmRule .addi 0x00000013#32 (fun a b => wrap32 (uval a + uval b)) ∧
  OpImmRule .slti 0x00002013#32 (fun a b => oneIf (sval a < sval b)) ∧
  OpImmRule .sltiu 0x00003013#32 (fun a b => oneIf (uval a < uval b)) ∧
  OpImmRule .xori 0x00004013#32 (fun a b => a ^^^ b) ∧
  OpImmRule .ori 0x00006013#32 (fun a b => a ||| b) ∧
  OpImmRule .andi 0x00007013#32 (fun a b => a &&& b)

/-- Spec 42 R102 to R104: shifts as multiplication and floor division by 2^shamt; and a word of their funct3 with any
other funct7 is unknown. -/
def Obligations.ImmediateShiftsScaleByPowersOfTwo : Prop :=
  ShiftImmRule .slli 0x00001013#32 (fun a k => wrap32 (uval a * 2 ^ k)) ∧
  ShiftImmRule .srli 0x00005013#32 (fun a k => wrap32 (uval a / 2 ^ k)) ∧
  ShiftImmRule .srai 0x40005013#32 (fun a k => wrap32 (sval a / 2 ^ k)) ∧
  (∀ w : Word, w &&& 0x0000707F#32 = 0x00001013#32 → w.extractLsb' 25 7 ≠ 0#7 → ∃ r, decodeWord w = .error r) ∧
  (∀ w : Word, w &&& 0x0000707F#32 = 0x00005013#32 → w.extractLsb' 25 7 ≠ 0#7 → w.extractLsb' 25 7 ≠ 0x20#7 →
    ∃ r, decodeWord w = .error r)

/-- Spec 43 R105, R106. -/
def Obligations.UpperImmediatesAreShiftedIntoPlace : Prop :=
  RowDecodes 0x0000007F#32 0x00000017#32 (fun w => .auipc (w.extractLsb' 7 5) (w &&& 0xFFFFF000#32)) ∧
  RowDecodes 0x0000007F#32 0x00000037#32 (fun w => .lui (w.extractLsb' 7 5) (w &&& 0xFFFFF000#32)) ∧
  (∀ (rd : Reg) (imm : Word) (s : State), Writes (.auipc rd imm) s rd (wrap32 (uval s.pc + uval imm))) ∧
  (∀ (rd : Reg) (imm : Word) (s : State), Writes (.lui rd imm) s rd imm)

/-! ### Register-register instructions (spec 44, 45) -/

/-- Spec 44 R107, R108, R110, R111, R112, R115, R116. -/
def Obligations.OpWritesTheRulesValue : Prop :=
  OpRule .add 0x00000033#32 (fun _ a b => wrap32 (uval a + uval b)) ∧
  OpRule .sub 0x40000033#32 (fun _ a b => wrap32 (uval a - uval b)) ∧
  OpRule .slt 0x00002033#32 (fun _ a b => oneIf (sval a < sval b)) ∧
  OpRule .sltu 0x00003033#32 (fun _ a b => oneIf (uval a < uval b)) ∧
  OpRule .xor 0x00004033#32 (fun _ a b => a ^^^ b) ∧
  OpRule .or 0x00006033#32 (fun _ a b => a ||| b) ∧
  OpRule .and 0x00007033#32 (fun _ a b => a &&& b)

/-- Spec 44 R109, R113, R114: shifts by the low 5 bits of x[rs2]. -/
def Obligations.RegisterShiftsUseFiveBits : Prop :=
  OpRule .sll 0x00001033#32 (fun _ a b => wrap32 (uval a * 2 ^ (b.toNat % 32))) ∧
  OpRule .srl 0x00005033#32 (fun _ a b => wrap32 (uval a / 2 ^ (b.toNat % 32))) ∧
  OpRule .sra 0x40005033#32 (fun _ a b => wrap32 (sval a / 2 ^ (b.toNat % 32)))

/-- Spec 44 R117: OP words with no row are unknown. -/
def Obligations.OtherOpWordsAreUnknown : Prop :=
  ∀ w : Word, w.extractLsb' 0 7 = 0x33#7 →
    ((w.extractLsb' 25 7 ≠ 0x00#7 ∧ w.extractLsb' 25 7 ≠ 0x20#7 ∧ w.extractLsb' 25 7 ≠ 0x01#7) ∨
      (w.extractLsb' 25 7 = 0x20#7 ∧ w.extractLsb' 12 3 ≠ 0b000#3 ∧ w.extractLsb' 12 3 ≠ 0b101#3)) →
    (∃ r, decodeWord w = .error r) ∧
    ∀ s : State, SampleLetsThrough s → AtPc s w →
      ∃ t, step s = .next t ∧ t.pc = wrap32 (uval s.pc + 4) ∧ SameRegs s t ∧ SameMemory s t ∧ SameRest s t

/-- Spec 45 R119 to R122: the low half and the three high halves of the exact product. -/
def Obligations.MultipliesGiveHalvesOfTheExactProduct : Prop :=
  OpRule .mul 0x02000033#32 (fun _ a b => wrap32 (uval a * uval b)) ∧
  OpRule .mulh 0x02001033#32 (fun _ a b => wrap32 (sval a * sval b / 2 ^ 32)) ∧
  OpRule .mulhsu 0x02002033#32 (fun _ a b => wrap32 (sval a * uval b / 2 ^ 32)) ∧
  OpRule .mulhu 0x02003033#32 (fun _ a b => wrap32 (uval a * uval b / 2 ^ 32)) ∧
  ∀ a b : Word, wrap32 (uval a * uval b) = wrap32 (sval a * sval b)

/-- Truncating division; the corners are the parameters of spec 45 R118, with its defaults. Derived from spec 45 R118 and
R123 to R126; that REM_BY_ZERO may also be one fixed word is the model's choice of its type (log 13, DESIGN CHOICE), which
no rule gives. -/
def Obligations.DividesTruncateAndCornersAreParameters : Prop :=
  OpRule .div 0x02004033#32 (fun p a b =>
    if b = 0#32 then p.divByZeroQS else if sval a = -2147483648 ∧ sval b = -1 then p.divOvfQ
    else wrap32 ((sval a).tdiv (sval b))) ∧
  OpRule .divu 0x02005033#32 (fun p a b => if b = 0#32 then p.divByZeroQU else wrap32 (uval a / uval b)) ∧
  OpRule .rem 0x02006033#32 (fun p a b =>
    if b = 0#32 then (match p.remByZero with | .dividend => a | .fixed v => v)
    else if sval a = -2147483648 ∧ sval b = -1 then p.divOvfR else wrap32 (sval a - sval b * (sval a).tdiv (sval b))) ∧
  OpRule .remu 0x02007033#32 (fun p a b =>
    if b = 0#32 then (match p.remByZero with | .dividend => a | .fixed v => v) else wrap32 (uval a % uval b)) ∧
  Params.default.divByZeroQS = 0xFFFFFFFF#32 ∧ Params.default.divByZeroQU = 0xFFFFFFFF#32 ∧
  Params.default.remByZero = .dividend ∧ Params.default.divOvfQ = 0x80000000#32 ∧ Params.default.divOvfR = 0#32

/-- Outside the corners, quotient and remainder, as DIV and REM (DIVU and REMU) write them, give the dividend back, the
remainder is smaller than the divisor and has the dividend's sign. Derived from spec 45 R118, R123 to R126. -/
def Obligations.QuotientAndRemainderGiveTheDividend : Prop :=
  (∀ (rd rs1 rs2 : Reg) (t q r : State), rd ≠ 0#5 → t.reg rs2 ≠ 0#32 →
    ¬ (t.reg rs1 = 0x80000000#32 ∧ t.reg rs2 = 0xFFFFFFFF#32) →
    exec (.div rd rs1 rs2) t = .next q → exec (.rem rd rs1 rs2) t = .next r →
      sval (q.reg rd) * sval (t.reg rs2) + sval (r.reg rd) = sval (t.reg rs1) ∧
        |sval (r.reg rd)| < |sval (t.reg rs2)| ∧ 0 ≤ sval (r.reg rd) * sval (t.reg rs1)) ∧
  (∀ (rd rs1 rs2 : Reg) (t q r : State), rd ≠ 0#5 → t.reg rs2 ≠ 0#32 →
    exec (.divu rd rs1 rs2) t = .next q → exec (.remu rd rs1 rs2) t = .next r →
      uval (q.reg rd) * uval (t.reg rs2) + uval (r.reg rd) = uval (t.reg rs1) ∧ uval (r.reg rd) < uval (t.reg rs2))

/-! ### Control transfer (spec 46) -/

/-- Spec 46 R131 to R137. -/
def Obligations.BranchesGoWhereTheirConditionSays : Prop :=
  BranchRule .beq 0x00000063#32 (fun a b => a = b) ∧
  BranchRule .bne 0x00001063#32 (fun a b => a ≠ b) ∧
  BranchRule .blt 0x00004063#32 (fun a b => sval a < sval b) ∧
  BranchRule .bge 0x00005063#32 (fun a b => sval b ≤ sval a) ∧
  BranchRule .bltu 0x00006063#32 (fun a b => uval a < uval b) ∧
  BranchRule .bgeu 0x00007063#32 (fun a b => uval b ≤ uval a)

/-- Spec 46 R138, R139: the link is pc + 4, the target is computed from the registers before the write. -/
def Obligations.JumpsLinkAndGo : Prop :=
  RowDecodes 0x0000007F#32 0x0000006F#32 (fun w => .jal (w.extractLsb' 7 5)
    (w.extractLsb' 31 1 ++ w.extractLsb' 12 8 ++ w.extractLsb' 20 1 ++ w.extractLsb' 21 10 ++ 0#1)) ∧
  RowDecodes 0x0000707F#32 0x00000067#32
    (fun w => .jalr (w.extractLsb' 7 5) (w.extractLsb' 15 5) (w.extractLsb' 20 12)) ∧
  (∀ (rd : Reg) (imm : BitVec 21) (s : State), ∃ t, exec (.jal rd imm) s = .next t ∧
    RegisterWritten s t rd (wrap32 (uval s.pc + 4)) (wrap32 (uval s.pc + signed 21 imm.toNat))) ∧
  (∀ (rd rs1 : Reg) (imm : BitVec 12) (s : State), ∃ t, exec (.jalr rd rs1 imm) s = .next t ∧
    RegisterWritten s t rd (wrap32 (uval s.pc + 4)) (wrap32 (uval (s.reg rs1) + signed 12 imm.toNat) &&& 0xFFFFFFFE#32))

/-- A step from an even pc leads to an even pc: every offset a word can encode is even and JALR clears bit 0.
Derived from spec 30 R55 and R57, 46 R128 and R139. -/
def Obligations.EvenPcStaysEven : Prop :=
  ∀ s t : State, step s = .next t → s.pc.toNat % 2 = 0 → t.pc.toNat % 2 = 0

/-! ### System instructions (spec 47) -/

/-- Spec 47 R140 to R142: ECALL and EBREAK only advance the pc, in every state, with status OK, and every other SYSTEM
word is unknown. -/
def Obligations.SystemWordsAreNoOpsOrUnknown : Prop :=
  (decodeWord 0x00000073#32 = .ok .ecall ∧ ∀ s : State, MovesPc .ecall s (wrap32 (uval s.pc + 4)) ∧
    (SampleLetsThrough s → AtPc s 0x00000073#32 → step s = exec .ecall s ∧ stepStatus s = .ok)) ∧
  (decodeWord 0x00100073#32 = .ok .ebreak ∧ ∀ s : State, MovesPc .ebreak s (wrap32 (uval s.pc + 4)) ∧
    (SampleLetsThrough s → AtPc s 0x00100073#32 → step s = exec .ebreak s ∧ stepStatus s = .ok)) ∧
  ∀ w : Word, w.extractLsb' 0 7 = 0x73#7 → w ≠ 0x00000073#32 → w ≠ 0x00100073#32 →
    (∃ r, decodeWord w = .error r) ∧
    ∀ s : State, SampleLetsThrough s → AtPc s w → stepStatus s = .unknown w s.pc ∧
      ∃ t, step s = .next t ∧ t.pc = wrap32 (uval s.pc + 4) ∧ SameRegs s t ∧ SameMemory s t ∧ SameRest s t

/-! ### Invariants and whole-machine rules -/

/-- The invariant holds at reset. Derived from spec 10 R30 and 60 R153. -/
def Obligations.InvariantHoldsAtReset : Prop := State.reset.Inv

/-- Every step keeps the invariant: memory canonical and inside [0, MEM_SIZE), the interrupt table keyed by unique ids
with the standard ones, regs[0] = 0 in the saved context, legal parameters. Derived from spec 20 R42, 10 R25, 60 R153,
48 R144. -/
def Obligations.EveryStepKeepsTheInvariant : Prop :=
  ∀ s t : State, s.Inv → step s = .next t → t.Inv

/-- Every sequence of port transactions, steps among them, keeps the invariant. Derived from spec 00 R7 and R8,
20 R42, 10 R25, 60 R153, 48 R144; that a refused transaction leaves the state unchanged is the model's choice (log 19). -/
def Obligations.EveryTransactionKeepsTheInvariant : Prop :=
  ∀ (ts : List Txn) (s : State), s.Inv → (transactAll ts s).Inv

/-- A step writes at most one general register, and leaves the saved context, the interrupt table, the enable bit and
the parameters as they were. Derived from spec 10 R24, 40 R82, 60 R156. -/
def Obligations.StepTouchesOneRegisterAndNoControlState : Prop :=
  ∀ s t : State, step s = .next t → SameRest s t ∧ ∃ rd, ∀ r, r ≠ rd → t.reg r = s.reg r

/-- A byte of memory that a step changes is one of the bytes of the decoded store, which are inside memory.
Derived from spec 20 R41 and 40 R82. -/
def Obligations.OnlyAStoresBytesChange : Prop :=
  ∀ (s t : State) (a : Nat), step s = .next t → t.mem.read a ≠ s.mem.read a →
    ∃ w i ea n, AtPc s w ∧ decodeWord w = .ok i ∧ isStore i = true ∧ dataAccess s i = some (ea, n) ∧
      ea.toNat ≤ a ∧ a < ea.toNat + n ∧ ea.toNat + n ≤ s.params.memSize

/-- Two states with the same registers, pc, memory and parameters take the same step, whatever their saved contexts,
interrupt tables and enable bits: under IRQ_ACTION = ignore a program cannot observe these. Derived from spec 10 R24 and
40 R76. -/
def Obligations.ProgramsCannotObserveControlState : Prop :=
  ∀ s1 s2 : State, s1.params.irqAction = .ignore → s2.params = s1.params → s2.x = s1.x → s2.pc = s1.pc →
    s2.mem = s1.mem →
    match step s1, step s2 with
    | .next t1, .next t2 => t2.x = t1.x ∧ t2.pc = t1.pc ∧ t2.mem = t1.mem
    | .fault f1, .fault f2 => f2 = f1
    | _, _ => False

/-- No transaction changes the parameters. Derived from spec 00 R9; that the parameters stand in the state is the model's
choice (log 1), and so is the unchanged state after a refused transaction (log 19). -/
def Obligations.NoTransactionChangesTheParameters : Prop :=
  ∀ (ts : List Txn) (s : State), (transactAll ts s).params = s.params

/-! ### Register-file ports and the context unit (spec 10, 48) -/

/-- Spec 10 R16: x0 reads 0 in every state, and instruction writes, the port and a restore leave it so. -/
def Obligations.RegisterZeroIsHardwired : Prop :=
  (∀ s : State, s.reg 0#5 = 0#32) ∧ (∀ (s : State) (v : Word), s.setReg 0#5 v = s) ∧
  (∀ (s : State) (v : Int), portWrite 0 v s = .ok () s) ∧
  (∀ (ts : List Txn) (s : State), portRead 0 (transactAll ts s) = .ok 0#32 (transactAll ts s))

/-- Spec 10 R18, R19: the register ports' index check, reads and masked writes. -/
def Obligations.RegisterPortsCheckTheIndexAndMask : Prop :=
  ∀ (n v : Int) (s : State),
    (n < 0 ∨ 31 < n → portRead n s = .error (.invalidRegister n) ∧ portWrite n v s = .error (.invalidRegister n)) ∧
    (n = 0 → portRead n s = .ok 0#32 s ∧ portWrite n v s = .ok () s) ∧
    (1 ≤ n ∧ n ≤ 31 → portRead n s = .ok (s.reg (BitVec.ofNat 5 n.toNat)) s ∧
      ∃ t, portWrite n v s = .ok () t ∧ portRead n t = .ok (wrap32 v) t ∧
        RegisterWritten s t (BitVec.ofNat 5 n.toNat) (wrap32 v) s.pc)

/-- Spec 10 R23: set_pc never raises and stores m32(v); get_pc reads it. -/
def Obligations.PcPortsMask : Prop :=
  ∀ (v : Int) (s : State), portGetPc s = .ok s.pc s ∧
    ∃ t, portSetPc v s = .ok () t ∧ portGetPc t = .ok (wrap32 v) t ∧ SameRegs s t ∧ SameMemory s t ∧ SameRest s t

/-- Spec 48 R144: the snapshot holds every register and the pc, and only the slot changes. -/
def Obligations.SaveContextTakesTheLiveRegisters : Prop :=
  ∀ s : State, ∃ c t, portSaveContext s = .ok c t ∧ (∀ r : Reg, c.regs[r.toNat]'r.isLt = s.reg r) ∧ c.regs[0] = 0#32 ∧
    c.pc = s.pc ∧ t.saved = some c ∧ SameRegs s t ∧ t.pc = s.pc ∧ SameMemory s t ∧ t.irq = s.irq ∧ t.irqEn = s.irqEn ∧
    t.params = s.params

/-- Spec 48 R145: a restore with and without an argument, its masks, and NoSavedContext. -/
def Obligations.RestoreContextMasksOrRaises : Prop :=
  (∀ (c : RawSnapshot) (s : State), ∃ t, portRestoreContext (some c) s = .ok () t ∧
    (∀ r : Reg, t.reg r = if r = 0#5 then 0#32 else wrap32 (c.regs[r.toNat]'r.isLt)) ∧ t.pc = wrap32 c.pc ∧
    SameMemory s t ∧ SameRest s t) ∧
  (∀ s : State, s.saved = none → portRestoreContext none s = .error .noSavedContext) ∧
  (∀ (c : Snapshot) (s : State), s.saved = some c → ∃ t, portRestoreContext none s = .ok () t ∧
    (∀ r : Reg, t.reg r = if r = 0#5 then 0#32 else c.regs[r.toNat]'r.isLt) ∧ t.pc = c.pc ∧
    SameMemory s t ∧ SameRest s t)

/-- Spec 48 R146: the first run of a task. The other registers read 0 under REG_RESET_POLICY = zero. -/
def Obligations.InitContextStartsATask : Prop :=
  ∀ (entry sp : Int) (s : State), ∃ t, portInitContext entry sp s = .ok () t ∧
    t.reg 2#5 = wrap32 sp ∧ (s.params.regReset = .zero → ∀ r, r ≠ 2#5 → t.reg r = 0#32) ∧ t.pc = wrap32 entry ∧
    t.saved = none ∧ portRestoreContext none t = .error .noSavedContext ∧ SameMemory s t ∧ t.irq = s.irq ∧
    t.irqEn = s.irqEn ∧ t.params = s.params

/-- A context switch saves the current task, if there is one, and then restores the next task's context, or starts its
first run, or, with no next task, leaves the live registers as they are. Derived from spec 48 R147, which marks the sentence
on switching to no task as its own inference ("derived: from the source's sequence"). -/
def Obligations.ContextSwitchSavesThenRestoresOrStarts : Prop :=
  ∀ (current : Bool) (s : State),
    (SameRegs s (contextSwitch current none s) ∧ (contextSwitch current none s).pc = s.pc ∧
      (contextSwitch current none s).saved = if current then some s.snapshot else s.saved) ∧
    (∀ c : RawSnapshot,
      (∀ r : Reg, (contextSwitch current (some (.inl c)) s).reg r =
        if r = 0#5 then 0#32 else wrap32 (c.regs[r.toNat]'r.isLt)) ∧
      (contextSwitch current (some (.inl c)) s).pc = wrap32 c.pc ∧
      (contextSwitch current (some (.inl c)) s).saved = if current then some s.snapshot else s.saved) ∧
    (∀ entry sp : Int,
      (contextSwitch current (some (.inr (entry, sp))) s).pc = wrap32 entry ∧
      (contextSwitch current (some (.inr (entry, sp))) s).reg 2#5 = wrap32 sp ∧
      (contextSwitch current (some (.inr (entry, sp))) s).saved = none ∧
      (s.params.regReset = .zero → ∀ r, r ≠ 2#5 → (contextSwitch current (some (.inr (entry, sp))) s).reg r = 0#32)) ∧
    ∀ next, SameMemory s (contextSwitch current next s) ∧ (contextSwitch current next s).irq = s.irq

/-- Derived from spec 48 R148: after any transactions whatever, restoring the snapshot taken first gives back every register and the
pc; memory is not restored. -/
def Obligations.RestoreAfterSaveGivesTheContextBack : Prop :=
  ∀ (s t0 : State) (c : Snapshot) (ts : List Txn), portSaveContext s = .ok c t0 →
    ∃ t, portRestoreContext (some c.toRaw) (transactAll ts t0) = .ok () t ∧ SameRegs s t ∧ t.pc = s.pc ∧
      SameMemory (transactAll ts t0) t

/-- Only save_context writes the saved-context slot, and only the resets of the register file empty it. Derived from
spec 10 R24 and 48 R146; a refused transaction changing nothing is the model's choice (log 19). -/
def Obligations.SavedContextChangesOnlyBySaveOrReset : Prop :=
  ∀ (t : Txn) (s : State), ((transact t s).after s).saved ≠ s.saved →
    t = .saveContext ∨ ((transact t s).after s).saved = none ∧
      (t = .resetRegFile ∨ t = .reset ∨ ∃ entry sp, t = .initContext entry sp)

/-! ### Memory ports (spec 20) -/

/-- Spec 20 R36. -/
def Obligations.MemoryReadPortsSumLittleEndian : Prop :=
  ReadPortRule portReadByte 1 ∧ ReadPortRule portReadHalf 2 ∧ ReadPortRule portReadWord 4

/-- Spec 20 R37. -/
def Obligations.MemoryWritePortsTruncateAndRoundTrip : Prop :=
  WritePortRule portWriteByte portReadByte 1 ∧ WritePortRule portWriteHalf portReadHalf 2 ∧
  WritePortRule portWriteWord portReadWord 4

/-- Spec 20 R38, R39: blocks of every length, 0 included, with the whole span checked first. -/
def Obligations.BlockPortsAreAllOrNothing : Prop :=
  (∀ (a len : Int) (s : State),
    (0 ≤ len ∧ 0 ≤ a ∧ a + len - 1 < s.params.memSize →
      ∃ bs, portReadBlock a len s = .ok bs s ∧ (bs.length : Int) = len ∧
        ∀ (k : Nat) (h : k < bs.length), bs[k] = s.mem.read (a.toNat + k)) ∧
    (¬ (0 ≤ len ∧ 0 ≤ a ∧ a + len - 1 < s.params.memSize) → portReadBlock a len s = .error (.outOfBounds a len))) ∧
  (∀ (a : Int) (bs : List Byte) (s : State),
    (0 ≤ a ∧ a + bs.length - 1 < s.params.memSize →
      ∃ t, portWriteBlock a bs s = .ok () t ∧ t.pc = s.pc ∧ SameRegs s t ∧ SameRest s t ∧
        (∀ (k : Nat) (h : k < bs.length), t.mem.read (a.toNat + k) = bs[k]) ∧
        (∀ c : Nat, (c : Int) < a ∨ a + bs.length ≤ c → t.mem.read c = s.mem.read c)) ∧
    (¬ (0 ≤ a ∧ a + bs.length - 1 < s.params.memSize) →
      portWriteBlock a bs s = .error (.outOfBounds a bs.length)))

/-- Spec 20 R44: a program is loaded whole or not at all, each word little-endian at its 4-byte stride, with no register
and no pc changed. -/
def Obligations.LoadProgramPlacesEveryWord : Prop :=
  ∀ (ws : List Word) (base : Int) (s : State),
    (0 ≤ base ∧ base + 4 * ws.length - 1 < s.params.memSize →
      ∃ t, portLoadProgram ws base s = .ok () t ∧ t.pc = s.pc ∧ SameRegs s t ∧ SameRest s t ∧
        (∀ (j : Nat) (h : j < ws.length), leSum t.mem (base.toNat + 4 * j) 4 = ws[j].toNat) ∧
        (∀ c : Nat, (c : Int) < base ∨ base + 4 * ws.length ≤ c → t.mem.read c = s.mem.read c)) ∧
    (¬ (0 ≤ base ∧ base + 4 * ws.length - 1 < s.params.memSize) →
      portLoadProgram ws base s = .error (.outOfBounds base (4 * ws.length)))

/-! ### The interrupt controller (spec 60) -/

/-- Spec 60 R158, with R157 and the masking of 10 R26: what the queries answer, for a table with unique ids. -/
def Obligations.QueriesReportTheMostUrgentPending : Prop :=
  ∀ s : State, s.irq.wf = true →
    (s.hasPending = true ↔ s.irqEn = true ∧ ∃ id e, s.irq.get? id = some e ∧ e.pending = true) ∧
    (s.highestPending = none ↔ s.irqEn = false ∨ ∀ id e, s.irq.get? id = some e → e.pending = false) ∧
    (∀ id e, s.highestPending = some (id, e) → s.irq.get? id = some e ∧ e.pending = true ∧
      ∀ id' e', s.irq.get? id' = some e' → e'.pending = true →
        e.priority < e'.priority ∨ (e.priority = e'.priority ∧ id ≤ id')) ∧
    portHasPending s = .ok s.hasPending s ∧ portHighest s = .ok s.highestPending s

/-- Spec 60 R154: registering an id gives it a fresh entry, not pending, whether it is registered already or not, and
changes no other entry; with no bound on the controller (the default) no call is refused. -/
def Obligations.RegisteringGivesAFreshEntry : Prop :=
  ∀ (id priority : Nat) (handler : Int) (description : String) (s : State),
    s.params.irqIdBits = none → s.params.irqPrioBits = none → s.params.irqCapacity = none →
      ∃ t, portRegister id priority handler description s = .ok () t ∧
        (∀ j, t.irq.get? j = if j = id then some ⟨priority, wrap32 handler, description, false⟩ else s.irq.get? j) ∧
        t.pc = s.pc ∧ SameRegs s t ∧ SameMemory s t ∧ t.irqEn = s.irqEn ∧ t.saved = s.saved ∧ t.params = s.params

/-- A bounded controller (spec 60 R154, 93 I10; what counts as full is the model's choice, log 9): it registers an id that
fits, as an unbounded one does, and refuses a wider id or priority, and a new id when its table is full. -/
def Obligations.BoundedControllerRefusesWhatDoesNotFit : Prop :=
  ∀ (id priority : Nat) (handler : Int) (description : String) (s : State),
    ((∀ k, s.params.irqIdBits = some k → id < 2 ^ k) → (∀ k, s.params.irqPrioBits = some k → priority < 2 ^ k) →
      (∀ k, s.params.irqCapacity = some k → s.irq.get? id = none → s.irq.length < k) →
      ∃ t, portRegister id priority handler description s = .ok () t ∧
        ∀ j, t.irq.get? j = if j = id then some ⟨priority, wrap32 handler, description, false⟩ else s.irq.get? j) ∧
    (((∃ k, s.params.irqIdBits = some k ∧ 2 ^ k ≤ id) ∨ (∃ k, s.params.irqPrioBits = some k ∧ 2 ^ k ≤ priority) ∨
        (∃ k, s.params.irqCapacity = some k ∧ s.irq.get? id = none ∧ k ≤ s.irq.length)) →
      ∃ r, portRegister id priority handler description s = .refused r)

/-- Spec 60 R155, R156: a trigger or a clear sets or clears the flag of a registered id, whatever the enable bit, changes
nothing else, and raises UnknownInterrupt for any other id. -/
def Obligations.TriggerAndClearSetOneFlag : Prop :=
  ∀ (id : Nat) (b : Bool) (s : State),
    (s.irq.get? id = none →
      (if b then portTrigger id s else portClear id s) = .error (.unknownInterrupt id)) ∧
    (∀ e, s.irq.get? id = some e →
      ∃ t, (if b then portTrigger id s else portClear id s) = .ok () t ∧
        (∀ j, t.irq.get? j = if j = id then some { e with pending := b } else s.irq.get? j) ∧
        t.pc = s.pc ∧ SameRegs s t ∧ SameMemory s t ∧ t.irqEn = s.irqEn ∧ t.saved = s.saved ∧ t.params = s.params)

/-- A pending flag is set by trigger_interrupt of its id only, and cleared by clear_interrupt of its id, by registering it
anew and by facade reset only: no step, no query and no disable moves one. Derived from spec 60 R155, R156, R154, R161 and
10 R26; a refused transaction changing nothing is the model's choice (log 19). -/
def Obligations.PendingFlagsMoveByCommandOnly : Prop :=
  ∀ (t : Txn) (s : State) (id : Nat) (e e' : IrqEntry), s.irq.get? id = some e →
    ((transact t s).after s).irq.get? id = some e' →
    (e.pending = false → e'.pending = true → t = .triggerInterrupt id) ∧
    (e.pending = true → e'.pending = false →
      t = .clearInterrupt id ∨ t = .reset ∨ ∃ p h d, t = .registerInterrupt id p h d)

/-- Spec 60 R159: enable and disable write the enable bit and nothing else; disabled, the queries report nothing, and
enabling again reports the flags as they were. -/
def Obligations.EnableAndDisableOnlyMask : Prop :=
  ∀ s : State,
    portEnable s = .ok () { s with irqEn := true } ∧
    ∃ t, portDisable s = .ok () t ∧ t.irqEn = false ∧ t.irq = s.irq ∧ t.pc = s.pc ∧ SameRegs s t ∧ SameMemory s t ∧
      t.saved = s.saved ∧ t.hasPending = false ∧ t.highestPending = none ∧
      { t with irqEn := true }.highestPending = { s with irqEn := true }.highestPending ∧ State.reset.irqEn = true

/-! ### Reset (spec 10, 60, 70) -/

/-- Spec 70 R168, 10 R30 and 60 R161: what facade reset leaves, from any state (the registers under
REG_RESET_POLICY = zero); and State.reset is that state for the default
parameters, whatever the model's own counter of free values. The handlers are the OPEN parameters,
at any value. -/
def Obligations.FacadeResetLeavesTheResetState : Prop :=
  (∀ s : State, ∃ t, portReset s = .ok () t ∧
    (s.params.regReset = .zero → (∀ r, t.reg r = 0#32) ∧ t.pc = 0#32) ∧ t.reg 0#5 = 0#32 ∧ t.saved = none ∧
    (∀ a, t.mem.read a = 0#8) ∧ t.irqEn = true ∧
    t.irq.get? 0 = some ⟨1, s.params.handlerTimer, "timer", false⟩ ∧
    t.irq.get? 1 = some ⟨2, s.params.handlerExternal, "external", false⟩ ∧
    t.irq.get? 2 = some ⟨3, s.params.handlerSoftware, "software", false⟩ ∧
    (∀ id, 3 ≤ id → t.irq.get? id = none) ∧ t.params = s.params) ∧
  (∀ s : State, s.params = Params.default → portReset s = .ok () { State.reset with freeSeq := s.freeSeq })

/-- Derived from spec 70 R169: a step straight after reset, with any legal parameters under REG_RESET_POLICY = zero, finds the
sentinel at address 0, halts and changes nothing. -/
def Obligations.StepAfterResetHalts : Prop :=
  ∀ s t : State, s.params.regReset = .zero → s.params.legal = true → portReset s = .ok () t →
    t.pc = 0#32 ∧ t.irqEn = true ∧ t.highestPending = none ∧ step t = .next t ∧ stepStatus t = .halt 0#32

/-- Spec 10 R31: get_state returns the registers and the pc and changes nothing. -/
def Obligations.GetStateReturnsRegistersAndPc : Prop :=
  ∀ s : State, ∃ c, portGetState s = .ok c s ∧ (∀ r : Reg, c.regs[r.toNat]'r.isLt = s.reg r) ∧ c.pc = s.pc
end

