-- ==== Sys2Proof/Laws/Decode.lean ====
section
/-! SUPPORT. The fields of an encoded word, the word of its fields, and the masks of the opcode table as fields. -/

namespace Sys2Proof

/-! ### The fields of the R format (spec 30 R52) -/

@[simp] theorem funct7Of_encodeR (f7 : BitVec 7) (rs2 rs1 : BitVec 5) (f3 : BitVec 3) (rd : Reg) (op : BitVec 7) :
    funct7Of (encodeR f7 rs2 rs1 f3 rd op) = f7 := by
  apply BitVec.eq_of_getLsbD_eq
  intro i hi
  simp only [funct7Of, encodeR, BitVec.getLsbD_append, BitVec.getLsbD_extractLsb', hi, decide_true, Bool.true_and]
  interval_cases i <;> rfl

@[simp] theorem rs2Of_encodeR (f7 : BitVec 7) (rs2 rs1 : BitVec 5) (f3 : BitVec 3) (rd : Reg) (op : BitVec 7) :
    rs2Of (encodeR f7 rs2 rs1 f3 rd op) = rs2 := by
  apply BitVec.eq_of_getLsbD_eq
  intro i hi
  simp only [rs2Of, encodeR, BitVec.getLsbD_append, BitVec.getLsbD_extractLsb', hi, decide_true, Bool.true_and]
  interval_cases i <;> rfl

@[simp] theorem shamtOf_encodeR (f7 : BitVec 7) (rs2 rs1 : BitVec 5) (f3 : BitVec 3) (rd : Reg) (op : BitVec 7) :
    shamtOf (encodeR f7 rs2 rs1 f3 rd op) = rs2 := by
  apply BitVec.eq_of_getLsbD_eq
  intro i hi
  simp only [shamtOf, encodeR, BitVec.getLsbD_append, BitVec.getLsbD_extractLsb', hi, decide_true, Bool.true_and]
  interval_cases i <;> rfl

@[simp] theorem rs1Of_encodeR (f7 : BitVec 7) (rs2 rs1 : BitVec 5) (f3 : BitVec 3) (rd : Reg) (op : BitVec 7) :
    rs1Of (encodeR f7 rs2 rs1 f3 rd op) = rs1 := by
  apply BitVec.eq_of_getLsbD_eq
  intro i hi
  simp only [rs1Of, encodeR, BitVec.getLsbD_append, BitVec.getLsbD_extractLsb', hi, decide_true, Bool.true_and]
  interval_cases i <;> rfl

@[simp] theorem funct3Of_encodeR (f7 : BitVec 7) (rs2 rs1 : BitVec 5) (f3 : BitVec 3) (rd : Reg) (op : BitVec 7) :
    funct3Of (encodeR f7 rs2 rs1 f3 rd op) = f3 := by
  apply BitVec.eq_of_getLsbD_eq
  intro i hi
  simp only [funct3Of, encodeR, BitVec.getLsbD_append, BitVec.getLsbD_extractLsb', hi, decide_true, Bool.true_and]
  interval_cases i <;> rfl

@[simp] theorem rdOf_encodeR (f7 : BitVec 7) (rs2 rs1 : BitVec 5) (f3 : BitVec 3) (rd : Reg) (op : BitVec 7) :
    rdOf (encodeR f7 rs2 rs1 f3 rd op) = rd := by
  apply BitVec.eq_of_getLsbD_eq
  intro i hi
  simp only [rdOf, encodeR, BitVec.getLsbD_append, BitVec.getLsbD_extractLsb', hi, decide_true, Bool.true_and]
  interval_cases i <;> rfl

@[simp] theorem opcodeOf_encodeR (f7 : BitVec 7) (rs2 rs1 : BitVec 5) (f3 : BitVec 3) (rd : Reg) (op : BitVec 7) :
    opcodeOf (encodeR f7 rs2 rs1 f3 rd op) = op := by
  apply BitVec.eq_of_getLsbD_eq
  intro i hi
  simp only [opcodeOf, encodeR, BitVec.getLsbD_append, BitVec.getLsbD_extractLsb', hi, decide_true, Bool.true_and]
  interval_cases i <;> rfl

/-! ### The fields of the I format (spec 30 R52) -/

@[simp] theorem immIOf_encodeI (imm : BitVec 12) (rs1 : Reg) (f3 : BitVec 3) (rd : Reg) (op : BitVec 7) :
    immIOf (encodeI imm rs1 f3 rd op) = imm := by
  apply BitVec.eq_of_getLsbD_eq
  intro i hi
  simp only [immIOf, encodeI, BitVec.getLsbD_append, BitVec.getLsbD_extractLsb', hi, decide_true, Bool.true_and]
  interval_cases i <;> rfl

@[simp] theorem rs1Of_encodeI (imm : BitVec 12) (rs1 : Reg) (f3 : BitVec 3) (rd : Reg) (op : BitVec 7) :
    rs1Of (encodeI imm rs1 f3 rd op) = rs1 := by
  apply BitVec.eq_of_getLsbD_eq
  intro i hi
  simp only [rs1Of, encodeI, BitVec.getLsbD_append, BitVec.getLsbD_extractLsb', hi, decide_true, Bool.true_and]
  interval_cases i <;> rfl

@[simp] theorem funct3Of_encodeI (imm : BitVec 12) (rs1 : Reg) (f3 : BitVec 3) (rd : Reg) (op : BitVec 7) :
    funct3Of (encodeI imm rs1 f3 rd op) = f3 := by
  apply BitVec.eq_of_getLsbD_eq
  intro i hi
  simp only [funct3Of, encodeI, BitVec.getLsbD_append, BitVec.getLsbD_extractLsb', hi, decide_true, Bool.true_and]
  interval_cases i <;> rfl

@[simp] theorem rdOf_encodeI (imm : BitVec 12) (rs1 : Reg) (f3 : BitVec 3) (rd : Reg) (op : BitVec 7) :
    rdOf (encodeI imm rs1 f3 rd op) = rd := by
  apply BitVec.eq_of_getLsbD_eq
  intro i hi
  simp only [rdOf, encodeI, BitVec.getLsbD_append, BitVec.getLsbD_extractLsb', hi, decide_true, Bool.true_and]
  interval_cases i <;> rfl

@[simp] theorem opcodeOf_encodeI (imm : BitVec 12) (rs1 : Reg) (f3 : BitVec 3) (rd : Reg) (op : BitVec 7) :
    opcodeOf (encodeI imm rs1 f3 rd op) = op := by
  apply BitVec.eq_of_getLsbD_eq
  intro i hi
  simp only [opcodeOf, encodeI, BitVec.getLsbD_append, BitVec.getLsbD_extractLsb', hi, decide_true, Bool.true_and]
  interval_cases i <;> rfl

/-! ### The fields of the S format (spec 30 R52) -/

@[simp] theorem immSOf_encodeS (imm : BitVec 12) (rs2 rs1 : Reg) (f3 : BitVec 3) (op : BitVec 7) :
    immSOf (encodeS imm rs2 rs1 f3 op) = imm := by
  apply BitVec.eq_of_getLsbD_eq
  intro i hi
  simp only [immSOf, encodeS, BitVec.getLsbD_append, BitVec.getLsbD_extractLsb']
  interval_cases i <;> rfl

@[simp] theorem rs2Of_encodeS (imm : BitVec 12) (rs2 rs1 : Reg) (f3 : BitVec 3) (op : BitVec 7) :
    rs2Of (encodeS imm rs2 rs1 f3 op) = rs2 := by
  apply BitVec.eq_of_getLsbD_eq
  intro i hi
  simp only [rs2Of, encodeS, BitVec.getLsbD_append, BitVec.getLsbD_extractLsb', hi, decide_true, Bool.true_and]
  interval_cases i <;> rfl

@[simp] theorem rs1Of_encodeS (imm : BitVec 12) (rs2 rs1 : Reg) (f3 : BitVec 3) (op : BitVec 7) :
    rs1Of (encodeS imm rs2 rs1 f3 op) = rs1 := by
  apply BitVec.eq_of_getLsbD_eq
  intro i hi
  simp only [rs1Of, encodeS, BitVec.getLsbD_append, BitVec.getLsbD_extractLsb', hi, decide_true, Bool.true_and]
  interval_cases i <;> rfl

@[simp] theorem funct3Of_encodeS (imm : BitVec 12) (rs2 rs1 : Reg) (f3 : BitVec 3) (op : BitVec 7) :
    funct3Of (encodeS imm rs2 rs1 f3 op) = f3 := by
  apply BitVec.eq_of_getLsbD_eq
  intro i hi
  simp only [funct3Of, encodeS, BitVec.getLsbD_append, BitVec.getLsbD_extractLsb', hi, decide_true, Bool.true_and]
  interval_cases i <;> rfl

@[simp] theorem opcodeOf_encodeS (imm : BitVec 12) (rs2 rs1 : Reg) (f3 : BitVec 3) (op : BitVec 7) :
    opcodeOf (encodeS imm rs2 rs1 f3 op) = op := by
  apply BitVec.eq_of_getLsbD_eq
  intro i hi
  simp only [opcodeOf, encodeS, BitVec.getLsbD_append, BitVec.getLsbD_extractLsb', hi, decide_true, Bool.true_and]
  interval_cases i <;> rfl

/-! ### The fields of the B format (spec 30 R52) -/

@[simp] theorem rs2Of_encodeB (imm : BitVec 13) (rs2 rs1 : Reg) (f3 : BitVec 3) (op : BitVec 7) :
    rs2Of (encodeB imm rs2 rs1 f3 op) = rs2 := by
  apply BitVec.eq_of_getLsbD_eq
  intro i hi
  simp only [rs2Of, encodeB, BitVec.getLsbD_append, BitVec.getLsbD_extractLsb', hi, decide_true, Bool.true_and]
  interval_cases i <;> rfl

@[simp] theorem rs1Of_encodeB (imm : BitVec 13) (rs2 rs1 : Reg) (f3 : BitVec 3) (op : BitVec 7) :
    rs1Of (encodeB imm rs2 rs1 f3 op) = rs1 := by
  apply BitVec.eq_of_getLsbD_eq
  intro i hi
  simp only [rs1Of, encodeB, BitVec.getLsbD_append, BitVec.getLsbD_extractLsb', hi, decide_true, Bool.true_and]
  interval_cases i <;> rfl

@[simp] theorem funct3Of_encodeB (imm : BitVec 13) (rs2 rs1 : Reg) (f3 : BitVec 3) (op : BitVec 7) :
    funct3Of (encodeB imm rs2 rs1 f3 op) = f3 := by
  apply BitVec.eq_of_getLsbD_eq
  intro i hi
  simp only [funct3Of, encodeB, BitVec.getLsbD_append, BitVec.getLsbD_extractLsb', hi, decide_true, Bool.true_and]
  interval_cases i <;> rfl

@[simp] theorem opcodeOf_encodeB (imm : BitVec 13) (rs2 rs1 : Reg) (f3 : BitVec 3) (op : BitVec 7) :
    opcodeOf (encodeB imm rs2 rs1 f3 op) = op := by
  apply BitVec.eq_of_getLsbD_eq
  intro i hi
  simp only [opcodeOf, encodeB, BitVec.getLsbD_append, BitVec.getLsbD_extractLsb', hi, decide_true, Bool.true_and]
  interval_cases i <;> rfl

/-! ### The fields of the U format (spec 30 R52) -/

@[simp] theorem rdOf_encodeU (imm : Word) (rd : Reg) (op : BitVec 7) :
    rdOf (encodeU imm rd op) = rd := by
  apply BitVec.eq_of_getLsbD_eq
  intro i hi
  simp only [rdOf, encodeU, BitVec.getLsbD_append, BitVec.getLsbD_extractLsb', hi, decide_true, Bool.true_and]
  interval_cases i <;> rfl

@[simp] theorem opcodeOf_encodeU (imm : Word) (rd : Reg) (op : BitVec 7) :
    opcodeOf (encodeU imm rd op) = op := by
  apply BitVec.eq_of_getLsbD_eq
  intro i hi
  simp only [opcodeOf, encodeU, BitVec.getLsbD_append, BitVec.getLsbD_extractLsb', hi, decide_true, Bool.true_and]
  interval_cases i <;> rfl

/-! ### The fields of the J format (spec 30 R52) -/

@[simp] theorem rdOf_encodeJ (imm : BitVec 21) (rd : Reg) (op : BitVec 7) :
    rdOf (encodeJ imm rd op) = rd := by
  apply BitVec.eq_of_getLsbD_eq
  intro i hi
  simp only [rdOf, encodeJ, BitVec.getLsbD_append, BitVec.getLsbD_extractLsb', hi, decide_true, Bool.true_and]
  interval_cases i <;> rfl

@[simp] theorem opcodeOf_encodeJ (imm : BitVec 21) (rd : Reg) (op : BitVec 7) :
    opcodeOf (encodeJ imm rd op) = op := by
  apply BitVec.eq_of_getLsbD_eq
  intro i hi
  simp only [opcodeOf, encodeJ, BitVec.getLsbD_append, BitVec.getLsbD_extractLsb', hi, decide_true, Bool.true_and]
  interval_cases i <;> rfl

/-! ### Immediates with implicit zero bits -/

/-- A well-formed B-immediate survives its encoding (spec 30 R55). -/
theorem immBOf_encodeB (imm : BitVec 13) (rs2 rs1 : Reg) (f3 : BitVec 3) (op : BitVec 7)
    (h : immBWellFormed imm = true) : immBOf (encodeB imm rs2 rs1 f3 op) = imm := by
  apply BitVec.eq_of_getLsbD_eq
  intro i hi
  simp only [immBWellFormed, Bool.not_eq_true'] at h
  simp only [immBOf, encodeB, BitVec.getLsbD_append, BitVec.getLsbD_extractLsb']
  interval_cases i
  · rw [h]; rfl
  all_goals rfl

/-- A well-formed J-immediate survives its encoding (spec 30 R57). -/
theorem immJOf_encodeJ (imm : BitVec 21) (rd : Reg) (op : BitVec 7) (h : immJWellFormed imm = true) :
    immJOf (encodeJ imm rd op) = imm := by
  apply BitVec.eq_of_getLsbD_eq
  intro i hi
  simp only [immJWellFormed, Bool.not_eq_true'] at h
  simp only [immJOf, encodeJ, BitVec.getLsbD_append, BitVec.getLsbD_extractLsb']
  interval_cases i
  · rw [h]; rfl
  all_goals rfl

/-- A well-formed U-immediate survives its encoding (spec 30 R56). -/
theorem immUOf_encodeU (imm : Word) (rd : Reg) (op : BitVec 7) (h : immUWellFormed imm = true) :
    immUOf (encodeU imm rd op) = imm := by
  simp only [immUWellFormed, beq_iff_eq] at h
  have h' : ∀ i, i < 12 → imm.getLsbD i = false := fun i hi => by
    have := congrArg (fun v => v.getLsbD i) h
    simpa [hi] using this
  apply BitVec.eq_of_getLsbD_eq
  intro i hi
  simp only [immUOf, encodeU, BitVec.getLsbD_append, BitVec.getLsbD_extractLsb']
  by_cases hi' : i < 12
  · rw [h' i hi']; interval_cases i <;> rfl
  · interval_cases i <;> rfl

/-! ### A word is the encoding of its fields -/

theorem encodeR_fields (w : Word) :
    encodeR (funct7Of w) (rs2Of w) (rs1Of w) (funct3Of w) (rdOf w) (opcodeOf w) = w := by
  apply BitVec.eq_of_getLsbD_eq
  intro i hi
  simp only [encodeR, funct3Of, funct7Of, opcodeOf, rdOf, rs1Of, rs2Of, BitVec.getLsbD_append, BitVec.getLsbD_extractLsb']
  interval_cases i <;> rfl

theorem encodeI_fields (w : Word) :
    encodeI (immIOf w) (rs1Of w) (funct3Of w) (rdOf w) (opcodeOf w) = w := by
  apply BitVec.eq_of_getLsbD_eq
  intro i hi
  simp only [encodeI, funct3Of, immIOf, opcodeOf, rdOf, rs1Of, BitVec.getLsbD_append, BitVec.getLsbD_extractLsb']
  interval_cases i <;> rfl

theorem encodeS_fields (w : Word) :
    encodeS (immSOf w) (rs2Of w) (rs1Of w) (funct3Of w) (opcodeOf w) = w := by
  apply BitVec.eq_of_getLsbD_eq
  intro i hi
  simp only [encodeS, funct3Of, immSOf, opcodeOf, rs1Of, rs2Of, BitVec.getLsbD_append, BitVec.getLsbD_extractLsb']
  interval_cases i <;> rfl

theorem encodeB_fields (w : Word) :
    encodeB (immBOf w) (rs2Of w) (rs1Of w) (funct3Of w) (opcodeOf w) = w := by
  apply BitVec.eq_of_getLsbD_eq
  intro i hi
  simp only [encodeB, funct3Of, immBOf, opcodeOf, rs1Of, rs2Of, BitVec.getLsbD_append, BitVec.getLsbD_extractLsb']
  interval_cases i <;> rfl

theorem encodeU_fields (w : Word) :
    encodeU (immUOf w) (rdOf w) (opcodeOf w) = w := by
  apply BitVec.eq_of_getLsbD_eq
  intro i hi
  simp only [encodeU, immUOf, opcodeOf, rdOf, BitVec.getLsbD_append, BitVec.getLsbD_extractLsb']
  interval_cases i <;> rfl

theorem encodeJ_fields (w : Word) :
    encodeJ (immJOf w) (rdOf w) (opcodeOf w) = w := by
  apply BitVec.eq_of_getLsbD_eq
  intro i hi
  simp only [encodeJ, immJOf, opcodeOf, rdOf, BitVec.getLsbD_append, BitVec.getLsbD_extractLsb']
  interval_cases i <;> rfl

/-! ### Decoded immediates are well formed -/

theorem immBOf_wellFormed (w : Word) : immBWellFormed (immBOf w) = true := by
  simp only [immBWellFormed, immBOf, BitVec.getLsbD_append]; rfl

theorem immJOf_wellFormed (w : Word) : immJWellFormed (immJOf w) = true := by
  simp only [immJWellFormed, immJOf, BitVec.getLsbD_append]; rfl

theorem immUOf_wellFormed (w : Word) : immUWellFormed (immUOf w) = true := by
  simp only [immUWellFormed, beq_iff_eq]
  apply BitVec.eq_of_getLsbD_eq
  intro i hi
  simp only [immUOf, BitVec.getLsbD_extractLsb', BitVec.getLsbD_append]
  interval_cases i <;> rfl

/-! ### The masks of the opcode table -/

/-- The mask of the R and I-shift rows keeps funct7, funct3 and the opcode. -/
theorem and_maskR (w : Word) :
    w &&& 0xFE00707F#32 = encodeR (funct7Of w) 0#5 0#5 (funct3Of w) 0#5 (opcodeOf w) := by
  apply BitVec.eq_of_getLsbD_eq
  intro i hi
  simp only [encodeR, funct7Of, funct3Of, opcodeOf, BitVec.getLsbD_and, BitVec.getLsbD_append, BitVec.getLsbD_extractLsb']
  interval_cases i <;> simp

/-- The mask of the I, S and B rows keeps funct3 and the opcode. -/
theorem and_maskI (w : Word) : w &&& 0x0000707F#32 = encodeR 0#7 0#5 0#5 (funct3Of w) 0#5 (opcodeOf w) := by
  apply BitVec.eq_of_getLsbD_eq
  intro i hi
  simp only [encodeR, funct3Of, opcodeOf, BitVec.getLsbD_and, BitVec.getLsbD_append, BitVec.getLsbD_extractLsb']
  interval_cases i <;> simp

/-- The mask of the U and J rows keeps the opcode. -/
theorem and_maskU (w : Word) : w &&& 0x0000007F#32 = encodeR 0#7 0#5 0#5 0#3 0#5 (opcodeOf w) := by
  apply BitVec.eq_of_getLsbD_eq
  intro i hi
  simp only [encodeR, opcodeOf, BitVec.getLsbD_and, BitVec.getLsbD_append, BitVec.getLsbD_extractLsb']
  interval_cases i <;> simp

/-- The mask of ECALL, EBREAK and HALT keeps every bit. -/
theorem and_maskAll (w : Word) : w &&& 0xFFFFFFFF#32 = w := BitVec.and_allOnes

theorem encodeR_inj {f7 f7' : BitVec 7} {rs2 rs2' rs1 rs1' : BitVec 5} {f3 f3' : BitVec 3} {rd rd' : Reg}
    {op op' : BitVec 7} (h : encodeR f7 rs2 rs1 f3 rd op = encodeR f7' rs2' rs1' f3' rd' op') :
    f7 = f7' ∧ rs2 = rs2' ∧ rs1 = rs1' ∧ f3 = f3' ∧ rd = rd' ∧ op = op' :=
  ⟨by simpa using congrArg funct7Of h, by simpa using congrArg rs2Of h, by simpa using congrArg rs1Of h,
    by simpa using congrArg funct3Of h, by simpa using congrArg rdOf h, by simpa using congrArg opcodeOf h⟩

/-- A word of an R or I-shift row, by its fields. -/
theorem maskR_iff (w : Word) (f7 : BitVec 7) (f3 : BitVec 3) (op : BitVec 7) :
    w &&& 0xFE00707F#32 = encodeR f7 0#5 0#5 f3 0#5 op ↔ funct7Of w = f7 ∧ funct3Of w = f3 ∧ opcodeOf w = op := by
  rw [and_maskR]
  constructor
  · intro h
    obtain ⟨h1, -, -, h2, -, h3⟩ := encodeR_inj h
    exact ⟨h1, h2, h3⟩
  · rintro ⟨h1, h2, h3⟩; rw [h1, h2, h3]

/-- A word of an I, S or B row, by its fields. -/
theorem maskI_iff (w : Word) (f3 : BitVec 3) (op : BitVec 7) :
    w &&& 0x0000707F#32 = encodeR 0#7 0#5 0#5 f3 0#5 op ↔ funct3Of w = f3 ∧ opcodeOf w = op := by
  rw [and_maskI]
  constructor
  · intro h
    obtain ⟨-, -, -, h2, -, h3⟩ := encodeR_inj h
    exact ⟨h2, h3⟩
  · rintro ⟨h2, h3⟩; rw [h2, h3]

/-- A word of a U or J row, by its opcode. -/
theorem maskU_iff (w : Word) (op : BitVec 7) :
    w &&& 0x0000007F#32 = encodeR 0#7 0#5 0#5 0#3 0#5 op ↔ opcodeOf w = op := by
  rw [and_maskU]
  constructor
  · intro h
    obtain ⟨-, -, -, -, -, h3⟩ := encodeR_inj h
    exact h3
  · intro h3; rw [h3]

/-- The sentinel is not a word of any class: a word whose opcode is not 0 is not 0. -/
theorem ne_zero_of_opcode {w : Word} {op : BitVec 7} (h : opcodeOf w = op) (hop : op ≠ 0#7) : w ≠ 0#32 := by
  rintro rfl
  exact hop (h.symm.trans rfl)

/-- Decoding a nonzero word is the class dispatch (spec 30 R59, R67). -/
theorem decodeWord_of_ne_zero {w : Word} (h : w ≠ 0#32) : decodeWord w = decodeClass w := by
  simp [decodeWord, h]

/-- The bytes of a word give the word back (spec 20 R35). -/
theorem wordOfBytes_bytesOfWord (w : Word) :
    wordOfBytes (w.extractLsb' 0 8) (w.extractLsb' 8 8) (w.extractLsb' 16 8) (w.extractLsb' 24 8) = w := by
  apply BitVec.eq_of_getLsbD_eq
  intro i hi
  simp only [wordOfBytes, BitVec.getLsbD_append, BitVec.getLsbD_extractLsb']
  interval_cases i <;> rfl

end Sys2Proof
end

