-- ==== Sys2Proof/Laws/Irq.lean ====
section
/-! SUPPORT. The interrupt table: lookups after an update, its canonical form, and what the controller's query
answers. -/

namespace Sys2Proof.Machine

/-- Looking up any id after an update (spec 60 R154). -/
theorem IrqTable.get?_put (t : IrqTable) (id j : Nat) (e : IrqEntry) :
    IrqTable.get? (t.put id e) j = if j = id then some e else t.get? j := by
  induction t with
  | nil => simp [IrqTable.put, IrqTable.get?]
  | cons p t ih =>
    obtain ⟨i, f⟩ := p
    simp only [IrqTable.put]
    split
    · simp [IrqTable.get?]
    · split
      · next h => subst h; by_cases hj : j = id <;> simp [IrqTable.get?, hj]
      · next h1 h2 =>
        simp only [IrqTable.get?, ih]
        by_cases hj : j = i
        · simp [hj, show ¬ i = id by omega]
        · simp [hj]

theorem IrqTable.wfAbove_mono {lo lo' : Nat} (h : lo ≤ lo') {t : IrqTable} (ht : IrqTable.wfAbove lo' t = true) :
    IrqTable.wfAbove lo t = true := by
  cases t with
  | nil => rfl
  | cons p t =>
    simp only [IrqTable.wfAbove, Bool.and_eq_true, decide_eq_true_eq] at ht ⊢
    exact ⟨by omega, ht.2⟩

theorem IrqTable.wfAbove_put {lo : Nat} {t : IrqTable} (id : Nat) (e : IrqEntry) (hlo : lo ≤ id)
    (ht : IrqTable.wfAbove lo t = true) : IrqTable.wfAbove lo (t.put id e) = true := by
  induction t generalizing lo with
  | nil => simp [IrqTable.put, IrqTable.wfAbove, hlo]
  | cons p t ih =>
    obtain ⟨i, f⟩ := p
    simp only [IrqTable.wfAbove, Bool.and_eq_true, decide_eq_true_eq] at ht
    simp only [IrqTable.put]
    split
    · next h => simp [IrqTable.wfAbove, hlo, ht.2, show id + 1 ≤ i by omega]
    · split
      · next h => subst h; simp [IrqTable.wfAbove, hlo, ht.2]
      · next h1 h2 =>
        have := ih (by omega : i + 1 ≤ id) ht.2
        simp [IrqTable.wfAbove, ht.1, this]

/-- An update keeps the ids unique and rising (spec 10 R25). -/
theorem IrqTable.wf_put {t : IrqTable} (id : Nat) (e : IrqEntry) (ht : t.wf = true) : (t.put id e).wf = true :=
  IrqTable.wfAbove_put id e (Nat.zero_le id) ht

theorem IrqTable.wf_standard (p : Params) : (standardIrqs p).wf = true := rfl

theorem IrqTable.le_of_mem {lo : Nat} {t : IrqTable} (ht : IrqTable.wfAbove lo t = true) {p : Nat × IrqEntry}
    (hp : p ∈ t) : lo ≤ p.1 := by
  induction t generalizing lo with
  | nil => cases hp
  | cons q t ih =>
    simp only [IrqTable.wfAbove, Bool.and_eq_true, decide_eq_true_eq] at ht
    rcases List.mem_cons.mp hp with rfl | h
    · exact ht.1
    · have := ih ht.2 h; omega

/-- In a canonical table, an entry is listed exactly where the lookup of its id gives it. -/
theorem IrqTable.mem_iff_get? {t : IrqTable} (ht : t.wf = true) (id : Nat) (e : IrqEntry) :
    (id, e) ∈ t ↔ t.get? id = some e := by
  unfold IrqTable.wf at ht
  generalize 0 = lo at ht
  induction t generalizing lo with
  | nil => simp [IrqTable.get?]
  | cons q t ih =>
    obtain ⟨i, f⟩ := q
    simp only [IrqTable.wfAbove, Bool.and_eq_true, decide_eq_true_eq] at ht
    by_cases h : id = i
    · subst h
      have hn : ∀ g, (id, g) ∉ t := fun g hg => by
        have : id + 1 ≤ id := IrqTable.le_of_mem ht.2 hg
        omega
      simp [IrqTable.get?, hn, eq_comm]
    · simp [IrqTable.get?, h, ih _ ht.2]

theorem irqBefore_refl (p : Nat × IrqEntry) : irqBefore p p = true := by simp [irqBefore]

theorem irqBefore_total {p q : Nat × IrqEntry} (h : irqBefore p q = false) : irqBefore q p = true := by
  simp only [irqBefore, Bool.or_eq_true, Bool.and_eq_true, decide_eq_true_eq, Bool.or_eq_false_iff,
    Bool.and_eq_false_iff, decide_eq_false_iff_not] at h ⊢
  omega

theorem irqBefore_trans {p q r : Nat × IrqEntry} (h : irqBefore p q = true) (h' : irqBefore q r = true) :
    irqBefore p r = true := by
  simp only [irqBefore, Bool.or_eq_true, Bool.and_eq_true, decide_eq_true_eq] at h h' ⊢
  omega

/-- No pending entry exactly when the query finds none. -/
theorem IrqTable.best_eq_none (t : IrqTable) : t.best = none ↔ ∀ p ∈ t, p.2.pending = false := by
  induction t with
  | nil => simp [IrqTable.best]
  | cons p t ih =>
    by_cases hp : p.2.pending = true
    · simp only [IrqTable.best, hp, if_true, List.mem_cons, forall_eq_or_imp]
      constructor
      · intro h
        split at h
        · cases h
        · split at h <;> cases h
      · intro h; exact absurd h.1 (by simp)
    · simp only [Bool.not_eq_true] at hp
      simp [IrqTable.best, hp, ih]

/-- What the query finds: a pending entry before which no pending entry comes (spec 60 R158). -/
theorem IrqTable.best_spec {t : IrqTable} {q : Nat × IrqEntry} (h : t.best = some q) :
    q ∈ t ∧ q.2.pending = true ∧ ∀ p ∈ t, p.2.pending = true → irqBefore q p = true := by
  induction t generalizing q with
  | nil => cases h
  | cons p t ih =>
    by_cases hp : p.2.pending = true
    · simp only [IrqTable.best, hp, if_true] at h
      split at h
      · next hb =>
        cases h
        refine ⟨List.mem_cons_self, hp, fun r hr hr' => ?_⟩
        rcases List.mem_cons.mp hr with rfl | hr
        · exact irqBefore_refl _
        · rw [(IrqTable.best_eq_none t).mp hb r hr] at hr'; cases hr'
      · next r hb =>
        obtain ⟨hm, hpe, hle⟩ := ih hb
        split at h
        · next hbef =>
          cases h
          refine ⟨List.mem_cons_self, hp, fun s hs hs' => ?_⟩
          rcases List.mem_cons.mp hs with rfl | hs
          · exact irqBefore_refl _
          · exact irqBefore_trans hbef (hle s hs hs')
        · next hbef =>
          cases h
          refine ⟨List.mem_cons_of_mem _ hm, hpe, fun s hs hs' => ?_⟩
          rcases List.mem_cons.mp hs with rfl | hs
          · exact irqBefore_total (by simpa using hbef)
          · exact hle s hs hs'
    · simp only [Bool.not_eq_true] at hp
      simp only [IrqTable.best, hp, Bool.false_eq_true, if_false] at h
      obtain ⟨hm, hpe, hle⟩ := ih h
      refine ⟨List.mem_cons_of_mem _ hm, hpe, fun s hs hs' => ?_⟩
      rcases List.mem_cons.mp hs with rfl | hs
      · rw [hp] at hs'; cases hs'
      · exact hle s hs hs'

end Sys2Proof.Machine
end

