-- ==== Sys2Proof/Laws/Memory.lean ====
section
/-! SUPPORT. Memory: what a byte reads after a write, for every list; and that every operation keeps the canonical
form. -/

namespace Sys2Proof.Machine

/-! ### One byte -/

theorem Memory.read_insert (m : Memory) (a c : Nat) (v : Byte) :
    Memory.read (m.insert a v) c = if c = a then v else Memory.read m c := by
  induction m with
  | nil => simp [Memory.insert, Memory.read]
  | cons p m ih =>
    obtain ⟨b, w⟩ := p
    simp only [Memory.insert]
    split
    · simp [Memory.read]
    · split
      · next h => subst h; by_cases hc : c = a <;> simp [Memory.read, hc]
      · next h1 h2 =>
        simp only [Memory.read, ih]
        by_cases hb : c = b
        · have : c ≠ a := by omega
          simp [hb, show ¬ b = a by omega]
        · simp [hb]

theorem Memory.read_filter_ne (m : Memory) (a c : Nat) :
    Memory.read (m.filter (fun p => p.1 != a)) c = if c = a then 0#8 else Memory.read m c := by
  induction m with
  | nil => simp [Memory.read]
  | cons p m ih =>
    obtain ⟨b, w⟩ := p
    by_cases hb : b = a
    · subst hb
      simp only [List.filter, bne_self_eq_false, Memory.read]
      rw [ih]; split <;> rfl
    · have hb' : (b != a) = true := by simpa using hb
      simp only [List.filter, hb', Memory.read]
      rw [ih]
      by_cases hc : c = b
      · subst hc; simp [hb]
      · simp [hc]

/-- Reading any byte after writing one (spec 20 R46). -/
theorem Memory.read_write (m : Memory) (a c : Nat) (v : Byte) :
    Memory.read (m.write a v) c = if c = a then v else Memory.read m c := by
  unfold Memory.write
  split
  · next h => subst h; exact m.read_filter_ne a c
  · exact m.read_insert a c v

/-! ### Byte strings -/

@[simp] theorem Memory.length_readBytes (m : Memory) (a n : Nat) : (m.readBytes a n).length = n := by
  induction n generalizing a with
  | zero => rfl
  | succ n ih => simp [Memory.readBytes, ih]

theorem Memory.getElem_readBytes (m : Memory) (a n k : Nat) (h : k < (m.readBytes a n).length) :
    (m.readBytes a n)[k] = m.read (a + k) := by
  induction n generalizing a k with
  | zero => simp [Memory.readBytes] at h
  | succ n ih =>
    cases k with
    | zero => rfl
    | succ k =>
      simp only [Memory.readBytes, List.getElem_cons_succ]
      rw [ih]
      congr 1
      omega

/-- Reading any byte after writing a byte string (spec 20 R39). -/
theorem Memory.read_writeBytes (m : Memory) (a c : Nat) (bs : List Byte) :
    Memory.read (m.writeBytes a bs) c = if h : a ≤ c ∧ c < a + bs.length then bs[c - a]'(by omega) else m.read c := by
  induction bs generalizing m a with
  | nil =>
    have : ¬ (a ≤ c ∧ c < a + ([] : List Byte).length) := by simp
    rw [dif_neg this]; rfl
  | cons b bs ih =>
    rw [Memory.writeBytes, ih]
    by_cases h1 : a + 1 ≤ c ∧ c < a + 1 + bs.length
    · have h2 : a ≤ c ∧ c < a + (b :: bs).length := by simp; omega
      rw [dif_pos h1, dif_pos h2]
      have e : c - a = (c - (a + 1)) + 1 := by omega
      simp [e]
    · rw [dif_neg h1, Memory.read_write]
      by_cases h3 : c = a
      · subst h3; simp
      · have h2 : ¬ (a ≤ c ∧ c < a + (b :: bs).length) := by simp; omega
        rw [if_neg h3, dif_neg h2]

/-- A byte string written reads back (spec 20 R46). -/
theorem Memory.readBytes_writeBytes (m : Memory) (a : Nat) (bs : List Byte) :
    Memory.readBytes (m.writeBytes a bs) a bs.length = bs := by
  apply List.ext_getElem
  · simp
  · intro k h1 h2
    have hk : a ≤ a + k ∧ a + k < a + bs.length := by omega
    rw [Memory.getElem_readBytes, Memory.read_writeBytes, dif_pos hk]
    simp

/-- Two memories with the same bytes in a span read the same string there. -/
theorem Memory.readBytes_congr {m m' : Memory} {a n : Nat} (h : ∀ c, a ≤ c → c < a + n → m'.read c = m.read c) :
    m'.readBytes a n = m.readBytes a n := by
  apply List.ext_getElem
  · simp
  · intro k h1 h2
    rw [Memory.getElem_readBytes, Memory.getElem_readBytes]
    have : k < n := by simpa using h1
    exact h _ (by omega) (by omega)

/-! ### Little-endian numbers -/

@[simp] theorem length_leBytes (n v : Nat) : (leBytes n v).length = n := by
  induction n generalizing v with
  | zero => rfl
  | succ n ih => simp [leBytes, ih]

/-- Byte k of the little-endian bytes of a number (spec 20 R37). -/
theorem getElem_leBytes (n v k : Nat) (h : k < (leBytes n v).length) :
    (leBytes n v)[k] = BitVec.ofNat 8 (v / 256 ^ k) := by
  induction n generalizing v k with
  | zero => simp [leBytes] at h
  | succ n ih =>
    cases k with
    | zero => simp [leBytes]
    | succ k =>
      simp only [leBytes, List.getElem_cons_succ]
      rw [ih, Nat.div_div_eq_div_mul, Nat.pow_succ, Nat.mul_comm]

theorem leNat_lt (bs : List Byte) : leNat bs < 256 ^ bs.length := by
  induction bs with
  | nil => simp [leNat]
  | cons b bs ih =>
    have := b.isLt
    simp only [leNat, List.length_cons, Nat.pow_succ]
    omega

/-- The round trip of a number through its n low bytes (spec 20 R37). -/
theorem leNat_leBytes (n v : Nat) : leNat (leBytes n v) = v % 256 ^ n := by
  induction n generalizing v with
  | zero => simp [leBytes, leNat, Nat.mod_one]
  | succ n ih =>
    simp only [leBytes, leNat, ih, BitVec.toNat_ofNat]
    rw [show 256 ^ (n + 1) = 256 * 256 ^ n by rw [Nat.pow_succ, Nat.mul_comm], Nat.mod_mul]

theorem Memory.readLE_lt (m : Memory) (a n : Nat) : m.readLE a n < 256 ^ n := by
  have := leNat_lt (m.readBytes a n)
  rwa [Memory.length_readBytes] at this

/-- A number stored reads back mod 2^(8n) (spec 20 R37). -/
theorem Memory.readLE_writeLE (m : Memory) (a n v : Nat) : (m.writeLE a n v).readLE a n = v % 256 ^ n := by
  have h := Memory.readBytes_writeBytes m a (leBytes n v)
  rw [length_leBytes] at h
  rw [Memory.readLE, Memory.writeLE, h, leNat_leBytes]

/-- Reading any byte after storing a number (spec 20 R37). -/
theorem Memory.read_writeLE (m : Memory) (a n v c : Nat) :
    (m.writeLE a n v).read c = if a ≤ c ∧ c < a + n then BitVec.ofNat 8 (v / 256 ^ (c - a)) else m.read c := by
  rw [Memory.writeLE, Memory.read_writeBytes]
  by_cases h : a ≤ c ∧ c < a + n
  · have h' : a ≤ c ∧ c < a + (leBytes n v).length := by simpa using h
    rw [dif_pos h', if_pos h, getElem_leBytes]
  · have h' : ¬ (a ≤ c ∧ c < a + (leBytes n v).length) := by simpa using h
    rw [dif_neg h', if_neg h]

/-! ### The canonical form -/

theorem Memory.wfAbove_mono {lo lo' : Nat} (h : lo ≤ lo') {m : Memory} (hm : Memory.wfAbove lo' m = true) :
    Memory.wfAbove lo m = true := by
  cases m with
  | nil => rfl
  | cons p m =>
    obtain ⟨b, w⟩ := p
    simp only [Memory.wfAbove, Bool.and_eq_true, decide_eq_true_eq] at hm ⊢
    exact ⟨⟨by omega, hm.1.2⟩, hm.2⟩

theorem Memory.wfAbove_insert {lo : Nat} {m : Memory} (a : Nat) {v : Byte} (hv : v ≠ 0#8) (hlo : lo ≤ a)
    (hm : Memory.wfAbove lo m = true) : Memory.wfAbove lo (m.insert a v) = true := by
  induction m generalizing lo with
  | nil => simp [Memory.insert, Memory.wfAbove, hlo, hv]
  | cons p m ih =>
    obtain ⟨b, w⟩ := p
    simp only [Memory.wfAbove, Bool.and_eq_true, decide_eq_true_eq] at hm
    simp only [Memory.insert]
    split
    · next h => simp [Memory.wfAbove, hlo, hv, hm.1.2, hm.2, show a + 1 ≤ b by omega]
    · split
      · next h => subst h; simp [Memory.wfAbove, hlo, hv, hm.2]
      · next h1 h2 =>
        have := ih (by omega : b + 1 ≤ a) hm.2
        simp [Memory.wfAbove, hm.1.1, hm.1.2, this]

theorem Memory.wfAbove_filter {lo : Nat} {m : Memory} (f : Host.Cell → Bool) (hm : Memory.wfAbove lo m = true) :
    Memory.wfAbove lo (m.filter f) = true := by
  induction m generalizing lo with
  | nil => rfl
  | cons p m ih =>
    obtain ⟨b, w⟩ := p
    simp only [Memory.wfAbove, Bool.and_eq_true, decide_eq_true_eq] at hm
    have := ih hm.2
    by_cases hf : f (b, w) = true
    · simp [List.filter, hf, Memory.wfAbove, hm.1.1, hm.1.2, this]
    · simp only [Bool.not_eq_true] at hf
      simp only [List.filter, hf]
      exact Memory.wfAbove_mono (by omega) this

/-- Writing a byte keeps the canonical form. -/
theorem Memory.wf_write {m : Memory} (a : Nat) (v : Byte) (hm : m.wf = true) : (m.write a v).wf = true := by
  unfold Memory.write
  split
  · exact Memory.wfAbove_filter _ hm
  · next h => exact Memory.wfAbove_insert a h (Nat.zero_le a) hm

/-- Writing a byte string keeps the canonical form. -/
theorem Memory.wf_writeBytes {m : Memory} (a : Nat) (bs : List Byte) (hm : m.wf = true) :
    (m.writeBytes a bs).wf = true := by
  induction bs generalizing m a with
  | nil => exact hm
  | cons b bs ih => exact ih (a + 1) (Memory.wf_write a b hm)

/-- Storing a number keeps the canonical form. -/
theorem Memory.wf_writeLE {m : Memory} (a n v : Nat) (hm : m.wf = true) : (m.writeLE a n v).wf = true :=
  Memory.wf_writeBytes a _ hm

theorem Memory.wfAbove_read {lo : Nat} {m : Memory} (hm : Memory.wfAbove lo m = true) {c : Nat} (hc : c < lo) :
    m.read c = 0#8 := by
  induction m generalizing lo with
  | nil => rfl
  | cons p m ih =>
    obtain ⟨b, w⟩ := p
    simp only [Memory.wfAbove, Bool.and_eq_true, decide_eq_true_eq] at hm
    simp only [Memory.read, show ¬ c = b by omega, if_false]
    exact ih hm.2 (by omega)

theorem Memory.ext_above {lo : Nat} {m m' : Memory} (hm : Memory.wfAbove lo m = true)
    (hm' : Memory.wfAbove lo m' = true) (h : ∀ c, m.read c = m'.read c) : m = m' := by
  induction m generalizing lo m' with
  | nil =>
    cases m' with
    | nil => rfl
    | cons p m' =>
      obtain ⟨b, w⟩ := p
      simp only [Memory.wfAbove, Bool.and_eq_true, decide_eq_true_eq, bne_iff_ne, ne_eq] at hm'
      have := h b
      simp [Memory.read] at this
      exact absurd this.symm hm'.1.2
  | cons p m ih =>
    obtain ⟨b, w⟩ := p
    simp only [Memory.wfAbove, Bool.and_eq_true, decide_eq_true_eq, bne_iff_ne, ne_eq] at hm
    cases m' with
    | nil =>
      have := h b
      simp [Memory.read] at this
      exact absurd this hm.1.2
    | cons p' m' =>
      obtain ⟨b', w'⟩ := p'
      simp only [Memory.wfAbove, Bool.and_eq_true, decide_eq_true_eq, bne_iff_ne, ne_eq] at hm'
      have hb : b = b' := by
        rcases Nat.lt_trichotomy b b' with hlt | heq | hgt
        · have := h b
          simp only [Memory.read, if_true, show ¬ b = b' by omega, if_false] at this
          rw [Memory.wfAbove_read hm'.2 (by omega)] at this
          exact absurd this hm.1.2
        · exact heq
        · have := h b'
          simp only [Memory.read, if_true, show ¬ b' = b by omega, if_false] at this
          rw [Memory.wfAbove_read hm.2 (by omega)] at this
          exact absurd this.symm hm'.1.2
      subst hb
      have hw : w = w' := by simpa [Memory.read] using h b
      subst hw
      rw [ih hm.2 hm'.2]
      intro c
      by_cases hc : c = b
      · subst hc
        rw [Memory.wfAbove_read hm.2 (by omega), Memory.wfAbove_read hm'.2 (by omega)]
      · simpa [Memory.read, hc] using h c

/-- Canonical memories with the same bytes are the same list. -/
theorem Memory.ext_of_wf {m m' : Memory} (hm : m.wf = true) (hm' : m'.wf = true) (h : ∀ c, m.read c = m'.read c) :
    m = m' := Memory.ext_above hm hm' h

/-! ### Inside the array -/

theorem Memory.within_insert {size : Nat} {m : Memory} {a : Nat} (v : Byte) (ha : a < size)
    (hm : m.within size = true) : (m.insert a v).within size = true := by
  induction m with
  | nil => simp [Memory.insert, Memory.within, ha]
  | cons p m ih =>
    obtain ⟨b, w⟩ := p
    simp only [Memory.within, List.all_cons, Bool.and_eq_true, decide_eq_true_eq] at hm
    have ih := ih hm.2
    simp only [Memory.insert]
    split
    · simp only [Memory.within, List.all_cons, Bool.and_eq_true, decide_eq_true_eq]; exact ⟨ha, hm⟩
    · split
      · simp only [Memory.within, List.all_cons, Bool.and_eq_true, decide_eq_true_eq]; exact ⟨ha, hm.2⟩
      · simp only [Memory.within, List.all_cons, Bool.and_eq_true, decide_eq_true_eq]; exact ⟨hm.1, ih⟩

/-- Writing a byte below the size keeps memory inside the array. -/
theorem Memory.within_write {size : Nat} {m : Memory} {a : Nat} (v : Byte) (ha : a < size)
    (hm : m.within size = true) : (m.write a v).within size = true := by
  unfold Memory.write
  split
  · simp only [Memory.within, List.all_eq_true, decide_eq_true_eq] at hm ⊢
    exact fun c hc => hm c (List.mem_of_mem_filter hc)
  · exact Memory.within_insert v ha hm

/-- Writing a byte string that ends inside the array keeps memory inside the array. -/
theorem Memory.within_writeBytes {size : Nat} {m : Memory} {a : Nat} (bs : List Byte) (ha : a + bs.length ≤ size)
    (hm : m.within size = true) : (m.writeBytes a bs).within size = true := by
  induction bs generalizing m a with
  | nil => exact hm
  | cons b bs ih =>
    simp only [List.length_cons] at ha
    exact ih (by omega) (Memory.within_write b (by omega) hm)

/-! ### The bounds check -/

/-- InBounds for a natural address (spec 20 R33). -/
theorem inBounds_nat (size a n : Nat) : inBounds size a n = true ↔ a + n ≤ size := by
  simp only [inBounds, Bool.and_eq_true, decide_eq_true_eq]
  omega

theorem inBounds_iff (size : Nat) (a n : Int) : inBounds size a n = true ↔ 0 ≤ a ∧ a + n ≤ size := by
  simp only [inBounds, Bool.and_eq_true, decide_eq_true_eq]
  omega

end Sys2Proof.Machine
end

