-- ==== Sys2Proof/Laws/State.lean ====
section
/-! SUPPORT. What each update of the state does to each field: one lemma per field per update. -/

namespace Sys2Proof.Machine

/-! ### The update of `x` -/

@[simp] theorem State.with_x_x (s : State) (v : Vector Word 31) : { s with x := v }.x = v := rfl
@[simp] theorem State.with_x_pc (s : State) (v : Vector Word 31) : { s with x := v }.pc = s.pc := rfl
@[simp] theorem State.with_x_saved (s : State) (v : Vector Word 31) : { s with x := v }.saved = s.saved := rfl
@[simp] theorem State.with_x_mem (s : State) (v : Vector Word 31) : { s with x := v }.mem = s.mem := rfl
@[simp] theorem State.with_x_irq (s : State) (v : Vector Word 31) : { s with x := v }.irq = s.irq := rfl
@[simp] theorem State.with_x_irqEn (s : State) (v : Vector Word 31) : { s with x := v }.irqEn = s.irqEn := rfl
@[simp] theorem State.with_x_params (s : State) (v : Vector Word 31) : { s with x := v }.params = s.params := rfl
@[simp] theorem State.with_x_freeSeq (s : State) (v : Vector Word 31) : { s with x := v }.freeSeq = s.freeSeq := rfl

/-! ### The update of `pc` -/

@[simp] theorem State.with_pc_x (s : State) (v : Word) : { s with pc := v }.x = s.x := rfl
@[simp] theorem State.with_pc_pc (s : State) (v : Word) : { s with pc := v }.pc = v := rfl
@[simp] theorem State.with_pc_saved (s : State) (v : Word) : { s with pc := v }.saved = s.saved := rfl
@[simp] theorem State.with_pc_mem (s : State) (v : Word) : { s with pc := v }.mem = s.mem := rfl
@[simp] theorem State.with_pc_irq (s : State) (v : Word) : { s with pc := v }.irq = s.irq := rfl
@[simp] theorem State.with_pc_irqEn (s : State) (v : Word) : { s with pc := v }.irqEn = s.irqEn := rfl
@[simp] theorem State.with_pc_params (s : State) (v : Word) : { s with pc := v }.params = s.params := rfl
@[simp] theorem State.with_pc_freeSeq (s : State) (v : Word) : { s with pc := v }.freeSeq = s.freeSeq := rfl

/-! ### The update of `saved` -/

@[simp] theorem State.with_saved_x (s : State) (v : Option Snapshot) : { s with saved := v }.x = s.x := rfl
@[simp] theorem State.with_saved_pc (s : State) (v : Option Snapshot) : { s with saved := v }.pc = s.pc := rfl
@[simp] theorem State.with_saved_saved (s : State) (v : Option Snapshot) : { s with saved := v }.saved = v := rfl
@[simp] theorem State.with_saved_mem (s : State) (v : Option Snapshot) : { s with saved := v }.mem = s.mem := rfl
@[simp] theorem State.with_saved_irq (s : State) (v : Option Snapshot) : { s with saved := v }.irq = s.irq := rfl
@[simp] theorem State.with_saved_irqEn (s : State) (v : Option Snapshot) : { s with saved := v }.irqEn = s.irqEn := rfl
@[simp] theorem State.with_saved_params (s : State) (v : Option Snapshot) : { s with saved := v }.params = s.params := rfl
@[simp] theorem State.with_saved_freeSeq (s : State) (v : Option Snapshot) : { s with saved := v }.freeSeq = s.freeSeq := rfl

/-! ### The update of `mem` -/

@[simp] theorem State.with_mem_x (s : State) (v : Memory) : { s with mem := v }.x = s.x := rfl
@[simp] theorem State.with_mem_pc (s : State) (v : Memory) : { s with mem := v }.pc = s.pc := rfl
@[simp] theorem State.with_mem_saved (s : State) (v : Memory) : { s with mem := v }.saved = s.saved := rfl
@[simp] theorem State.with_mem_mem (s : State) (v : Memory) : { s with mem := v }.mem = v := rfl
@[simp] theorem State.with_mem_irq (s : State) (v : Memory) : { s with mem := v }.irq = s.irq := rfl
@[simp] theorem State.with_mem_irqEn (s : State) (v : Memory) : { s with mem := v }.irqEn = s.irqEn := rfl
@[simp] theorem State.with_mem_params (s : State) (v : Memory) : { s with mem := v }.params = s.params := rfl
@[simp] theorem State.with_mem_freeSeq (s : State) (v : Memory) : { s with mem := v }.freeSeq = s.freeSeq := rfl

/-! ### The update of `irq` -/

@[simp] theorem State.with_irq_x (s : State) (v : IrqTable) : { s with irq := v }.x = s.x := rfl
@[simp] theorem State.with_irq_pc (s : State) (v : IrqTable) : { s with irq := v }.pc = s.pc := rfl
@[simp] theorem State.with_irq_saved (s : State) (v : IrqTable) : { s with irq := v }.saved = s.saved := rfl
@[simp] theorem State.with_irq_mem (s : State) (v : IrqTable) : { s with irq := v }.mem = s.mem := rfl
@[simp] theorem State.with_irq_irq (s : State) (v : IrqTable) : { s with irq := v }.irq = v := rfl
@[simp] theorem State.with_irq_irqEn (s : State) (v : IrqTable) : { s with irq := v }.irqEn = s.irqEn := rfl
@[simp] theorem State.with_irq_params (s : State) (v : IrqTable) : { s with irq := v }.params = s.params := rfl
@[simp] theorem State.with_irq_freeSeq (s : State) (v : IrqTable) : { s with irq := v }.freeSeq = s.freeSeq := rfl

/-! ### The update of `irqEn` -/

@[simp] theorem State.with_irqEn_x (s : State) (v : Bool) : { s with irqEn := v }.x = s.x := rfl
@[simp] theorem State.with_irqEn_pc (s : State) (v : Bool) : { s with irqEn := v }.pc = s.pc := rfl
@[simp] theorem State.with_irqEn_saved (s : State) (v : Bool) : { s with irqEn := v }.saved = s.saved := rfl
@[simp] theorem State.with_irqEn_mem (s : State) (v : Bool) : { s with irqEn := v }.mem = s.mem := rfl
@[simp] theorem State.with_irqEn_irq (s : State) (v : Bool) : { s with irqEn := v }.irq = s.irq := rfl
@[simp] theorem State.with_irqEn_irqEn (s : State) (v : Bool) : { s with irqEn := v }.irqEn = v := rfl
@[simp] theorem State.with_irqEn_params (s : State) (v : Bool) : { s with irqEn := v }.params = s.params := rfl
@[simp] theorem State.with_irqEn_freeSeq (s : State) (v : Bool) : { s with irqEn := v }.freeSeq = s.freeSeq := rfl

/-! ### `setPc` and `advance` -/

@[simp] theorem State.setPc_x (s : State) (v : Word) : (s.setPc v).x = s.x := rfl
@[simp] theorem State.setPc_pc (s : State) (v : Word) : (s.setPc v).pc = v := rfl
@[simp] theorem State.setPc_saved (s : State) (v : Word) : (s.setPc v).saved = s.saved := rfl
@[simp] theorem State.setPc_mem (s : State) (v : Word) : (s.setPc v).mem = s.mem := rfl
@[simp] theorem State.setPc_irq (s : State) (v : Word) : (s.setPc v).irq = s.irq := rfl
@[simp] theorem State.setPc_irqEn (s : State) (v : Word) : (s.setPc v).irqEn = s.irqEn := rfl
@[simp] theorem State.setPc_params (s : State) (v : Word) : (s.setPc v).params = s.params := rfl
@[simp] theorem State.setPc_freeSeq (s : State) (v : Word) : (s.setPc v).freeSeq = s.freeSeq := rfl

@[simp] theorem State.advance_x (s : State) : s.advance.x = s.x := rfl
@[simp] theorem State.advance_pc (s : State) : s.advance.pc = s.pc + 4#32 := rfl
@[simp] theorem State.advance_saved (s : State) : s.advance.saved = s.saved := rfl
@[simp] theorem State.advance_mem (s : State) : s.advance.mem = s.mem := rfl
@[simp] theorem State.advance_irq (s : State) : s.advance.irq = s.irq := rfl
@[simp] theorem State.advance_irqEn (s : State) : s.advance.irqEn = s.irqEn := rfl
@[simp] theorem State.advance_params (s : State) : s.advance.params = s.params := rfl
@[simp] theorem State.advance_freeSeq (s : State) : s.advance.freeSeq = s.freeSeq := rfl

/-! ### `setReg` -/

@[simp] theorem State.setReg_pc (s : State) (r : Reg) (v : Word) : (s.setReg r v).pc = s.pc := by
  unfold State.setReg; split <;> rfl

@[simp] theorem State.setReg_saved (s : State) (r : Reg) (v : Word) : (s.setReg r v).saved = s.saved := by
  unfold State.setReg; split <;> rfl

@[simp] theorem State.setReg_mem (s : State) (r : Reg) (v : Word) : (s.setReg r v).mem = s.mem := by
  unfold State.setReg; split <;> rfl

@[simp] theorem State.setReg_irq (s : State) (r : Reg) (v : Word) : (s.setReg r v).irq = s.irq := by
  unfold State.setReg; split <;> rfl

@[simp] theorem State.setReg_irqEn (s : State) (r : Reg) (v : Word) : (s.setReg r v).irqEn = s.irqEn := by
  unfold State.setReg; split <;> rfl

@[simp] theorem State.setReg_params (s : State) (r : Reg) (v : Word) : (s.setReg r v).params = s.params := by
  unfold State.setReg; split <;> rfl

@[simp] theorem State.setReg_freeSeq (s : State) (r : Reg) (v : Word) : (s.setReg r v).freeSeq = s.freeSeq := by
  unfold State.setReg; split <;> rfl

/-! ### Resets of the units -/

@[simp] theorem State.resetMem_x (s : State) : s.resetMem.x = s.x := rfl
@[simp] theorem State.resetMem_pc (s : State) : s.resetMem.pc = s.pc := rfl
@[simp] theorem State.resetMem_saved (s : State) : s.resetMem.saved = s.saved := rfl
@[simp] theorem State.resetMem_mem (s : State) : s.resetMem.mem = [] := rfl
@[simp] theorem State.resetMem_irq (s : State) : s.resetMem.irq = s.irq := rfl
@[simp] theorem State.resetMem_irqEn (s : State) : s.resetMem.irqEn = s.irqEn := rfl
@[simp] theorem State.resetMem_params (s : State) : s.resetMem.params = s.params := rfl
@[simp] theorem State.resetMem_freeSeq (s : State) : s.resetMem.freeSeq = s.freeSeq := rfl

@[simp] theorem State.resetIrq_x (s : State) : s.resetIrq.x = s.x := rfl
@[simp] theorem State.resetIrq_pc (s : State) : s.resetIrq.pc = s.pc := rfl
@[simp] theorem State.resetIrq_saved (s : State) : s.resetIrq.saved = s.saved := rfl
@[simp] theorem State.resetIrq_mem (s : State) : s.resetIrq.mem = s.mem := rfl
@[simp] theorem State.resetIrq_irq (s : State) : s.resetIrq.irq = standardIrqs s.params := rfl
@[simp] theorem State.resetIrq_irqEn (s : State) : s.resetIrq.irqEn = true := rfl
@[simp] theorem State.resetIrq_params (s : State) : s.resetIrq.params = s.params := rfl
@[simp] theorem State.resetIrq_freeSeq (s : State) : s.resetIrq.freeSeq = s.freeSeq := rfl

@[simp] theorem State.resetRegFile_mem (s : State) : s.resetRegFile.mem = s.mem := by
  unfold State.resetRegFile; split <;> rfl

@[simp] theorem State.resetRegFile_irq (s : State) : s.resetRegFile.irq = s.irq := by
  unfold State.resetRegFile; split <;> rfl

@[simp] theorem State.resetRegFile_irqEn (s : State) : s.resetRegFile.irqEn = s.irqEn := by
  unfold State.resetRegFile; split <;> rfl

@[simp] theorem State.resetRegFile_params (s : State) : s.resetRegFile.params = s.params := by
  unfold State.resetRegFile; split <;> rfl

@[simp] theorem State.resetRegFile_saved (s : State) : s.resetRegFile.saved = none := by
  unfold State.resetRegFile; split <;> rfl

/-! ### `restoreFrom` -/

@[simp] theorem State.restoreFrom_pc (s : State) (c : RawSnapshot) : (s.restoreFrom c).pc = m32 c.pc := by
  unfold State.restoreFrom; rfl
@[simp] theorem State.restoreFrom_saved (s : State) (c : RawSnapshot) : (s.restoreFrom c).saved = s.saved := by
  unfold State.restoreFrom; rfl
@[simp] theorem State.restoreFrom_mem (s : State) (c : RawSnapshot) : (s.restoreFrom c).mem = s.mem := by
  unfold State.restoreFrom; rfl
@[simp] theorem State.restoreFrom_irq (s : State) (c : RawSnapshot) : (s.restoreFrom c).irq = s.irq := by
  unfold State.restoreFrom; rfl
@[simp] theorem State.restoreFrom_irqEn (s : State) (c : RawSnapshot) : (s.restoreFrom c).irqEn = s.irqEn := by
  unfold State.restoreFrom; rfl
@[simp] theorem State.restoreFrom_params (s : State) (c : RawSnapshot) : (s.restoreFrom c).params = s.params := by
  unfold State.restoreFrom; rfl
@[simp] theorem State.restoreFrom_freeSeq (s : State) (c : RawSnapshot) : (s.restoreFrom c).freeSeq = s.freeSeq := by
  unfold State.restoreFrom; rfl

end Sys2Proof.Machine
end

