-- ==== Sys2Proof/Laws/Registers.lean ====
section
/-! SUPPORT. Reading a register after an update. -/

namespace Sys2Proof.Machine

@[simp] theorem State.reg_zero (s : State) : s.reg 0#5 = 0#32 := rfl

theorem Reg.toNat_ne_zero {r : Reg} (h : r ≠ 0#5) : r.toNat ≠ 0 :=
  fun e => h (BitVec.eq_of_toNat_eq (by simpa using e))

/-- Away from x0, a register is its slot of the stored file. -/
theorem State.reg_eq {s : State} {r : Reg} (h : r ≠ 0#5) :
    s.reg r = s.x[r.toNat - 1]'(by have := r.isLt; omega) := by
  simp [State.reg, Reg.toNat_ne_zero h]

/-- Registers are read from the stored file only. -/
theorem State.reg_congr {s t : State} (h : t.x = s.x) (r : Reg) : t.reg r = s.reg r := by
  simp [State.reg, h]

/-- Writing x0 is discarded (spec 10 R16). -/
@[simp] theorem State.setReg_zero (s : State) (v : Word) : s.setReg 0#5 v = s := rfl

/-- Reading any register after a register write (spec 10 R16, R17). -/
theorem State.reg_setReg (s : State) (r q : Reg) (v : Word) :
    (s.setReg r v).reg q = if q = 0#5 then 0#32 else if q = r then v else s.reg q := by
  split
  · next h => subst h; rfl
  · next hq =>
    have hq' := Reg.toNat_ne_zero hq
    split
    · next h =>
      subst h
      simp [State.setReg, State.reg, hq']
    · next h =>
      have hne : q.toNat ≠ r.toNat := fun e => h (BitVec.eq_of_toNat_eq e)
      by_cases hr : r.toNat = 0
      · simp [State.setReg, hr]
      · have : ¬ r.toNat - 1 = q.toNat - 1 := by omega
        simp [State.setReg, hr, State.reg, hq', this]

@[simp] theorem State.reg_setPc (s : State) (v : Word) (q : Reg) : (s.setPc v).reg q = s.reg q := rfl

@[simp] theorem State.reg_advance (s : State) (q : Reg) : s.advance.reg q = s.reg q := rfl

@[simp] theorem State.reg_with_mem (s : State) (m : Memory) (q : Reg) : { s with mem := m }.reg q = s.reg q := rfl

@[simp] theorem State.reg_with_irq (s : State) (t : IrqTable) (q : Reg) : { s with irq := t }.reg q = s.reg q := rfl

@[simp] theorem State.reg_with_irqEn (s : State) (b : Bool) (q : Reg) : { s with irqEn := b }.reg q = s.reg q := rfl

@[simp] theorem State.reg_with_saved (s : State) (c : Option Snapshot) (q : Reg) :
    { s with saved := c }.reg q = s.reg q := rfl

/-- A register after a register-file reset under REG_RESET_POLICY = zero (spec 10 R29). -/
theorem State.reg_resetRegFile {s : State} (h : s.params.regReset = .zero) (q : Reg) : s.resetRegFile.reg q = 0#32 := by
  simp [State.resetRegFile, h, State.reg]

/-- A register after a restore (spec 48 R145). -/
theorem State.reg_restoreFrom (s : State) (c : RawSnapshot) (q : Reg) :
    (s.restoreFrom c).reg q = if q = 0#5 then 0#32 else m32 (c.regs[q.toNat]'q.isLt) := by
  split
  · next h => subst h; rfl
  · next h =>
    have h0 := Reg.toNat_ne_zero h
    have e : q.toNat - 1 + 1 = q.toNat := by omega
    simp [State.reg, h0, State.restoreFrom, e]

/-- A register in the snapshot of the live state (spec 48 R144). -/
theorem State.snapshot_regs (s : State) (q : Reg) : s.snapshot.regs[q.toNat]'q.isLt = s.reg q := by
  simp [State.snapshot]

/-- Two stored files that give every register the same value are equal: x0 has no storage. -/
theorem State.x_ext {s t : State} (h : ∀ r, t.reg r = s.reg r) : t.x = s.x := by
  apply Vector.ext
  intro i hi
  have hlt : i + 1 < 2 ^ 5 := by omega
  have hn : (BitVec.ofNat 5 (i + 1)).toNat = i + 1 := by
    rw [BitVec.toNat_ofNat]; exact Nat.mod_eq_of_lt hlt
  have := h (BitVec.ofNat 5 (i + 1))
  simpa [State.reg, hn] using this

/-- m32 of the unsigned reading is the word itself (spec 00 R11). -/
@[simp] theorem m32_u (v : Word) : m32 (u v) = v := by
  apply BitVec.eq_of_toInt_eq
  simp [m32, u, BitVec.toInt_eq_toNat_bmod]

end Sys2Proof.Machine
end

