-- ==== Sys2Proof/Laws/Ops.lean ====
section
/-! SUPPORT. The shared operations: everything each of them can do, said once. -/

namespace Sys2Proof.Machine

/-! ### Memory accesses of the state -/

/-- A read at a natural address (spec 20 R36). -/
theorem State.memRead_nat (s : State) (a n : Nat) :
    s.memRead a n = if a + n ≤ s.params.memSize then some (s.mem.readLE a n) else none := by
  simp [State.memRead, inBounds_nat]

/-- A write at a natural address (spec 20 R37). -/
theorem State.memWrite_nat (s : State) (a n v : Nat) :
    s.memWrite a n v = if a + n ≤ s.params.memSize then some { s with mem := s.mem.writeLE a n v } else none := by
  simp [State.memWrite, inBounds_nat]

/-! ### Committing -/

theorem State.retire_eq (s : State) (rd : Reg) (v : Word) :
    s.retire rd v = .next ((s.setReg rd v).setPc (s.pc + 4#32)) := rfl

theorem State.branchIf_eq (s : State) (c : Bool) (imm : BitVec 13) :
    s.branchIf c imm = .next (s.setPc (if c then s.pc + sext imm else s.pc + 4#32)) := rfl

theorem State.linkAndJump_eq (s : State) (rd : Reg) (target : Word) :
    s.linkAndJump rd target = .next ((s.setReg rd (s.pc + 4#32)).setPc target) := rfl

/-- A load answers the read register value and pc + 4, or the error (spec 41 R88, 40 R83). -/
theorem State.load_eq (s : State) (rd : Reg) (ea : Word) (n : Nat) (ext : Nat → Word) :
    s.load rd ea n ext =
      if ea.toNat + n ≤ s.params.memSize then
        .next ((s.setReg rd (ext (s.mem.readLE ea.toNat n))).setPc (s.pc + 4#32))
      else .fault (.outOfBounds ea.toNat n) := by
  unfold State.load
  rw [State.memRead_nat]
  by_cases h : ea.toNat + n ≤ s.params.memSize <;> simp only [h, if_true, if_false] <;> rfl

/-- A store answers the memory with its bytes stored and pc + 4, or the error (spec 41 R93, 40 R83). -/
theorem State.store_eq (s : State) (ea : Word) (n : Nat) (v : Word) :
    s.store ea n v =
      if ea.toNat + n ≤ s.params.memSize then
        .next ({ s with mem := s.mem.writeLE ea.toNat n v.toNat }.advance)
      else .fault (.outOfBounds ea.toNat n) := by
  unfold State.store
  rw [State.memWrite_nat]
  by_cases h : ea.toNat + n ≤ s.params.memSize <;> simp only [h, if_true, if_false]; rfl

/-! ### Fetch -/

/-- The fetched word (spec 40 R77). -/
theorem State.fetch_eq (s : State) :
    s.fetch = if s.pc.toNat + 4 ≤ s.params.memSize then some (BitVec.ofNat 32 (s.mem.readLE s.pc.toNat 4)) else none := by
  unfold State.fetch
  rw [State.memRead_nat]
  split <;> rfl

/-- The little-endian number of four bytes is the word with the first byte least significant (spec 20 R35). -/
theorem wordOfBytes_eq (m : Memory) (a : Nat) :
    BitVec.ofNat 32 (m.readLE a 4) = wordOfBytes (m.read a) (m.read (a + 1)) (m.read (a + 2)) (m.read (a + 3)) := by
  have h0 := (m.read a).isLt
  have h1 := (m.read (a + 1)).isLt
  have h2 := (m.read (a + 2)).isLt
  have h3 := (m.read (a + 3)).isLt
  apply BitVec.eq_of_toNat_eq
  have e : m.readLE a 4 = (m.read a).toNat + 256 * ((m.read (a + 1)).toNat + 256 * ((m.read (a + 2)).toNat +
      256 * (m.read (a + 3)).toNat)) := by
    simp [Memory.readLE, Memory.readBytes, leNat]
  rw [BitVec.toNat_ofNat, Nat.mod_eq_of_lt (by omega), e]
  simp only [wordOfBytes, BitVec.toNat_append]
  rw [← Nat.shiftLeft_add_eq_or_of_lt h2, ← Nat.shiftLeft_add_eq_or_of_lt h1, ← Nat.shiftLeft_add_eq_or_of_lt h0]
  simp only [Nat.shiftLeft_eq]
  omega

/-- A placed word is what the next fetch reads (spec 20 R49). -/
theorem State.fetch_placeWord (s : State) (w : Word) (h : s.pc.toNat + 4 ≤ s.params.memSize) :
    (s.placeWord w).fetch = some w := by
  have e : s.placeWord w = { s with mem := s.mem.writeLE s.pc.toNat 4 w.toNat } := by
    unfold State.placeWord; rw [State.memWrite_nat, if_pos h]
  rw [e, State.fetch_eq, if_pos (by exact h)]
  rw [Memory.readLE_writeLE]
  have := w.isLt
  rw [Nat.mod_eq_of_lt (by omega)]
  simp

end Sys2Proof.Machine
end

