-- ==== Sys2Proof/Laws/Step.lean ====
section
/-! SUPPORT. What one instruction and one step can do: the inversion lemmas the whole-machine statements rest on. -/

namespace Sys2Proof.Machine

/-- Where an instruction that answers a next state leaves the machine: one register and the pc written (register 0
where there is none), or bytes inside memory stored and the pc advanced, or, for the sentinel, nothing changed. -/
theorem exec_next_cases {i : Instr} {s t : State} (h : exec i s = .next t) :
    (∃ rd v npc, t = (s.setReg rd v).setPc npc) ∨
    (∃ (ea : Word) (n v : Nat), ea.toNat + n ≤ s.params.memSize ∧
      t = { s with mem := s.mem.writeLE ea.toNat n v }.advance) ∨
    (i = .halt ∧ t = s) := by
  have nop : ∀ npc, Host.Outcome.next (φ := Fault) (ρ := Refusal) (s.setPc npc) = .next t →
      ∃ rd v npc, t = (s.setReg rd v).setPc npc := fun npc h => by
    cases h; exact ⟨0#5, 0#32, npc, rfl⟩
  have load : ∀ rd ea n ext, s.load rd ea n ext = .next t → ∃ rd v npc, t = (s.setReg rd v).setPc npc :=
    fun rd ea n ext h => by
      rw [State.load_eq] at h
      split at h <;> cases h
      exact ⟨_, _, _, rfl⟩
  have store : ∀ ea n v, s.store ea n v = .next t → ∃ (ea : Word) (n v : Nat), ea.toNat + n ≤ s.params.memSize ∧
      t = { s with mem := s.mem.writeLE ea.toNat n v }.advance := fun ea n v h => by
    rw [State.store_eq] at h
    split at h <;> cases h
    exact ⟨_, _, _, ‹_›, rfl⟩
  cases i
  case lb | lh | lw | lbu | lhu => exact .inl (load _ _ _ _ h)
  case sb | sh | sw => exact .inr (.inl (store _ _ _ h))
  case beq | bne | blt | bge | bltu | bgeu | ecall | ebreak => exact .inl (nop _ h)
  case halt => cases h; exact .inr (.inr ⟨rfl, rfl⟩)
  all_goals (cases h; exact .inl ⟨_, _, _, rfl⟩)

/-- The only fault of an instruction is OutOfBounds, for a span that is not inside memory (spec 40 R83). -/
theorem exec_fault_cases {i : Instr} {s : State} {f : Fault} (h : exec i s = .fault f) :
    ∃ (ea : Word) (n : Nat), ¬ ea.toNat + n ≤ s.params.memSize ∧ f = .outOfBounds ea.toNat n := by
  have load : ∀ rd ea n ext, s.load rd ea n ext = .fault f →
      ∃ (ea : Word) (n : Nat), ¬ ea.toNat + n ≤ s.params.memSize ∧ f = .outOfBounds ea.toNat n :=
    fun rd ea n ext h => by
      rw [State.load_eq] at h
      split at h <;> cases h
      exact ⟨_, _, ‹_›, rfl⟩
  have store : ∀ ea n v, s.store ea n v = .fault f →
      ∃ (ea : Word) (n : Nat), ¬ ea.toNat + n ≤ s.params.memSize ∧ f = .outOfBounds ea.toNat n :=
    fun ea n v h => by
      rw [State.store_eq] at h
      split at h <;> cases h
      exact ⟨_, _, ‹_›, rfl⟩
  cases i
  case lb | lh | lw | lbu | lhu => exact load _ _ _ _ h
  case sb | sh | sw => exact store _ _ _ h
  all_goals cases h

/-- No instruction is refused: every one has its meaning. -/
theorem exec_ne_refused (i : Instr) (s : State) (r : Refusal) : exec i s ≠ .refused r := by
  have load : ∀ rd ea n ext, s.load rd ea n ext ≠ .refused r := fun rd ea n ext h => by
    rw [State.load_eq] at h
    split at h <;> cases h
  have store : ∀ ea n v, s.store ea n v ≠ .refused r := fun ea n v h => by
    rw [State.store_eq] at h
    split at h <;> cases h
  intro h
  cases i
  case lb | lh | lw | lbu | lhu => exact load _ _ _ _ h
  case sb | sh | sw => exact store _ _ _ h
  all_goals cases h

/-- What a step fetches and decodes, by the word at the pc. -/
theorem State.fetchDecode_of_fetch {s : State} {w : Word} (h : s.fetch = some w) :
    s.fetchDecode = match decodeWord w with
      | .ok i => .instr i
      | .error _ => .unknown w := by
  cases hd : decodeWord w <;> simp [State.fetchDecode, h, hd]

/-- A step that answers a next state was let through by the interrupt sample, and either passed over an unknown word
or executed the decoded instruction (spec 40 R75). -/
theorem step_next_cases {s t : State} (h : step s = .next t) :
    s.irqGate = none ∧
    ((∃ w, s.fetchDecode = .unknown w ∧ t = s.advance) ∨ (∃ i, s.fetchDecode = .instr i ∧ exec i s = .next t)) := by
  unfold step at h
  split at h
  · cases h
  · next hg =>
    refine ⟨hg, ?_⟩
    split at h
    · cases h
    · next w hf => cases h; exact .inl ⟨w, hf, rfl⟩
    · next i hf => exact .inr ⟨i, hf, h⟩

/-- The interrupt sample refuses only under IRQ_ACTION = refuse, with an interrupt pending (spec 40 R76). -/
theorem State.irqGate_eq_some {s : State} {r : Refusal} (h : s.irqGate = some r) :
    s.params.irqAction = .refuse ∧ ∃ id e, s.highestPending = some (id, e) ∧ r = .interruptPending id := by
  unfold State.irqGate at h
  split at h
  · cases h
  · next ha =>
    split at h
    · cases h
    · next id e hp => cases h; exact ⟨ha, id, e, hp, rfl⟩

end Sys2Proof.Machine
end

