-- ==== Sys2Proof/Laws/Notation.lean ====
section
/-! SUPPORT. The statements' notation of spec 00 R11 against the model's bit-vector operations. -/

namespace Sys2Proof.Spec

open Sys2Proof.Machine

theorem wrap32_eq_ofInt (n : Int) : wrap32 n = BitVec.ofInt 32 n := by
  apply BitVec.eq_of_toNat_eq
  simp only [wrap32, BitVec.toNat_ofNat, BitVec.toNat_ofInt]
  omega

theorem wrap32_eq_m32 (n : Int) : wrap32 n = Machine.m32 n := wrap32_eq_ofInt n

theorem wrap32_natCast (n : Nat) : wrap32 n = BitVec.ofNat 32 n := by
  apply BitVec.eq_of_toNat_eq
  simp only [wrap32, BitVec.toNat_ofNat]
  omega

theorem uval_eq_u (v : Word) : uval v = Machine.u v := rfl

/-- The two's-complement reading of a field (spec 00 R11). -/
theorem signed_toNat {n : Nat} (hn : 0 < n) (v : BitVec n) : signed n v.toNat = v.toInt := by
  have h := v.isLt
  have e : 2 ^ n = 2 * 2 ^ (n - 1) := by
    obtain ⟨m, rfl⟩ : ∃ m, n = m + 1 := ⟨n - 1, by omega⟩
    simp [Nat.pow_succ, Nat.mul_comm]
  have e' : (2 : Int) ^ n = ((2 ^ n : Nat) : Int) := by push_cast; rfl
  rw [BitVec.toInt_eq_toNat_cond, signed, e']
  by_cases hc : v.toNat < 2 ^ (n - 1)
  · rw [if_pos hc, if_pos (by omega)]
  · rw [if_neg hc, if_neg (by omega)]

theorem sval_eq_toInt (v : Word) : sval v = v.toInt := signed_toNat (by omega) v

theorem sval_eq_sg (v : Word) : sval v = sg v := sval_eq_toInt v

/-- The sign extension of a field is m32 of its signed reading (spec 00 R11, 30 R53). -/
theorem wrap32_signed {n : Nat} (hn : 0 < n) (v : BitVec n) : wrap32 (signed n v.toNat) = sext v := by
  rw [signed_toNat hn, wrap32_eq_ofInt]; rfl

theorem wrap32_add (a b : Word) : wrap32 (uval a + uval b) = a + b := by
  apply BitVec.eq_of_toNat_eq
  simp only [wrap32, uval, BitVec.toNat_ofNat, BitVec.toNat_add]
  omega

theorem wrap32_sub (a b : Word) : wrap32 (uval a - uval b) = a - b := by
  have := a.isLt
  have := b.isLt
  apply BitVec.eq_of_toNat_eq
  simp only [wrap32, uval, BitVec.toNat_ofNat, BitVec.toNat_sub]
  omega

/-- An unsigned sum with a signed displacement, mod 2^32 (spec 41 R86, 46 R127). -/
theorem wrap32_add_signed {n : Nat} (hn : 0 < n) (a : Word) (v : BitVec n) :
    wrap32 (uval a + signed n v.toNat) = a + sext v := by
  rw [← wrap32_signed hn v, ← wrap32_add]
  apply BitVec.eq_of_toNat_eq
  simp only [wrap32, uval, BitVec.toNat_ofNat]
  omega

/-- The next pc (spec 10 R22). -/
theorem wrap32_add_four (a : Word) : wrap32 (uval a + 4) = a + 4#32 := wrap32_add a 4#32

theorem ltS_iff (a b : Word) : ltS a b = true ↔ sval a < sval b := by
  rw [sval_eq_toInt, sval_eq_toInt]; simp [ltS, BitVec.slt_iff_toInt_lt]

theorem ltU_iff (a b : Word) : ltU a b = true ↔ uval a < uval b := by
  simp [ltU, uval, BitVec.ult_iff_lt, BitVec.lt_def]

/-- The sum over the bytes is the little-endian number (spec 20 R36). -/
theorem leSum_eq_readLE (m : Memory) (a n : Nat) : leSum m a n = m.readLE a n := by
  induction n generalizing a with
  | zero => rfl
  | succ n ih =>
    have h := ih (a + 1)
    simp only [leSum] at h ⊢
    rw [Finset.sum_range_succ']
    have e : ∀ k, (m.read (a + (k + 1))).toNat * 2 ^ (8 * (k + 1)) =
        256 * ((m.read (a + 1 + k)).toNat * 2 ^ (8 * k)) := fun k => by
      rw [show a + (k + 1) = a + 1 + k by omega, show 8 * (k + 1) = 8 * k + 8 by omega, Nat.pow_add]
      ring
    simp only [e, ← Finset.mul_sum, h]
    simp [Memory.readLE, Memory.readBytes, leNat, Nat.add_comm]

/-- The statements' word at the pc is what the fetch reads (spec 40 R77). -/
theorem atPc_iff_fetch (s : State) (w : Word) : AtPc s w ↔ s.fetch = some w := by
  rw [State.fetch_eq, AtPc, leSum_eq_readLE]
  by_cases h : s.pc.toNat + 4 ≤ s.params.memSize
  · simp only [h, true_and, if_true, Option.some.injEq, eq_comm]
  · simp [h]

/-- The statements' condition on the sample is the step's gate (spec 40 R76). -/
theorem sampleLetsThrough_iff (s : State) : SampleLetsThrough s ↔ s.irqGate = none := by
  unfold SampleLetsThrough State.irqGate
  cases s.params.irqAction with
  | ignore => simp
  | refuse =>
    cases h : s.highestPending with
    | none => simp
    | some p => simp

end Sys2Proof.Spec
end

