-- ==== Sys2Proof/Laws/PerInstr.lean ====
section
/-! SUPPORT. The family EncodeRow: every instruction's word is one of its own row of spec/opcode_table.json. -/

namespace Sys2Proof.Laws.EncodeRow

/-- The word of the instruction is of its own row: the row's mask gives the row's match, and no bit of the match lies
outside the mask. The sentinel's row is the word 0. -/
def Statement (i : Instr) : Prop :=
  (∃ r ∈ opcodeTable, r.mnemonic = i.mnemonic ∧ r.accepts (encode i) = true) ∨ (i.mnemonic = "HALT" ∧ encode i = 0#32)

theorem of_row {i : Instr} (r : OpcodeRow) (hr : r ∈ opcodeTable) (hm : r.mnemonic = i.mnemonic)
    (ha : encode i &&& r.mask = r.pattern) : Statement i :=
  .inl ⟨r, hr, hm, by simpa [OpcodeRow.accepts] using ha⟩

theorem maskR_encodeR (f7 : BitVec 7) (rs2 rs1 : BitVec 5) (f3 : BitVec 3) (rd : Reg) (op : BitVec 7) :
    encodeR f7 rs2 rs1 f3 rd op &&& 0xFE00707F#32 = encodeR f7 0#5 0#5 f3 0#5 op := by simp [and_maskR]

theorem maskI_encodeI (imm : BitVec 12) (rs1 : Reg) (f3 : BitVec 3) (rd : Reg) (op : BitVec 7) :
    encodeI imm rs1 f3 rd op &&& 0x0000707F#32 = encodeR 0#7 0#5 0#5 f3 0#5 op := by simp [and_maskI]

theorem maskI_encodeS (imm : BitVec 12) (rs2 rs1 : Reg) (f3 : BitVec 3) (op : BitVec 7) :
    encodeS imm rs2 rs1 f3 op &&& 0x0000707F#32 = encodeR 0#7 0#5 0#5 f3 0#5 op := by simp [and_maskI]

theorem maskI_encodeB (imm : BitVec 13) (rs2 rs1 : Reg) (f3 : BitVec 3) (op : BitVec 7) :
    encodeB imm rs2 rs1 f3 op &&& 0x0000707F#32 = encodeR 0#7 0#5 0#5 f3 0#5 op := by simp [and_maskI]

theorem maskU_encodeU (imm : Word) (rd : Reg) (op : BitVec 7) :
    encodeU imm rd op &&& 0x0000007F#32 = encodeR 0#7 0#5 0#5 0#3 0#5 op := by simp [and_maskU]

theorem maskU_encodeJ (imm : BitVec 21) (rd : Reg) (op : BitVec 7) :
    encodeJ imm rd op &&& 0x0000007F#32 = encodeR 0#7 0#5 0#5 0#3 0#5 op := by simp [and_maskU]

theorem lb (rd rs1 : Reg) (imm : BitVec 12) : Statement (.lb rd rs1 imm) :=
  of_row (opcodeTable[0]) (List.getElem_mem _) rfl ((maskI_encodeI ..).trans rfl)

theorem lh (rd rs1 : Reg) (imm : BitVec 12) : Statement (.lh rd rs1 imm) :=
  of_row (opcodeTable[1]) (List.getElem_mem _) rfl ((maskI_encodeI ..).trans rfl)

theorem lw (rd rs1 : Reg) (imm : BitVec 12) : Statement (.lw rd rs1 imm) :=
  of_row (opcodeTable[2]) (List.getElem_mem _) rfl ((maskI_encodeI ..).trans rfl)

theorem lbu (rd rs1 : Reg) (imm : BitVec 12) : Statement (.lbu rd rs1 imm) :=
  of_row (opcodeTable[3]) (List.getElem_mem _) rfl ((maskI_encodeI ..).trans rfl)

theorem lhu (rd rs1 : Reg) (imm : BitVec 12) : Statement (.lhu rd rs1 imm) :=
  of_row (opcodeTable[4]) (List.getElem_mem _) rfl ((maskI_encodeI ..).trans rfl)

theorem addi (rd rs1 : Reg) (imm : BitVec 12) : Statement (.addi rd rs1 imm) :=
  of_row (opcodeTable[5]) (List.getElem_mem _) rfl ((maskI_encodeI ..).trans rfl)

theorem slti (rd rs1 : Reg) (imm : BitVec 12) : Statement (.slti rd rs1 imm) :=
  of_row (opcodeTable[6]) (List.getElem_mem _) rfl ((maskI_encodeI ..).trans rfl)

theorem sltiu (rd rs1 : Reg) (imm : BitVec 12) : Statement (.sltiu rd rs1 imm) :=
  of_row (opcodeTable[7]) (List.getElem_mem _) rfl ((maskI_encodeI ..).trans rfl)

theorem xori (rd rs1 : Reg) (imm : BitVec 12) : Statement (.xori rd rs1 imm) :=
  of_row (opcodeTable[8]) (List.getElem_mem _) rfl ((maskI_encodeI ..).trans rfl)

theorem ori (rd rs1 : Reg) (imm : BitVec 12) : Statement (.ori rd rs1 imm) :=
  of_row (opcodeTable[9]) (List.getElem_mem _) rfl ((maskI_encodeI ..).trans rfl)

theorem andi (rd rs1 : Reg) (imm : BitVec 12) : Statement (.andi rd rs1 imm) :=
  of_row (opcodeTable[10]) (List.getElem_mem _) rfl ((maskI_encodeI ..).trans rfl)

theorem slli (rd rs1 : Reg) (shamt : BitVec 5) : Statement (.slli rd rs1 shamt) :=
  of_row (opcodeTable[11]) (List.getElem_mem _) rfl ((maskR_encodeR ..).trans rfl)

theorem srli (rd rs1 : Reg) (shamt : BitVec 5) : Statement (.srli rd rs1 shamt) :=
  of_row (opcodeTable[12]) (List.getElem_mem _) rfl ((maskR_encodeR ..).trans rfl)

theorem srai (rd rs1 : Reg) (shamt : BitVec 5) : Statement (.srai rd rs1 shamt) :=
  of_row (opcodeTable[13]) (List.getElem_mem _) rfl ((maskR_encodeR ..).trans rfl)

theorem auipc (rd : Reg) (imm : Word) : Statement (.auipc rd imm) :=
  of_row (opcodeTable[41]) (List.getElem_mem _) rfl ((maskU_encodeU ..).trans rfl)

theorem sb (rs1 rs2 : Reg) (imm : BitVec 12) : Statement (.sb rs1 rs2 imm) :=
  of_row (opcodeTable[14]) (List.getElem_mem _) rfl ((maskI_encodeS ..).trans rfl)

theorem sh (rs1 rs2 : Reg) (imm : BitVec 12) : Statement (.sh rs1 rs2 imm) :=
  of_row (opcodeTable[15]) (List.getElem_mem _) rfl ((maskI_encodeS ..).trans rfl)

theorem sw (rs1 rs2 : Reg) (imm : BitVec 12) : Statement (.sw rs1 rs2 imm) :=
  of_row (opcodeTable[16]) (List.getElem_mem _) rfl ((maskI_encodeS ..).trans rfl)

theorem add (rd rs1 rs2 : Reg) : Statement (.add rd rs1 rs2) :=
  of_row (opcodeTable[17]) (List.getElem_mem _) rfl ((maskR_encodeR ..).trans rfl)

theorem sub (rd rs1 rs2 : Reg) : Statement (.sub rd rs1 rs2) :=
  of_row (opcodeTable[18]) (List.getElem_mem _) rfl ((maskR_encodeR ..).trans rfl)

theorem sll (rd rs1 rs2 : Reg) : Statement (.sll rd rs1 rs2) :=
  of_row (opcodeTable[19]) (List.getElem_mem _) rfl ((maskR_encodeR ..).trans rfl)

theorem slt (rd rs1 rs2 : Reg) : Statement (.slt rd rs1 rs2) :=
  of_row (opcodeTable[20]) (List.getElem_mem _) rfl ((maskR_encodeR ..).trans rfl)

theorem sltu (rd rs1 rs2 : Reg) : Statement (.sltu rd rs1 rs2) :=
  of_row (opcodeTable[21]) (List.getElem_mem _) rfl ((maskR_encodeR ..).trans rfl)

theorem xor (rd rs1 rs2 : Reg) : Statement (.xor rd rs1 rs2) :=
  of_row (opcodeTable[22]) (List.getElem_mem _) rfl ((maskR_encodeR ..).trans rfl)

theorem srl (rd rs1 rs2 : Reg) : Statement (.srl rd rs1 rs2) :=
  of_row (opcodeTable[23]) (List.getElem_mem _) rfl ((maskR_encodeR ..).trans rfl)

theorem sra (rd rs1 rs2 : Reg) : Statement (.sra rd rs1 rs2) :=
  of_row (opcodeTable[24]) (List.getElem_mem _) rfl ((maskR_encodeR ..).trans rfl)

theorem or (rd rs1 rs2 : Reg) : Statement (.or rd rs1 rs2) :=
  of_row (opcodeTable[25]) (List.getElem_mem _) rfl ((maskR_encodeR ..).trans rfl)

theorem and (rd rs1 rs2 : Reg) : Statement (.and rd rs1 rs2) :=
  of_row (opcodeTable[26]) (List.getElem_mem _) rfl ((maskR_encodeR ..).trans rfl)

theorem mul (rd rs1 rs2 : Reg) : Statement (.mul rd rs1 rs2) :=
  of_row (opcodeTable[27]) (List.getElem_mem _) rfl ((maskR_encodeR ..).trans rfl)

theorem mulh (rd rs1 rs2 : Reg) : Statement (.mulh rd rs1 rs2) :=
  of_row (opcodeTable[28]) (List.getElem_mem _) rfl ((maskR_encodeR ..).trans rfl)

theorem mulhsu (rd rs1 rs2 : Reg) : Statement (.mulhsu rd rs1 rs2) :=
  of_row (opcodeTable[29]) (List.getElem_mem _) rfl ((maskR_encodeR ..).trans rfl)

theorem mulhu (rd rs1 rs2 : Reg) : Statement (.mulhu rd rs1 rs2) :=
  of_row (opcodeTable[30]) (List.getElem_mem _) rfl ((maskR_encodeR ..).trans rfl)

theorem div (rd rs1 rs2 : Reg) : Statement (.div rd rs1 rs2) :=
  of_row (opcodeTable[31]) (List.getElem_mem _) rfl ((maskR_encodeR ..).trans rfl)

theorem divu (rd rs1 rs2 : Reg) : Statement (.divu rd rs1 rs2) :=
  of_row (opcodeTable[32]) (List.getElem_mem _) rfl ((maskR_encodeR ..).trans rfl)

theorem rem (rd rs1 rs2 : Reg) : Statement (.rem rd rs1 rs2) :=
  of_row (opcodeTable[33]) (List.getElem_mem _) rfl ((maskR_encodeR ..).trans rfl)

theorem remu (rd rs1 rs2 : Reg) : Statement (.remu rd rs1 rs2) :=
  of_row (opcodeTable[34]) (List.getElem_mem _) rfl ((maskR_encodeR ..).trans rfl)

theorem lui (rd : Reg) (imm : Word) : Statement (.lui rd imm) :=
  of_row (opcodeTable[42]) (List.getElem_mem _) rfl ((maskU_encodeU ..).trans rfl)

theorem beq (rs1 rs2 : Reg) (imm : BitVec 13) : Statement (.beq rs1 rs2 imm) :=
  of_row (opcodeTable[35]) (List.getElem_mem _) rfl ((maskI_encodeB ..).trans rfl)

theorem bne (rs1 rs2 : Reg) (imm : BitVec 13) : Statement (.bne rs1 rs2 imm) :=
  of_row (opcodeTable[36]) (List.getElem_mem _) rfl ((maskI_encodeB ..).trans rfl)

theorem blt (rs1 rs2 : Reg) (imm : BitVec 13) : Statement (.blt rs1 rs2 imm) :=
  of_row (opcodeTable[37]) (List.getElem_mem _) rfl ((maskI_encodeB ..).trans rfl)

theorem bge (rs1 rs2 : Reg) (imm : BitVec 13) : Statement (.bge rs1 rs2 imm) :=
  of_row (opcodeTable[38]) (List.getElem_mem _) rfl ((maskI_encodeB ..).trans rfl)

theorem bltu (rs1 rs2 : Reg) (imm : BitVec 13) : Statement (.bltu rs1 rs2 imm) :=
  of_row (opcodeTable[39]) (List.getElem_mem _) rfl ((maskI_encodeB ..).trans rfl)

theorem bgeu (rs1 rs2 : Reg) (imm : BitVec 13) : Statement (.bgeu rs1 rs2 imm) :=
  of_row (opcodeTable[40]) (List.getElem_mem _) rfl ((maskI_encodeB ..).trans rfl)

theorem jalr (rd rs1 : Reg) (imm : BitVec 12) : Statement (.jalr rd rs1 imm) :=
  of_row (opcodeTable[43]) (List.getElem_mem _) rfl ((maskI_encodeI ..).trans rfl)

theorem jal (rd : Reg) (imm : BitVec 21) : Statement (.jal rd imm) :=
  of_row (opcodeTable[44]) (List.getElem_mem _) rfl ((maskU_encodeJ ..).trans rfl)

theorem ecall : Statement .ecall :=
  of_row (opcodeTable[45]) (List.getElem_mem _) rfl (rfl)

theorem ebreak : Statement .ebreak :=
  of_row (opcodeTable[46]) (List.getElem_mem _) rfl (rfl)

theorem halt : Statement .halt := .inr ⟨rfl, rfl⟩

end Sys2Proof.Laws.EncodeRow
end

