-- ==== Sys2Proof/Laws/Ports.lean ====
section
/-! SUPPORT. The ports: the state after an outcome, and what each shared port operation answers. -/

namespace Sys2Proof.Machine

@[simp] theorem PortOutcome.after_ok {α : Type} (a : α) (t s : State) : (PortOutcome.ok a t).after s = t := rfl

@[simp] theorem PortOutcome.after_error {α : Type} (e : PortError) (s : State) :
    (PortOutcome.error e : PortOutcome α).after s = s := rfl

@[simp] theorem PortOutcome.after_refused {α : Type} (r : PortRefusal) (s : State) :
    (PortOutcome.refused r : PortOutcome α).after s = s := rfl

@[simp] theorem PortOutcome.after_map {α β : Type} (f : α → β) (o : PortOutcome α) (s : State) :
    (o.map f).after s = o.after s := by
  cases o <;> rfl

/-- An index in range is its register, and any other is none (spec 10 R18). -/
theorem portReg?_eq_some {n : Int} (h : 0 ≤ n ∧ n ≤ 31) : portReg? n = some (BitVec.ofNat 5 n.toNat) := if_pos h

theorem portReg?_eq_none {n : Int} (h : n < 0 ∨ 31 < n) : portReg? n = none := if_neg (by omega)

/-- A read port, inside memory and outside (spec 20 R36). -/
theorem State.portReadN_eq (s : State) (a : Int) (n : Nat) :
    s.portReadN a n =
      if 0 ≤ a ∧ a + n ≤ s.params.memSize then .ok (s.mem.readLE a.toNat n) s else .error (.outOfBounds a n) := by
  unfold State.portReadN State.memRead
  by_cases h : inBounds s.params.memSize a n = true
  · rw [if_pos h, if_pos ((inBounds_iff _ _ _).mp h)]
  · rw [if_neg h, if_neg (fun e => h ((inBounds_iff _ _ _).mpr e))]

/-- A write port, inside memory and outside (spec 20 R37). -/
theorem State.portWriteN_eq (s : State) (a : Int) (n : Nat) (v : Int) :
    s.portWriteN a n v =
      if 0 ≤ a ∧ a + n ≤ s.params.memSize then
        .ok () { s with mem := s.mem.writeLE a.toNat n (v % (2 ^ (8 * n) : Int)).toNat }
      else .error (.outOfBounds a n) := by
  unfold State.portWriteN State.memWrite
  by_cases h : inBounds s.params.memSize a n = true
  · rw [if_pos h, if_pos ((inBounds_iff _ _ _).mp h)]
  · rw [if_neg h, if_neg (fun e => h ((inBounds_iff _ _ _).mpr e))]

/-- A block write, inside memory and outside (spec 20 R39). -/
theorem portWriteBlock_eq (a : Int) (bs : List Byte) (s : State) :
    portWriteBlock a bs s =
      if 0 ≤ a ∧ a + bs.length ≤ s.params.memSize then .ok () { s with mem := s.mem.writeBytes a.toNat bs }
      else .error (.outOfBounds a bs.length) := by
  unfold portWriteBlock
  by_cases h : inBounds s.params.memSize a bs.length = true
  · rw [if_pos h, if_pos ((inBounds_iff _ _ _).mp h)]
  · rw [if_neg h, if_neg (fun e => h ((inBounds_iff _ _ _).mpr e))]

/-- A width fits exactly where every bound there is, is kept (spec 93 I10). -/
theorem fitsBits_iff (width : Option Nat) (n : Nat) : fitsBits width n = true ↔ ∀ k, width = some k → n < 2 ^ k := by
  cases width <;> simp [fitsBits]

/-- The state after a step taken as a port transaction: the next state, or the state before (spec 60 R150). -/
theorem portStep_after (s : State) : (portStep s).after s = s ∨ step s = .next ((portStep s).after s) := by
  unfold portStep
  cases h : step s with
  | next t => exact .inr rfl
  | fault f => cases f; exact .inl rfl
  | refused r => exact .inl rfl

/-- The status of a step, by what the step answers: the error it raised (spec 40 R84). -/
theorem stepStatus_of_fault {s : State} {a n : Nat} (h : step s = .fault (.outOfBounds a n)) :
    stepStatus s = .outOfBounds a n := by
  unfold step at h
  unfold stepStatus
  cases hg : s.irqGate with
  | some r => rw [hg] at h; cases h
  | none =>
    rw [hg] at h
    cases hf : s.fetchDecode with
    | outOfBounds => rw [hf] at h; cases h; rfl
    | unknown w => rw [hf] at h; cases h
    | instr i =>
      simp only [hf] at h
      cases i <;> first | cases h | simp only [h]

/-- The status of a refused step is its refusal (spec 40 R76). -/
theorem stepStatus_of_refused {s : State} {r : Refusal} (h : step s = .refused r) : stepStatus s = .refused r := by
  unfold step at h
  unfold stepStatus
  cases hg : s.irqGate with
  | some q => rw [hg] at h; cases h; rfl
  | none =>
    rw [hg] at h
    cases hf : s.fetchDecode with
    | outOfBounds => rw [hf] at h; cases h
    | unknown w => rw [hf] at h; cases h
    | instr i => simp only [hf] at h; exact absurd h (exec_ne_refused i s r)

/-- The code of a step transaction is that of the step's status (spec 60 R149). -/
theorem transact_step_code (s : State) : (transact .step s).code = (stepStatus s).code := by
  cases h : step s with
  | next t => simp only [transact, portStep, h]; rfl
  | fault f =>
    cases f with
    | outOfBounds a n => rw [stepStatus_of_fault h]; simp only [transact, portStep, h]; rfl
  | refused r => rw [stepStatus_of_refused h]; simp only [transact, portStep, h]; rfl

end Sys2Proof.Machine
end

