-- ==== Sys2Proof/Tests/Slice0.lean ====
section
/-! SUPPORT. The model's own tests: every expected result is an example or a vector of the spec (the rule or the section
of spec 95 stands above each), never the model's own answer. And, for every statement with hypotheses, a witness that
meets them. -/

namespace Sys2Proof.Tests

open Sys2Proof.Machine Sys2Proof.Spec

/-! ### Helpers -/

/-- A start state: the state after reset with a pc, registers, memory bytes and the word `w` at the pc. -/
def start (pc w : Word) (rs : List (Reg × Word)) (m : Memory) : State :=
  (rs.foldl (fun (s : State) p => s.setReg p.1 p.2) { State.reset with pc := pc, mem := m }).placeWord w

/-- The state after one step. -/
def after (s : State) : Option State :=
  match step s with
  | .next t => some t
  | .fault _ => none
  | .refused _ => none

/-- A register and the pc after one step. -/
def regPc (r : Reg) (s : State) : Option (Word × Word) := (after s).map (fun t => (t.reg r, t.pc))

/-- The pc after one step. -/
def pcAfter (s : State) : Option Word := (after s).map (fun t => t.pc)

/-- The `n` bytes at `a` after one step. -/
def bytesAfter (a n : Nat) (s : State) : Option (List Byte) := (after s).map (fun t => t.mem.readBytes a n)

/-- The fault of one step. -/
def faultOf (s : State) : Option Fault :=
  match step s with
  | .next _ => none
  | .fault f => some f
  | .refused _ => none

/-- The refusal of one step. -/
def refusalOf (s : State) : Option Refusal :=
  match step s with
  | .next _ => none
  | .fault _ => none
  | .refused r => some r

/-- Whether a word is rejected by the decoder. -/
def rejected (w : Word) : Bool :=
  match decodeWord w with
  | .ok _ => false
  | .error _ => true

/-- The answer of a transaction issued after `ts`, from reset; `none` for an error or a refusal. -/
def answer (ts : List Txn) (t : Txn) : Option Resp :=
  match transact t (transactAll ts State.reset) with
  | .ok r _ => some r
  | .error _ => none
  | .refused _ => none

/-- The error of a transaction issued after `ts`, from reset. -/
def errorOf (ts : List Txn) (t : Txn) : Option PortError :=
  match transact t (transactAll ts State.reset) with
  | .ok _ _ => none
  | .error e => some e
  | .refused _ => none

/-! ### Well-formedness: one term for each check, and one that the check refuses (spec 30 R55 to R57) -/

theorem test_wellFormed_b_even : Instr.wellFormed (.beq 1#5 2#5 (-4096)) = true := by decide
theorem test_wellFormed_b_odd : Instr.wellFormed (.beq 1#5 2#5 3#13) = false := by decide
theorem test_wellFormed_j_even : Instr.wellFormed (.jal 1#5 1048574#21) = true := by decide
theorem test_wellFormed_j_odd : Instr.wellFormed (.jal 1#5 1#21) = false := by decide
theorem test_wellFormed_u_high : Instr.wellFormed (.lui 1#5 0xFFFFF000#32) = true := by decide
theorem test_wellFormed_u_low : Instr.wellFormed (.lui 1#5 0x00000001#32) = false := by decide
theorem test_wellFormed_auipc_low : Instr.wellFormed (.auipc 1#5 0x00000800#32) = false := by decide
theorem test_wellFormed_bgeu_odd : Instr.wellFormed (.bgeu 0#5 0#5 (-1)) = false := by decide

/-! ### Decoding: the words written out in spec 41 to 47 (the example of each rule) and 95 sections 2.1 and 2.2 -/

/-- R88 -/
theorem test_decode_lb : decodeWord 0x00008103#32 = .ok (.lb 2#5 1#5 0#12) := by decide
/-- R89 -/
theorem test_decode_lh : decodeWord 0x00209103#32 = .ok (.lh 2#5 1#5 2#12) := by decide
/-- R90 -/
theorem test_decode_lw : decodeWord 0xFFC0A103#32 = .ok (.lw 2#5 1#5 (-4)) := by decide
/-- R91 -/
theorem test_decode_lbu : decodeWord 0x0000C103#32 = .ok (.lbu 2#5 1#5 0#12) := by decide
/-- R92 -/
theorem test_decode_lhu : decodeWord 0x0020D103#32 = .ok (.lhu 2#5 1#5 2#12) := by decide
/-- R96 -/
theorem test_decode_addi : decodeWord 0xFFF10093#32 = .ok (.addi 1#5 2#5 (-1)) := by decide
/-- R97 -/
theorem test_decode_slti : decodeWord 0x00512093#32 = .ok (.slti 1#5 2#5 5#12) := by decide
/-- R98 -/
theorem test_decode_sltiu : decodeWord 0xFFF13093#32 = .ok (.sltiu 1#5 2#5 (-1)) := by decide
/-- R99 -/
theorem test_decode_xori : decodeWord 0xFFF14093#32 = .ok (.xori 1#5 2#5 (-1)) := by decide
/-- R100 -/
theorem test_decode_ori : decodeWord 0x0F016093#32 = .ok (.ori 1#5 2#5 0xF0#12) := by decide
/-- R101 -/
theorem test_decode_andi : decodeWord 0x0FF17093#32 = .ok (.andi 1#5 2#5 0xFF#12) := by decide
/-- R102 -/
theorem test_decode_slli : decodeWord 0x00411093#32 = .ok (.slli 1#5 2#5 4#5) := by decide
/-- R103 -/
theorem test_decode_srli : decodeWord 0x00415093#32 = .ok (.srli 1#5 2#5 4#5) := by decide
/-- R104 -/
theorem test_decode_srai : decodeWord 0x40415093#32 = .ok (.srai 1#5 2#5 4#5) := by decide
/-- R105 -/
theorem test_decode_auipc : decodeWord 0x12345097#32 = .ok (.auipc 1#5 0x12345000#32) := by decide
/-- R106 -/
theorem test_decode_lui : decodeWord 0x123450B7#32 = .ok (.lui 1#5 0x12345000#32) := by decide
/-- R93 -/
theorem test_decode_sb : decodeWord 0x002080A3#32 = .ok (.sb 1#5 2#5 1#12) := by decide
/-- R94 -/
theorem test_decode_sh : decodeWord 0x00209123#32 = .ok (.sh 1#5 2#5 2#12) := by decide
/-- R95 -/
theorem test_decode_sw : decodeWord 0x0020A023#32 = .ok (.sw 1#5 2#5 0#12) := by decide
/-- R107 -/
theorem test_decode_add : decodeWord 0x003100B3#32 = .ok (.add 1#5 2#5 3#5) := by decide
/-- R108 -/
theorem test_decode_sub : decodeWord 0x403100B3#32 = .ok (.sub 1#5 2#5 3#5) := by decide
/-- R109 -/
theorem test_decode_sll : decodeWord 0x003110B3#32 = .ok (.sll 1#5 2#5 3#5) := by decide
/-- R110 -/
theorem test_decode_slt : decodeWord 0x003120B3#32 = .ok (.slt 1#5 2#5 3#5) := by decide
/-- R111 -/
theorem test_decode_sltu : decodeWord 0x003130B3#32 = .ok (.sltu 1#5 2#5 3#5) := by decide
/-- R112 -/
theorem test_decode_xor : decodeWord 0x003140B3#32 = .ok (.xor 1#5 2#5 3#5) := by decide
/-- R113 -/
theorem test_decode_srl : decodeWord 0x003150B3#32 = .ok (.srl 1#5 2#5 3#5) := by decide
/-- R114 -/
theorem test_decode_sra : decodeWord 0x403150B3#32 = .ok (.sra 1#5 2#5 3#5) := by decide
/-- R115 -/
theorem test_decode_or : decodeWord 0x003160B3#32 = .ok (.or 1#5 2#5 3#5) := by decide
/-- R116 -/
theorem test_decode_and : decodeWord 0x003170B3#32 = .ok (.and 1#5 2#5 3#5) := by decide
/-- R119 -/
theorem test_decode_mul : decodeWord 0x023100B3#32 = .ok (.mul 1#5 2#5 3#5) := by decide
/-- R120 -/
theorem test_decode_mulh : decodeWord 0x023110B3#32 = .ok (.mulh 1#5 2#5 3#5) := by decide
/-- R121 -/
theorem test_decode_mulhsu : decodeWord 0x023120B3#32 = .ok (.mulhsu 1#5 2#5 3#5) := by decide
/-- R122 -/
theorem test_decode_mulhu : decodeWord 0x023130B3#32 = .ok (.mulhu 1#5 2#5 3#5) := by decide
/-- R123 -/
theorem test_decode_div : decodeWord 0x023140B3#32 = .ok (.div 1#5 2#5 3#5) := by decide
/-- R124 -/
theorem test_decode_divu : decodeWord 0x023150B3#32 = .ok (.divu 1#5 2#5 3#5) := by decide
/-- R125 -/
theorem test_decode_rem : decodeWord 0x023160B3#32 = .ok (.rem 1#5 2#5 3#5) := by decide
/-- R126 -/
theorem test_decode_remu : decodeWord 0x023170B3#32 = .ok (.remu 1#5 2#5 3#5) := by decide
/-- R132 -/
theorem test_decode_beq : decodeWord 0x00208463#32 = .ok (.beq 1#5 2#5 8#13) := by decide
/-- R133 -/
theorem test_decode_bne : decodeWord 0xFE209EE3#32 = .ok (.bne 1#5 2#5 (-4)) := by decide
/-- R134 -/
theorem test_decode_blt : decodeWord 0x0020C863#32 = .ok (.blt 1#5 2#5 16#13) := by decide
/-- R135 -/
theorem test_decode_bge : decodeWord 0x0020D863#32 = .ok (.bge 1#5 2#5 16#13) := by decide
/-- R136 -/
theorem test_decode_bltu : decodeWord 0x0020E863#32 = .ok (.bltu 1#5 2#5 16#13) := by decide
/-- R137 -/
theorem test_decode_bgeu : decodeWord 0x0020F863#32 = .ok (.bgeu 1#5 2#5 16#13) := by decide
/-- R138 -/
theorem test_decode_jal : decodeWord 0x001000EF#32 = .ok (.jal 1#5 2048#21) := by decide
/-- R139 -/
theorem test_decode_jalr : decodeWord 0x003100E7#32 = .ok (.jalr 1#5 2#5 3#12) := by decide
/-- R140 -/
theorem test_decode_ecall : decodeWord 0x00000073#32 = .ok (.ecall) := by decide
/-- R141 -/
theorem test_decode_ebreak : decodeWord 0x00100073#32 = .ok (.ebreak) := by decide
/-- R67 -/
theorem test_decode_halt : decodeWord 0x00000000#32 = .ok (.halt) := by decide

/-- spec 95 section 2.1 -/
theorem test_decode_imm_i_least : decodeWord 0x80000013#32 = .ok (.addi 0#5 0#5 (-2048)) := by decide
/-- spec 95 section 2.1 -/
theorem test_decode_imm_s_least : decodeWord 0x80002023#32 = .ok (.sw 0#5 0#5 (-2048)) := by decide
/-- spec 95 section 2.1 -/
theorem test_decode_imm_s_minus_one : decodeWord 0xFE002FA3#32 = .ok (.sw 0#5 0#5 (-1)) := by decide
/-- spec 95 section 2.1 -/
theorem test_decode_imm_b_most : decodeWord 0x7E000FE3#32 = .ok (.beq 0#5 0#5 4094#13) := by decide
/-- spec 95 section 2.1 -/
theorem test_decode_imm_b_least : decodeWord 0x80000063#32 = .ok (.beq 0#5 0#5 (-4096)) := by decide
/-- spec 95 section 2.1 -/
theorem test_decode_imm_j_most : decodeWord 0x7FFFF06F#32 = .ok (.jal 0#5 1048574#21) := by decide
/-- spec 95 section 2.1 -/
theorem test_decode_imm_j_least : decodeWord 0x8000006F#32 = .ok (.jal 0#5 (-1048576)) := by decide
/-- spec 95 section 2.1 -/
theorem test_decode_imm_u_top : decodeWord 0xFFFFF037#32 = .ok (.lui 0#5 0xFFFFF000#32) := by decide

/-- Every word that spec 95 section 2.2 calls unknown. -/
theorem test_decode_unknown_words :
    [0x00000001#32, 0x0000000F#32, 0x0000100F#32, 0x0000002F#32, 0x80000033#32, 0x40001033#32, 0x40007033#32, 0x40001013#32,
      0x02001013#32, 0x00003003#32, 0x00006003#32, 0x00003023#32, 0x00002063#32, 0x00001067#32, 0x00200073#32, 0x30200073#32,
      0x10500073#32, 0x00001073#32, 0x00008073#32, 0x000000F3#32, 0xFFFFFFFF#32].all rejected = true := by decide

/-- The host's table words: the bits the table gives no row are zero, and a word that no row takes is refused. -/
theorem test_decodeTableWord : decodeTableWord 32 0x003100B3 = some (.add 1#5 2#5 3#5) ∧
    decodeTableWord 32 0x00000001 = none := by decide

/-! ### One step of each instruction (spec 95 sections 2.3 to 2.11, and the example of the rule) -/

/-- 95 section 2.4 -/
theorem test_add_wraps :
    regPc 1#5 (start 0x100#32 0x003100B3#32 [(2#5, 0xFFFFFFFF#32), (3#5, 0x00000001#32)] []) = some (0x00000000#32, 0x104#32) := by decide
/-- 95 section 2.4 -/
theorem test_add_overflows :
    regPc 1#5 (start 0x100#32 0x003100B3#32 [(2#5, 0x7FFFFFFF#32), (3#5, 0x00000001#32)] []) = some (0x80000000#32, 0x104#32) := by decide
/-- 95 section 2.4 -/
theorem test_sub_borrows :
    regPc 1#5 (start 0x100#32 0x403100B3#32 [(2#5, 0x00000000#32), (3#5, 0x00000001#32)] []) = some (0xFFFFFFFF#32, 0x104#32) := by decide
/-- 95 section 2.4 -/
theorem test_sub_least :
    regPc 1#5 (start 0x100#32 0x403100B3#32 [(2#5, 0x80000000#32), (3#5, 0x00000001#32)] []) = some (0x7FFFFFFF#32, 0x104#32) := by decide
/-- 95 section 2.4 -/
theorem test_sll_by_32 :
    regPc 1#5 (start 0x100#32 0x003110B3#32 [(2#5, 0x00000001#32), (3#5, 0x00000020#32)] []) = some (0x00000001#32, 0x104#32) := by decide
/-- 95 section 2.4 -/
theorem test_sll_low_five :
    regPc 1#5 (start 0x100#32 0x003110B3#32 [(2#5, 0xFFFFFFFF#32), (3#5, 0xFFFFFFE4#32)] []) = some (0xFFFFFFF0#32, 0x104#32) := by decide
/-- 95 section 2.4 -/
theorem test_slt_signed :
    regPc 1#5 (start 0x100#32 0x003120B3#32 [(2#5, 0x80000000#32), (3#5, 0x7FFFFFFF#32)] []) = some (0x00000001#32, 0x104#32) := by decide
/-- 95 section 2.4 -/
theorem test_slt_equal :
    regPc 1#5 (start 0x100#32 0x003120B3#32 [(2#5, 0x00000005#32), (3#5, 0x00000005#32)] []) = some (0x00000000#32, 0x104#32) := by decide
/-- 95 section 2.4 -/
theorem test_sltu_less :
    regPc 1#5 (start 0x100#32 0x003130B3#32 [(2#5, 0x00000000#32), (3#5, 0xFFFFFFFF#32)] []) = some (0x00000001#32, 0x104#32) := by decide
/-- 95 section 2.4 -/
theorem test_sltu_not_less :
    regPc 1#5 (start 0x100#32 0x003130B3#32 [(2#5, 0xFFFFFFFF#32), (3#5, 0x00000000#32)] []) = some (0x00000000#32, 0x104#32) := by decide
/-- 95 section 2.4 -/
theorem test_xor_bits :
    regPc 1#5 (start 0x100#32 0x003140B3#32 [(2#5, 0xFFFFFFFF#32), (3#5, 0x12345678#32)] []) = some (0xEDCBA987#32, 0x104#32) := by decide
/-- 95 section 2.4 -/
theorem test_srl_by_32 :
    regPc 1#5 (start 0x100#32 0x003150B3#32 [(2#5, 0x80000000#32), (3#5, 0x00000020#32)] []) = some (0x80000000#32, 0x104#32) := by decide
/-- 95 section 2.4 -/
theorem test_srl_zeros :
    regPc 1#5 (start 0x100#32 0x003150B3#32 [(2#5, 0xF0000000#32), (3#5, 0x00000004#32)] []) = some (0x0F000000#32, 0x104#32) := by decide
/-- 95 section 2.4 -/
theorem test_sra_sign :
    regPc 1#5 (start 0x100#32 0x403150B3#32 [(2#5, 0xF0000000#32), (3#5, 0x00000004#32)] []) = some (0xFF000000#32, 0x104#32) := by decide
/-- 95 section 2.4 -/
theorem test_sra_by_36 :
    regPc 1#5 (start 0x100#32 0x403150B3#32 [(2#5, 0x70000000#32), (3#5, 0x00000024#32)] []) = some (0x07000000#32, 0x104#32) := by decide
/-- 95 section 2.4 -/
theorem test_or_bits :
    regPc 1#5 (start 0x100#32 0x003160B3#32 [(2#5, 0xF0F0F0F0#32), (3#5, 0x0F0F0F0F#32)] []) = some (0xFFFFFFFF#32, 0x104#32) := by decide
/-- 95 section 2.4 -/
theorem test_and_bits :
    regPc 1#5 (start 0x100#32 0x003170B3#32 [(2#5, 0xFFFFFFFF#32), (3#5, 0x0F0F0F0F#32)] []) = some (0x0F0F0F0F#32, 0x104#32) := by decide
/-- 95 section 2.5 -/
theorem test_mul_minus_ones :
    regPc 1#5 (start 0x100#32 0x023100B3#32 [(2#5, 0xFFFFFFFF#32), (3#5, 0xFFFFFFFF#32)] []) = some (0x00000001#32, 0x104#32) := by decide
/-- 95 section 2.5 -/
theorem test_mul_low_half :
    regPc 1#5 (start 0x100#32 0x023100B3#32 [(2#5, 0x00010000#32), (3#5, 0x00010000#32)] []) = some (0x00000000#32, 0x104#32) := by decide
/-- 95 section 2.5 -/
theorem test_mulh_mixed :
    regPc 1#5 (start 0x100#32 0x023110B3#32 [(2#5, 0xFFFFFFFF#32), (3#5, 0x00000001#32)] []) = some (0xFFFFFFFF#32, 0x104#32) := by decide
/-- 95 section 2.5 -/
theorem test_mulh_least :
    regPc 1#5 (start 0x100#32 0x023110B3#32 [(2#5, 0x80000000#32), (3#5, 0x80000000#32)] []) = some (0x40000000#32, 0x104#32) := by decide
/-- 95 section 2.5 -/
theorem test_mulhsu_mixed :
    regPc 1#5 (start 0x100#32 0x023120B3#32 [(2#5, 0x80000000#32), (3#5, 0xFFFFFFFF#32)] []) = some (0x80000000#32, 0x104#32) := by decide
/-- 95 section 2.5 -/
theorem test_mulhsu_one :
    regPc 1#5 (start 0x100#32 0x023120B3#32 [(2#5, 0x00000001#32), (3#5, 0xFFFFFFFF#32)] []) = some (0x00000000#32, 0x104#32) := by decide
/-- 95 section 2.5 -/
theorem test_mulhu_most :
    regPc 1#5 (start 0x100#32 0x023130B3#32 [(2#5, 0xFFFFFFFF#32), (3#5, 0xFFFFFFFF#32)] []) = some (0xFFFFFFFE#32, 0x104#32) := by decide
/-- 95 section 2.5 -/
theorem test_mulhu_carry :
    regPc 1#5 (start 0x100#32 0x023130B3#32 [(2#5, 0x80000000#32), (3#5, 0x00000002#32)] []) = some (0x00000001#32, 0x104#32) := by decide
/-- 95 section 2.5 -/
theorem test_div_truncates :
    regPc 1#5 (start 0x100#32 0x023140B3#32 [(2#5, 0xFFFFFFF9#32), (3#5, 0x00000002#32)] []) = some (0xFFFFFFFD#32, 0x104#32) := by decide
/-- 95 section 2.5 -/
theorem test_div_overflow :
    regPc 1#5 (start 0x100#32 0x023140B3#32 [(2#5, 0x80000000#32), (3#5, 0xFFFFFFFF#32)] []) = some (0x80000000#32, 0x104#32) := by decide
/-- 95 section 2.5 -/
theorem test_divu_unsigned :
    regPc 1#5 (start 0x100#32 0x023150B3#32 [(2#5, 0xFFFFFFF9#32), (3#5, 0x00000002#32)] []) = some (0x7FFFFFFC#32, 0x104#32) := by decide
/-- 95 section 2.5 -/
theorem test_divu_by_zero :
    regPc 1#5 (start 0x100#32 0x023150B3#32 [(2#5, 0x00000005#32), (3#5, 0x00000000#32)] []) = some (0xFFFFFFFF#32, 0x104#32) := by decide
/-- 95 section 2.5 -/
theorem test_rem_sign :
    regPc 1#5 (start 0x100#32 0x023160B3#32 [(2#5, 0xFFFFFFF9#32), (3#5, 0x00000002#32)] []) = some (0xFFFFFFFF#32, 0x104#32) := by decide
/-- 95 section 2.5 -/
theorem test_rem_by_zero :
    regPc 1#5 (start 0x100#32 0x023160B3#32 [(2#5, 0xFFFFFFF9#32), (3#5, 0x00000000#32)] []) = some (0xFFFFFFF9#32, 0x104#32) := by decide
/-- 95 section 2.5 -/
theorem test_remu_unsigned :
    regPc 1#5 (start 0x100#32 0x023170B3#32 [(2#5, 0xFFFFFFF9#32), (3#5, 0x00000010#32)] []) = some (0x00000009#32, 0x104#32) := by decide
/-- 95 section 2.5 -/
theorem test_remu_by_zero :
    regPc 1#5 (start 0x100#32 0x023170B3#32 [(2#5, 0x00000005#32), (3#5, 0x00000000#32)] []) = some (0x00000005#32, 0x104#32) := by decide

/-- 95 section 2.4: every operand is read before the write (R81) -/
theorem test_add_aliased :
    regPc 2#5 (start 0x100#32 0x00210133#32 [(2#5, 0x80000001#32)] []) = some (0x00000002#32, 0x104#32) := by decide
/-- 95 section 2.4: x0 stays 0 (R16) -/
theorem test_add_to_x0 :
    regPc 0#5 (start 0x100#32 0x00310033#32 [(2#5, 1#32), (3#5, 2#32)] []) = some (0#32, 0x104#32) := by decide

/-- 95 section 2.6 -/
theorem test_addi_overflows :
    regPc 1#5 (start 0x100#32 0x00110093#32 [(2#5, 0x7FFFFFFF#32)] []) = some (0x80000000#32, 0x104#32) := by decide
/-- 95 section 2.6 -/
theorem test_addi_least :
    regPc 1#5 (start 0x100#32 0x80010093#32 [(2#5, 0x00000005#32)] []) = some (0xFFFFF805#32, 0x104#32) := by decide
/-- 95 section 2.6 -/
theorem test_slti_least :
    regPc 1#5 (start 0x100#32 0x80012093#32 [(2#5, 0x80000000#32)] []) = some (0x00000001#32, 0x104#32) := by decide
/-- 95 section 2.6 -/
theorem test_slti_minus_one :
    regPc 1#5 (start 0x100#32 0xFFF12093#32 [(2#5, 0x00000000#32)] []) = some (0x00000000#32, 0x104#32) := by decide
/-- 95 section 2.6 -/
theorem test_sltiu_extends :
    regPc 1#5 (start 0x100#32 0xFFF13093#32 [(2#5, 0xFFFFFFFE#32)] []) = some (0x00000001#32, 0x104#32) := by decide
/-- 95 section 2.6 -/
theorem test_sltiu_equal :
    regPc 1#5 (start 0x100#32 0x00113093#32 [(2#5, 0x00000001#32)] []) = some (0x00000000#32, 0x104#32) := by decide
/-- 95 section 2.6 -/
theorem test_xori_not :
    regPc 1#5 (start 0x100#32 0xFFF14093#32 [(2#5, 0x12345678#32)] []) = some (0xEDCBA987#32, 0x104#32) := by decide
/-- 95 section 2.6 -/
theorem test_xori_extends :
    regPc 1#5 (start 0x100#32 0x80014093#32 [(2#5, 0x00000000#32)] []) = some (0xFFFFF800#32, 0x104#32) := by decide
/-- 95 section 2.6 -/
theorem test_ori_extends :
    regPc 1#5 (start 0x100#32 0x80016093#32 [(2#5, 0x00000000#32)] []) = some (0xFFFFF800#32, 0x104#32) := by decide
/-- 95 section 2.6 -/
theorem test_andi_most :
    regPc 1#5 (start 0x100#32 0x7FF17093#32 [(2#5, 0xFFFFFFFF#32)] []) = some (0x000007FF#32, 0x104#32) := by decide
/-- 95 section 2.6 -/
theorem test_andi_extends :
    regPc 1#5 (start 0x100#32 0xFF017093#32 [(2#5, 0x12345678#32)] []) = some (0x12345670#32, 0x104#32) := by decide
/-- 95 section 2.6 -/
theorem test_slli_by_31 :
    regPc 1#5 (start 0x100#32 0x01F11093#32 [(2#5, 0xFFFFFFFF#32)] []) = some (0x80000000#32, 0x104#32) := by decide
/-- 95 section 2.6 -/
theorem test_slli_by_0 :
    regPc 1#5 (start 0x100#32 0x00011093#32 [(2#5, 0x00000003#32)] []) = some (0x00000003#32, 0x104#32) := by decide
/-- 95 section 2.6 -/
theorem test_srli_by_31 :
    regPc 1#5 (start 0x100#32 0x01F15093#32 [(2#5, 0xFFFFFFFF#32)] []) = some (0x00000001#32, 0x104#32) := by decide
/-- 95 section 2.6 -/
theorem test_srli_by_0 :
    regPc 1#5 (start 0x100#32 0x00015093#32 [(2#5, 0xFFFFFFFF#32)] []) = some (0xFFFFFFFF#32, 0x104#32) := by decide
/-- 95 section 2.6 -/
theorem test_srai_by_31 :
    regPc 1#5 (start 0x100#32 0x41F15093#32 [(2#5, 0x80000000#32)] []) = some (0xFFFFFFFF#32, 0x104#32) := by decide
/-- 95 section 2.6 -/
theorem test_srai_by_4 :
    regPc 1#5 (start 0x100#32 0x40415093#32 [(2#5, 0xFFFFFF00#32)] []) = some (0xFFFFFFF0#32, 0x104#32) := by decide

/-- 95 section 2.7 -/
theorem test_lui_top :
    regPc 1#5 (start 0x00000100#32 0x800000B7#32 [] []) = some (0x80000000#32, 0x00000104#32) := by decide
/-- 95 section 2.7 -/
theorem test_auipc_wraps :
    regPc 1#5 (start 0x00001000#32 0xFFFFF097#32 [] []) = some (0x00000000#32, 0x00001004#32) := by decide
/-- 95 section 2.7 -/
theorem test_auipc_high :
    regPc 1#5 (start 0x00000100#32 0x80000097#32 [] []) = some (0x80000100#32, 0x00000104#32) := by decide

/-- Bytes 80 FF 7F 01 at 0x200 (95 section 2.8). -/
def loadBytes : Memory := [(0x200, 0x80#8), (0x201, 0xFF#8), (0x202, 0x7F#8), (0x203, 0x01#8)]

/-- 95 section 2.8 -/
theorem test_lb_sign :
    regPc 1#5 (start 0x100#32 0x00010083#32 [(2#5, 0x00000200#32)] loadBytes) = some (0xFFFFFF80#32, 0x104#32) := by decide
/-- 95 section 2.8 -/
theorem test_lb_past_end :
    faultOf (start 0x100#32 0x00010083#32 [(2#5, 0x00100000#32)] loadBytes) = some (.outOfBounds 0x100000 1) := by decide
/-- 95 section 2.8 -/
theorem test_lh_sign :
    regPc 1#5 (start 0x100#32 0x00011083#32 [(2#5, 0x00000200#32)] loadBytes) = some (0xFFFFFF80#32, 0x104#32) := by decide
/-- 95 section 2.8 -/
theorem test_lh_odd :
    regPc 1#5 (start 0x100#32 0x00111083#32 [(2#5, 0x00000200#32)] loadBytes) = some (0x00007FFF#32, 0x104#32) := by decide
/-- 95 section 2.8 -/
theorem test_lw_misaligned :
    regPc 1#5 (start 0x100#32 0x00112083#32 [(2#5, 0x00000200#32)] loadBytes) = some (0x00017FFF#32, 0x104#32) := by decide
/-- 95 section 2.8 -/
theorem test_lw_wraps_then_faults :
    faultOf (start 0x100#32 0xFFC12083#32 [(2#5, 0x00000000#32)] loadBytes) = some (.outOfBounds 0xfffffffc 4) := by decide
/-- 95 section 2.8 -/
theorem test_lbu_zero :
    regPc 1#5 (start 0x100#32 0x00014083#32 [(2#5, 0x00000200#32)] loadBytes) = some (0x00000080#32, 0x104#32) := by decide
/-- 95 section 2.8 -/
theorem test_lhu_zero :
    regPc 1#5 (start 0x100#32 0x00015083#32 [(2#5, 0x00000200#32)] loadBytes) = some (0x0000FF80#32, 0x104#32) := by decide

/-- 95 section 2.9 -/
theorem test_sb_low_byte :
    bytesAfter 0x2ff 3 (start 0x100#32 0x00310023#32 [(2#5, 0x00000300#32), (3#5, 0x12345678#32)] []) = some [0x00#8, 0x78#8, 0x00#8] := by decide
/-- 95 section 2.9 -/
theorem test_sb_negative :
    bytesAfter 0x300 1 (start 0x100#32 0xFE310E23#32 [(2#5, 0x00000304#32), (3#5, 0x00000001#32)] []) = some [0x01#8] := by decide
/-- 95 section 2.9 -/
theorem test_sh_odd :
    bytesAfter 0x300 4 (start 0x100#32 0x003110A3#32 [(2#5, 0x00000300#32), (3#5, 0x12345678#32)] []) = some [0x00#8, 0x78#8, 0x56#8, 0x00#8] := by decide
/-- 95 section 2.9 -/
theorem test_sh_past_end :
    faultOf (start 0x100#32 0x00311023#32 [(2#5, 0x000FFFFF#32), (3#5, 0x12345678#32)] []) = some (.outOfBounds 0xfffff 2) := by decide
/-- 95 section 2.9 -/
theorem test_sw_misaligned :
    bytesAfter 0x301 6 (start 0x100#32 0x00312123#32 [(2#5, 0x00000300#32), (3#5, 0x12345678#32)] []) = some [0x00#8, 0x78#8, 0x56#8, 0x34#8, 0x12#8, 0x00#8] := by decide
/-- 95 section 2.9 -/
theorem test_sw_past_end :
    faultOf (start 0x100#32 0x00312023#32 [(2#5, 0x000FFFFD#32), (3#5, 0x12345678#32)] []) = some (.outOfBounds 0xffffd 4) := by decide

/-- 95 section 2.10 -/
theorem test_beq_not_taken :
    pcAfter (start 0x00000100#32 0x00208463#32 [(1#5, 0x00000005#32), (2#5, 0x00000006#32)] []) = some 0x00000104#32 := by decide
/-- 95 section 2.10 -/
theorem test_beq_wraps :
    pcAfter (start 0x00000100#32 0x80208063#32 [(1#5, 0x00000000#32), (2#5, 0x00000000#32)] []) = some 0xFFFFF100#32 := by decide
/-- 95 section 2.10 -/
theorem test_bne_back :
    pcAfter (start 0x00000100#32 0xFE209EE3#32 [(1#5, 0x00000001#32), (2#5, 0x00000002#32)] []) = some 0x000000FC#32 := by decide
/-- 95 section 2.10 -/
theorem test_bne_two_mod_four :
    pcAfter (start 0x00000100#32 0x00209363#32 [(1#5, 0x00000000#32), (2#5, 0x00000001#32)] []) = some 0x00000106#32 := by decide
/-- 95 section 2.10 -/
theorem test_blt_signed :
    pcAfter (start 0x00000100#32 0x0020C863#32 [(1#5, 0x80000000#32), (2#5, 0x7FFFFFFF#32)] []) = some 0x00000110#32 := by decide
/-- 95 section 2.10 -/
theorem test_blt_not_taken :
    pcAfter (start 0x00000100#32 0x0020C863#32 [(1#5, 0x00000000#32), (2#5, 0xFFFFFFFF#32)] []) = some 0x00000104#32 := by decide
/-- 95 section 2.10 -/
theorem test_bge_equal :
    pcAfter (start 0x00000100#32 0x0020D863#32 [(1#5, 0x00000007#32), (2#5, 0x00000007#32)] []) = some 0x00000110#32 := by decide
/-- 95 section 2.10 -/
theorem test_bge_not_taken :
    pcAfter (start 0x00000100#32 0x0020D863#32 [(1#5, 0xFFFFFFFF#32), (2#5, 0x00000000#32)] []) = some 0x00000104#32 := by decide
/-- 95 section 2.10 -/
theorem test_bltu_unsigned :
    pcAfter (start 0x00000100#32 0x0020E863#32 [(1#5, 0x00000000#32), (2#5, 0xFFFFFFFF#32)] []) = some 0x00000110#32 := by decide
/-- 95 section 2.10 -/
theorem test_bltu_not_taken :
    pcAfter (start 0x00000100#32 0x0020E863#32 [(1#5, 0xFFFFFFFF#32), (2#5, 0x00000000#32)] []) = some 0x00000104#32 := by decide
/-- 95 section 2.10 -/
theorem test_bgeu_unsigned :
    pcAfter (start 0x00000100#32 0x0020F863#32 [(1#5, 0xFFFFFFFF#32), (2#5, 0x00000000#32)] []) = some 0x00000110#32 := by decide
/-- 95 section 2.10 -/
theorem test_bgeu_not_taken :
    pcAfter (start 0x00000100#32 0x0020F863#32 [(1#5, 0x00000000#32), (2#5, 0x00000001#32)] []) = some 0x00000104#32 := by decide

/-- 95 section 2.11 -/
theorem test_jal_forward :
    regPc 1#5 (start 0x100#32 0x001000EF#32 [] []) = some (0x00000104#32, 0x00000900#32) := by decide
/-- 95 section 2.11 -/
theorem test_jal_farthest_back :
    regPc 1#5 (start 0x100#32 0x800000EF#32 [] []) = some (0x00000104#32, 0xFFF00100#32) := by decide
/-- 95 section 2.11 -/
theorem test_jalr_clears_bit_zero :
    regPc 1#5 (start 0x100#32 0x003100E7#32 [(2#5, 0x00000200#32)] []) = some (0x00000104#32, 0x00000202#32) := by decide
/-- 95 section 2.11 -/
theorem test_jalr_reads_first :
    regPc 1#5 (start 0x100#32 0x000080E7#32 [(1#5, 0x00000400#32)] []) = some (0x00000104#32, 0x00000400#32) := by decide

/-! ### Whole steps (spec 95 section 2.3) -/

/-- ECALL advances the pc and changes nothing else. -/
theorem test_ecall : after (start 0x40#32 0x00000073#32 [] []) =
    some { start 0x40#32 0x00000073#32 [] [] with pc := 0x44#32 } := by decide
/-- EBREAK advances the pc and changes nothing else. -/
theorem test_ebreak : after (start 0x40#32 0x00100073#32 [] []) =
    some { start 0x40#32 0x00100073#32 [] [] with pc := 0x44#32 } := by decide
/-- The sentinel changes nothing. -/
theorem test_halt : after (start 0x40#32 0#32 [] []) = some (start 0x40#32 0#32 [] []) ∧
    stepStatus (start 0x40#32 0#32 [] []) = .halt 0x40#32 := by decide
/-- FENCE is an unknown word: pc + 4 only, reported with its address. -/
theorem test_unknown_fence : after (start 0x40#32 0x0000000F#32 [] []) =
      some { start 0x40#32 0x0000000F#32 [] [] with pc := 0x44#32 } ∧
    stepStatus (start 0x40#32 0x0000000F#32 [] []) = .unknown 0x0000000F#32 0x40#32 := by decide
/-- A fetch whose last bytes lie past the end of memory. -/
theorem test_fetch_past_end : faultOf { State.reset with pc := 0x000FFFFE#32 } = some (.outOfBounds 0xFFFFE 4) := by decide
/-- No wrap-around of the fetch. -/
theorem test_fetch_top : faultOf { State.reset with pc := 0xFFFFFFFC#32 } = some (.outOfBounds 0xFFFFFFFC 4) := by decide
/-- After reset: HALT at address 0 (R169). -/
theorem test_step_after_reset : after State.reset = some State.reset ∧ stepStatus State.reset = .halt 0#32 := by decide
/-- A pending timer has no effect under IRQ_ACTION = ignore and stays pending (R76). -/
theorem test_pending_ignored :
    regPc 1#5 (transactAll [.triggerInterrupt 0] (start 0x100#32 0x00100093#32 [] [])) = some (1#32, 0x104#32) ∧
    (after (transactAll [.triggerInterrupt 0] (start 0x100#32 0x00100093#32 [] []))).map State.hasPending = some true := by
  decide

/-- An ADDI at 0x100 (95 section 2.3). -/
def addOk : State := start 0x100#32 0x00100093#32 [] []

/-- A state with a pending timer under IRQ_ACTION = refuse. -/
def refusing : State :=
  transactAll [.triggerInterrupt 0]
    { start 0x100#32 0x00100093#32 [] [] with params := { Params.default with irqAction := .refuse } }

/-- Under IRQ_ACTION = refuse the step is refused by name (R76, D18). -/
theorem test_pending_refused : refusalOf refusing = some (.interruptPending 0) := by decide

/-! ### Ports (spec 95 sections 1.1 to 1.3 and 2.12 to 2.14) -/

theorem test_write_masks : answer [.write 5 0x123456789] (.read 5) = some (.word 0x23456789#32) := by decide
theorem test_write_x0 : answer [.write 0 0xDEADBEEF] (.read 0) = some (.word 0#32) := by decide
theorem test_read_32 : errorOf [] (.read 32) = some (.invalidRegister 32) ∧
    errorOf [] (.read (-1)) = some (.invalidRegister (-1)) := by decide
theorem test_set_pc_masks : answer [.setPc (-4)] .getPc = some (.word 0xFFFFFFFC#32) := by decide
theorem test_word_is_little_endian :
    answer [.writeWord 0x10 0x11223344] (.readBlock 0x10 4) = some (.bytes [0x44#8, 0x33#8, 0x22#8, 0x11#8]) ∧
    answer [.writeWord 0x10 0x11223344] (.readHalf 0x11) = some (.nat 0x2233) := by decide
theorem test_write_byte_truncates : answer [.writeByte 0 (-1)] (.readByte 0) = some (.nat 0xFF) := by decide
theorem test_failed_write_changes_nothing :
    answer [.writeByte 0xFFFFE 0xAA, .writeByte 0xFFFFF 0xBB, .writeWord 0xFFFFE 0x11223344] (.readBlock 0xFFFFE 2) =
      some (.bytes [0xAA#8, 0xBB#8]) := by decide
theorem test_empty_block_at_end : answer [] (.readBlock 1048576 0) = some (.bytes []) ∧
    errorOf [] (.readBlock 1048577 0) = some (.outOfBounds 1048577 0) ∧
    errorOf [] (.readBlock 0 (-1)) = some (.outOfBounds 0 (-1)) := by decide
theorem test_load_program : answer [.loadProgram [0x00100093#32] 0x40] (.readBlock 0x40 4) =
      some (.bytes [0x93#8, 0x00#8, 0x10#8, 0x00#8]) ∧
    errorOf [] (.loadProgram [0x13#32, 0#32] 1048572) = some (.outOfBounds 1048572 8) := by decide

/-- Rows 3 to 8 of 95 section 2.13. -/
def irqRows : List Txn :=
  [.triggerInterrupt 2, .triggerInterrupt 0, .registerInterrupt 5 1 0x800 "dev5", .triggerInterrupt 5, .clearInterrupt 0]

theorem test_irq_standard_order : answer [.triggerInterrupt 2, .triggerInterrupt 0] .highestPriorityPending =
    some (.irq (some (0, ⟨1, 0#32, "timer", true⟩))) := by decide
theorem test_irq_priority : answer irqRows .highestPriorityPending =
    some (.irq (some (5, ⟨1, 0x800#32, "dev5", true⟩))) := by decide
theorem test_irq_tie_lowest_id :
    answer (irqRows ++ [.registerInterrupt 4 1 0x900 "dev4", .triggerInterrupt 4]) .highestPriorityPending =
      some (.irq (some (4, ⟨1, 0x900#32, "dev4", true⟩))) := by decide
theorem test_irq_disable_masks : answer (irqRows ++ [.disable]) .hasPending = some (.bool false) ∧
    answer (irqRows ++ [.disable, .enable]) .hasPending = some (.bool true) := by decide
theorem test_irq_unknown : errorOf irqRows (.triggerInterrupt 9) = some (.unknownInterrupt 9) ∧
    errorOf irqRows (.clearInterrupt 9) = some (.unknownInterrupt 9) := by decide
theorem test_irq_reset_removes : errorOf (irqRows ++ [.reset]) (.triggerInterrupt 5) = some (.unknownInterrupt 5) := by
  decide

/-- Every transaction ends with one status, by its code (spec 60 R149). -/
theorem test_codes : (transact .getPc State.reset).code = some 0 ∧ (transact (.setPc (-4)) State.reset).code = some 0 ∧
    (transact .step addOk).code = some 0 ∧ (transact .step State.reset).code = some 1 ∧
    (transact .step (start 0x40#32 0x0000000F#32 [] [])).code = some 2 ∧
    (transact (.readByte (-1)) State.reset).code = some 3 ∧ (transact .step (State.reset.setPc 0xFFFFFFFC#32)).code = some 3 ∧
    (transact (.read 32) State.reset).code = some 4 ∧ (transact (.restoreContext none) State.reset).code = some 5 ∧
    (transact (.clearInterrupt 9) State.reset).code = some 6 ∧ (transact .step refusing).code = none := by decide

/-- Row 2 of 95 section 2.14. -/
def ctxRows : List Txn := [.write 5 7, .setPc 0x100, .saveContext]

theorem test_restore_nothing : errorOf [] (.restoreContext none) = some .noSavedContext := by decide
theorem test_restore_saved :
    answer (ctxRows ++ [.write 5 9, .write 6 1, .setPc 0x200, .restoreContext none]) (.read 5) = some (.word 7#32) ∧
    answer (ctxRows ++ [.write 5 9, .write 6 1, .setPc 0x200, .restoreContext none]) (.read 6) = some (.word 0#32) ∧
    answer (ctxRows ++ [.write 5 9, .write 6 1, .setPc 0x200, .restoreContext none]) .getPc = some (.word 0x100#32) := by
  decide

/-- The snapshot of row 4 of 95 section 2.14. -/
def rawRow : RawSnapshot := ⟨((Vector.replicate 32 0).set 0 5).set 1 1, 0x100000004⟩

theorem test_restore_masks :
    answer [.restoreContext (some rawRow)] (.read 0) = some (.word 0#32) ∧
    answer [.restoreContext (some rawRow)] (.read 1) = some (.word 1#32) ∧
    answer [.restoreContext (some rawRow)] .getPc = some (.word 4#32) := by decide
theorem test_init_context :
    answer (ctxRows ++ [.initContext 0x1000 0xFF000]) (.read 2) = some (.word 0xFF000#32) ∧
    answer (ctxRows ++ [.initContext 0x1000 0xFF000]) (.read 5) = some (.word 0#32) ∧
    errorOf (ctxRows ++ [.initContext 0x1000 0xFF000]) (.restoreContext none) = some .noSavedContext := by decide

/-! ### Witnesses: a concrete input that meets all the hypotheses of a statement, clause by clause at the ends of their
ranges -/

theorem witness_DecodeOfEncodeIsTheInstruction :
    (Instr.beq 31#5 1#5 (-4096)).wellFormed = true ∧ (Instr.jal 1#5 1048574#21).wellFormed = true ∧
    (Instr.lui 31#5 0xFFFFF000#32).wellFormed = true ∧ (Instr.add 0#5 0#5 0#5).wellFormed = true := by decide

theorem witness_DecodedWordIsTheEncoding : decodeWord 0xFFC0A103#32 = .ok (.lw 2#5 1#5 (-4)) := by decide

/-- Row 17 of the table, counted from 0, is ADD's. -/
theorem witness_DecoderSearchesTheOpcodeTable : ∃ r, opcodeTable[17]? = some r ∧ r.accepts 0x003100B3#32 = true :=
  ⟨_, rfl, by decide⟩

theorem witness_UnknownWordsAreThoseOfNoRow :
    (0xFFFFFFFF#32 : Word) ≠ 0#32 ∧ (∀ r ∈ opcodeTable, r.accepts 0xFFFFFFFF#32 = false) ∧
    (0x0000000F#32 : Word) ≠ 0#32 ∧ (0x0000000F#32 : Word).extractLsb' 0 7 ∉ [0x03#7, 0x13#7, 0x17#7, 0x23#7, 0x33#7,
      0x37#7, 0x63#7, 0x67#7, 0x6F#7, 0x73#7] := by decide

/-- An ADD at the last word of memory. -/
def addAtEnd : State := start 0xFFFFC#32 0x003100B3#32 [(2#5, 5#32), (3#5, 7#32)] []

/-- The same under IRQ_ACTION = refuse, with nothing pending. -/
def addRefuse : State := { addAtEnd with params := { Params.default with irqAction := .refuse } }

theorem witness_StepRunsTheDecodedInstruction :
    (SampleLetsThrough addAtEnd ∧ AtPc addAtEnd 0x003100B3#32 ∧ decodeWord 0x003100B3#32 = .ok (.add 1#5 2#5 3#5)) ∧
    (SampleLetsThrough addRefuse ∧ AtPc addRefuse 0x003100B3#32) :=
  ⟨⟨.inl rfl, (atPc_iff_fetch _ _).mpr (by decide), by decide⟩, .inr (by decide), (atPc_iff_fetch _ _).mpr (by decide)⟩

theorem witness_FetchReadsTheWordAtThePc :
    AtPc addAtEnd 0x003100B3#32 ∧
    (State.reset.setPc 0xFFFFD#32).params.memSize < (State.reset.setPc 0xFFFFD#32).pc.toNat + 4 ∧
    SampleLetsThrough (State.reset.setPc 0xFFFFD#32) :=
  ⟨(atPc_iff_fetch _ _).mpr (by decide), by decide, .inl rfl⟩

theorem witness_SentinelHaltsWithNoChange : SampleLetsThrough State.reset ∧ AtPc State.reset 0#32 :=
  ⟨.inl rfl, (atPc_iff_fetch _ _).mpr (by decide)⟩

/-- A FENCE at 0x40. -/
def fenceAt : State := start 0x40#32 0x0000000F#32 [] []

theorem witness_UnknownWordOnlyAdvancesThePc :
    SampleLetsThrough fenceAt ∧ AtPc fenceAt 0x0000000F#32 ∧ (0x0000000F#32 : Word) ≠ 0#32 ∧
    ∀ r ∈ opcodeTable, r.accepts 0x0000000F#32 = false :=
  ⟨.inl rfl, (atPc_iff_fetch _ _).mpr (by decide), by decide, by decide⟩

theorem witness_InterruptSampleHasNoEffectUnlessRefusing :
    State.reset.params.irqAction = .ignore ∧ refusing.params.irqAction = .refuse ∧
    refusing.highestPending = some (0, ⟨1, 0#32, "timer", true⟩) := by decide

/-- A LW whose last byte is the first beyond memory. -/
def lwPastEnd : State := start 0x100#32 0x00012083#32 [(2#5, 0xFFFFD#32)] []

theorem witness_StepFaultsExactlyOnFailedBoundsChecks :
    step (State.reset.setPc 0xFFFFD#32) = .fault (.outOfBounds 0xFFFFD 4) ∧
    step lwPastEnd = .fault (.outOfBounds 0xFFFFD 4) ∧
    dataAccess lwPastEnd (.lw 1#5 2#5 0#12) = some (0xFFFFD#32, 4) := ⟨by rfl, by rfl, by decide⟩

/-- A LW of the last word of memory. -/
def lwAtEnd : State := start 0x100#32 0x00012083#32 [(2#5, 0xFFFFC#32)] []

theorem witness_StepCompletesWithinBounds :
    SampleLetsThrough lwAtEnd ∧ AtPc lwAtEnd 0x00012083#32 ∧
    ∀ i ea n, decodeWord 0x00012083#32 = .ok i → dataAccess lwAtEnd i = some (ea, n) →
      ea.toNat + n ≤ lwAtEnd.params.memSize := by
  refine ⟨.inl rfl, (atPc_iff_fetch _ _).mpr (by decide), fun i ea n hi ha => ?_⟩
  have e : decodeWord 0x00012083#32 = .ok (.lw 1#5 2#5 0#12) := by decide
  rw [e] at hi
  cases hi
  have e : dataAccess lwAtEnd (.lw 1#5 2#5 0#12) = some (0xFFFFC#32, 4) := by decide
  rw [e] at ha
  cases ha
  decide

/-- The FENCE under UNKNOWN_POLICY = halt. -/
def fenceHalt : State := { fenceAt with params := { Params.default with unknownPolicy := .halt } }

theorem witness_HostRunEndsWhereContinueIsFalse :
    (SampleLetsThrough State.reset ∧ AtPc State.reset 0#32) ∧
    (SampleLetsThrough fenceHalt ∧ AtPc fenceHalt 0x0000000F#32 ∧ rejected 0x0000000F#32 = true ∧
      fenceHalt.params.unknownPolicy = .halt) ∧
    step lwPastEnd = .fault (.outOfBounds 0xFFFFD 4) :=
  ⟨witness_SentinelHaltsWithNoChange, ⟨.inl rfl, (atPc_iff_fetch _ _).mpr (by decide), by decide, rfl⟩, by rfl⟩

theorem witness_EffectiveAddressWrapsAndKeepsTheBase :
    dataAccess lwAtEnd (.lw 1#5 2#5 0#12) = some (0xFFFFC#32, 4) ∧ (∃ t, exec (.lw 1#5 2#5 0#12) lwAtEnd = .next t) ∧
    dataAccess lwAtEnd (.sb 2#5 3#5 3#12) = some (0xFFFFF#32, 1) ∧ (∃ t, exec (.sb 2#5 3#5 3#12) lwAtEnd = .next t) ∧
    dataAccess lwAtEnd (.sb 2#5 3#5 4#12) = some (0x100000#32, 1) ∧ lwAtEnd.params.memSize < 0x100000 + 1 :=
  ⟨by decide, ⟨_, by rfl⟩, by decide, ⟨_, by rfl⟩, by decide, by decide⟩

/-- The last whole unit of each width is inside memory and the next address is not. -/
theorem witness_LoadsReadExtendedMemory :
    (effAddr (lwAtEnd.reg 2#5) 3#12).toNat + 1 ≤ lwAtEnd.params.memSize ∧
    lwAtEnd.params.memSize < (effAddr (lwAtEnd.reg 2#5) 4#12).toNat + 1 ∧
    (effAddr (lwAtEnd.reg 2#5) 2#12).toNat + 2 ≤ lwAtEnd.params.memSize ∧
    lwAtEnd.params.memSize < (effAddr (lwAtEnd.reg 2#5) 3#12).toNat + 2 ∧
    (effAddr (lwAtEnd.reg 2#5) 0#12).toNat + 4 ≤ lwAtEnd.params.memSize ∧
    lwAtEnd.params.memSize < (effAddr (lwAtEnd.reg 2#5) 1#12).toNat + 4 ∧
    (0xFFC0A103#32 : Word) &&& 0x0000707F#32 = 0x00002003#32 := by decide

theorem witness_StoresWriteTheirBytesOrNothing :
    (effAddr (lwAtEnd.reg 2#5) 0#12).toNat + 4 ≤ lwAtEnd.params.memSize ∧
    lwAtEnd.params.memSize < (effAddr (lwAtEnd.reg 2#5) 1#12).toNat + 4 ∧
    (effAddr (lwAtEnd.reg 0#5) (-1)).toNat + 1 > lwAtEnd.params.memSize ∧
    (0x0020A023#32 : Word) &&& 0x0000707F#32 = 0x00002023#32 := by decide

theorem witness_FetchSeesTheStoredWord : ∃ t, exec (.sw 2#5 3#5 0#12) lwAtEnd = .next t := ⟨_, by rfl⟩

theorem witness_ImmediateShiftsScaleByPowersOfTwo :
    ((0x40001013#32 : Word) &&& 0x0000707F#32 = 0x00001013#32 ∧ (0x40001013#32 : Word).extractLsb' 25 7 ≠ 0#7) ∧
    ((0x02005013#32 : Word) &&& 0x0000707F#32 = 0x00005013#32 ∧ (0x02005013#32 : Word).extractLsb' 25 7 ≠ 0#7 ∧
      (0x02005013#32 : Word).extractLsb' 25 7 ≠ 0x20#7) ∧
    (0x40415093#32 : Word) &&& 0xFE00707F#32 = 0x40005013#32 := by decide

/-- An OP word of a funct7 with no row. -/
def opUnknownAt : State := start 0x40#32 0x80000033#32 [] []

theorem witness_OtherOpWordsAreUnknown :
    ((0x80000033#32 : Word).extractLsb' 0 7 = 0x33#7 ∧ (0x80000033#32 : Word).extractLsb' 25 7 = 0x40#7 ∧
      SampleLetsThrough opUnknownAt ∧ AtPc opUnknownAt 0x80000033#32) ∧
    ((0x40001033#32 : Word).extractLsb' 0 7 = 0x33#7 ∧ (0x40001033#32 : Word).extractLsb' 25 7 = 0x20#7 ∧
      (0x40001033#32 : Word).extractLsb' 12 3 = 0b001#3) :=
  ⟨⟨by decide, by decide, .inl rfl, (atPc_iff_fetch _ _).mpr (by decide)⟩, by decide⟩

/-- -7 and 2, the operands of spec 45 R123. -/
def divState : State := start 0x100#32 0x023140B3#32 [(2#5, 0xFFFFFFF9#32), (3#5, 2#32)] []

theorem witness_QuotientAndRemainderGiveTheDividend :
    (1#5 : Reg) ≠ 0#5 ∧ divState.reg 3#5 ≠ 0#32 ∧
    ¬ (divState.reg 2#5 = 0x80000000#32 ∧ divState.reg 3#5 = 0xFFFFFFFF#32) ∧
    (∃ q, exec (.div 1#5 2#5 3#5) divState = .next q ∧ q.reg 1#5 = 0xFFFFFFFD#32) ∧
    (∃ r, exec (.rem 1#5 2#5 3#5) divState = .next r ∧ r.reg 1#5 = 0xFFFFFFFF#32) ∧
    (∃ q, exec (.divu 1#5 2#5 3#5) divState = .next q ∧ q.reg 1#5 = 0x7FFFFFFC#32) ∧
    (∃ r, exec (.remu 1#5 2#5 3#5) divState = .next r ∧ r.reg 1#5 = 1#32) :=
  ⟨by decide, by decide, by decide, ⟨_, rfl, by decide⟩, ⟨_, rfl, by decide⟩, ⟨_, rfl, by decide⟩, ⟨_, rfl, by decide⟩⟩

/-- Each condition holds of some operands and fails of others. -/
theorem witness_BranchesGoWhereTheirConditionSays :
    sval 0x80000000#32 < sval 0x7FFFFFFF#32 ∧ ¬ sval 5#32 < sval 5#32 ∧ uval 0#32 < uval 0xFFFFFFFF#32 ∧
    ¬ uval 0#32 < uval 0#32 ∧ (0xFE209EE3#32 : Word) &&& 0x0000707F#32 = 0x00001063#32 := by decide

theorem witness_EvenPcStaysEven : (∃ t, step addAtEnd = .next t) ∧ addAtEnd.pc.toNat % 2 = 0 := ⟨⟨_, by rfl⟩, by decide⟩

/-- MRET, which the block does not know. -/
def mretAt : State := start 0x40#32 0x30200073#32 [] []

theorem witness_SystemWordsAreNoOpsOrUnknown :
    (0x30200073#32 : Word).extractLsb' 0 7 = 0x73#7 ∧ (0x30200073#32 : Word) ≠ 0x00000073#32 ∧
    (0x30200073#32 : Word) ≠ 0x00100073#32 ∧ SampleLetsThrough mretAt ∧ AtPc mretAt 0x30200073#32 ∧
    AtPc (start 0x40#32 0x00000073#32 [] []) 0x00000073#32 ∧ AtPc (start 0x40#32 0x00100073#32 [] []) 0x00100073#32 :=
  ⟨by decide, by decide, by decide, .inl rfl, (atPc_iff_fetch _ _).mpr (by decide), (atPc_iff_fetch _ _).mpr (by decide),
    (atPc_iff_fetch _ _).mpr (by decide)⟩

/-- A SW of x3 to the last word of memory. -/
def swAtEnd : State := start 0x100#32 0x00312023#32 [(2#5, 0xFFFFC#32), (3#5, 0xAABBCCDD#32)] []

theorem witness_EveryStepKeepsTheInvariant : swAtEnd.Inv ∧ ∃ t, step swAtEnd = .next t := ⟨by decide, _, by rfl⟩

theorem witness_EveryTransactionKeepsTheInvariant : State.reset.Inv := by decide

theorem witness_StepTouchesOneRegisterAndNoControlState : ∃ t, step addAtEnd = .next t := ⟨_, by rfl⟩

theorem witness_OnlyAStoresBytesChange :
    ∃ t, step swAtEnd = .next t ∧ t.mem.read 0xFFFFF ≠ swAtEnd.mem.read 0xFFFFF := ⟨_, rfl, by decide⟩

/-- The same registers, pc, memory and parameters with other control state. -/
def addOther : State := transactAll [.triggerInterrupt 0, .saveContext, .disable] addAtEnd

theorem witness_ProgramsCannotObserveControlState :
    addAtEnd.params.irqAction = .ignore ∧ addOther.params = addAtEnd.params ∧ addOther.x = addAtEnd.x ∧
    addOther.pc = addAtEnd.pc ∧ addOther.mem = addAtEnd.mem ∧ addOther.irq ≠ addAtEnd.irq ∧
    addOther.saved ≠ addAtEnd.saved := by decide

/-- The ends of the index range, inside and outside. -/
theorem witness_RegisterPortsCheckTheIndexAndMask :
    ((-1 : Int) < 0 ∨ (31 : Int) < -1) ∧ ((32 : Int) < 0 ∨ (31 : Int) < 32) ∧ ((1 : Int) ≤ 1 ∧ (1 : Int) ≤ 31) ∧
    ((1 : Int) ≤ 31 ∧ (31 : Int) ≤ 31) := by decide

/-- A state that holds a saved context. -/
def savedState : State := transactAll ctxRows State.reset

theorem witness_RestoreContextMasksOrRaises :
    State.reset.saved = none ∧ savedState.saved = some savedState.snapshot := by decide

theorem witness_InitContextStartsATask : savedState.params.regReset = .zero ∧ (31#5 : Reg) ≠ 2#5 := by decide

theorem witness_ContextSwitchSavesThenRestoresOrStarts : State.reset.params.regReset = .zero ∧ (0#5 : Reg) ≠ 2#5 := by
  decide

theorem witness_RestoreAfterSaveGivesTheContextBack :
    ∃ t, portSaveContext savedState = .ok savedState.snapshot t := ⟨_, rfl⟩

theorem witness_SavedContextChangesOnlyBySaveOrReset :
    ((transact .saveContext State.reset).after State.reset).saved ≠ State.reset.saved ∧
    ((transact .resetRegFile savedState).after savedState).saved ≠ savedState.saved := by decide

/-- The last unit of each width is inside memory; the address after it, and -1, are not. -/
theorem witness_MemoryReadPortsSumLittleEndian :
    ((0 : Int) ≤ 0xFFFFC ∧ (0xFFFFC : Int) + 4 - 1 < State.reset.params.memSize) ∧
    ¬ ((0 : Int) ≤ 0xFFFFD ∧ (0xFFFFD : Int) + 4 - 1 < State.reset.params.memSize) ∧
    ((0 : Int) ≤ 0xFFFFF ∧ (0xFFFFF : Int) + 1 - 1 < State.reset.params.memSize) ∧
    ¬ ((0 : Int) ≤ -1 ∧ (-1 : Int) + 1 - 1 < State.reset.params.memSize) := by decide

theorem witness_MemoryWritePortsTruncateAndRoundTrip :
    ((0 : Int) ≤ 0xFFFFE ∧ (0xFFFFE : Int) + 2 - 1 < State.reset.params.memSize) ∧
    ¬ ((0 : Int) ≤ 0xFFFFF ∧ (0xFFFFF : Int) + 2 - 1 < State.reset.params.memSize) := by decide

/-- An empty block at the end of memory is inside; one byte on it is not, nor is a negative length. -/
theorem witness_BlockPortsAreAllOrNothing :
    ((0 : Int) ≤ 0 ∧ (0 : Int) ≤ 1048576 ∧ (1048576 : Int) + 0 - 1 < State.reset.params.memSize) ∧
    ¬ ((0 : Int) ≤ 0 ∧ (0 : Int) ≤ 1048577 ∧ (1048577 : Int) + 0 - 1 < State.reset.params.memSize) ∧
    ¬ ((0 : Int) ≤ -1 ∧ (0 : Int) ≤ 0 ∧ (0 : Int) + -1 - 1 < State.reset.params.memSize) ∧
    ((0 : Int) ≤ 0xFFFFE ∧ (0xFFFFE : Int) + ([1#8, 2#8] : List Byte).length - 1 < State.reset.params.memSize) ∧
    ¬ ((0 : Int) ≤ 0xFFFFE ∧ (0xFFFFE : Int) + ([1#8, 2#8, 3#8] : List Byte).length - 1 < State.reset.params.memSize) := by
  decide

theorem witness_LoadProgramPlacesEveryWord :
    ((0 : Int) ≤ 0xFFFF8 ∧ (0xFFFF8 : Int) + 4 * ([0x13#32, 0#32] : List Word).length - 1 < State.reset.params.memSize) ∧
    ¬ ((0 : Int) ≤ 0xFFFFC ∧ (0xFFFFC : Int) + 4 * ([0x13#32, 0#32] : List Word).length - 1 <
      State.reset.params.memSize) := by decide

theorem witness_QueriesReportTheMostUrgentPending :
    refusing.irq.wf = true ∧ refusing.highestPending = some (0, ⟨1, 0#32, "timer", true⟩) ∧
    State.reset.irq.wf = true ∧ State.reset.highestPending = none := by decide

theorem witness_RegisteringGivesAFreshEntry :
    State.reset.params.irqIdBits = none ∧ State.reset.params.irqPrioBits = none ∧
    State.reset.params.irqCapacity = none := by decide

/-- A controller of 3-bit ids and priorities and four entries. -/
def bounded : State :=
  { State.reset with params :=
      { Params.default with irqIdBits := some 3, irqPrioBits := some 3, irqCapacity := some 4 } }

/-- `bounded` with its fourth entry registered. -/
def full : State := transactAll [.registerInterrupt 7 7 0 "d"] bounded

/-- Id 7 at priority 7 fits, and is the fourth entry; 8 is too wide for either; with four entries a new id is refused and
a registered one is not. -/
theorem witness_BoundedControllerRefusesWhatDoesNotFit :
    (7 < 2 ^ 3 ∧ bounded.params.irqIdBits = some 3 ∧ bounded.params.irqPrioBits = some 3 ∧
      bounded.params.irqCapacity = some 4 ∧ bounded.irq.get? 7 = none ∧ bounded.irq.length < 4) ∧
    2 ^ 3 ≤ 8 ∧ (full.irq.get? 6 = none ∧ 4 ≤ full.irq.length) ∧ full.irq.get? 7 ≠ none := by decide

theorem witness_TriggerAndClearSetOneFlag :
    State.reset.irq.get? 3 = none ∧ State.reset.irq.get? 2 = some ⟨3, 0#32, "software", false⟩ := by decide

theorem witness_PendingFlagsMoveByCommandOnly :
    (State.reset.irq.get? 0 = some ⟨1, 0#32, "timer", false⟩ ∧
      ((transact (.triggerInterrupt 0) State.reset).after State.reset).irq.get? 0 = some ⟨1, 0#32, "timer", true⟩) ∧
    (refusing.irq.get? 0 = some ⟨1, 0#32, "timer", true⟩ ∧
      ((transact (.clearInterrupt 0) refusing).after refusing).irq.get? 0 = some ⟨1, 0#32, "timer", false⟩) := by decide

theorem witness_FacadeResetLeavesTheResetState :
    savedState.params.regReset = .zero ∧ savedState.params = Params.default := by decide

theorem witness_StepAfterResetHalts :
    savedState.params.regReset = .zero ∧ savedState.params.legal = true ∧
    portReset savedState = .ok () savedState.facadeReset := by decide

end Sys2Proof.Tests
end

/-! SUPPORT. What a sequence of transactions does to the state, said once: a series of elementary updates. Whatever every
elementary update keeps, every step, every transaction and every sequence of transactions keeps. -/

namespace Sys2Proof.Machine

open Relation (ReflTransGen)

/-- The elementary updates of the state: every transaction is a series of them (spec 00 R8). -/
inductive State.Update : State → State → Prop where
  /-- A register is written (spec 10 R17, R19). -/
  | setReg (s : State) (r : Reg) (v : Word) : Update s (s.setReg r v)
  /-- The pc is written (spec 10 R21, R23). -/
  | setPc (s : State) (v : Word) : Update s (s.setPc v)
  /-- The register file is reset (spec 10 R29). -/
  | resetRegFile (s : State) : Update s s.resetRegFile
  /-- The live context is saved (spec 48 R144). -/
  | saveContext (s : State) : Update s { s with saved := some s.snapshot }
  /-- A context is restored (spec 48 R145). -/
  | restoreFrom (s : State) (c : RawSnapshot) : Update s (s.restoreFrom c)
  /-- Bytes inside memory are written (spec 20 R37, R39). -/
  | writeBytes (s : State) (a : Nat) (bs : List Byte) (h : a + bs.length ≤ s.params.memSize) :
      Update s { s with mem := s.mem.writeBytes a bs }
  /-- Memory is cleared (spec 20 R45). -/
  | resetMem (s : State) : Update s s.resetMem
  /-- An interrupt is registered, triggered or cleared (spec 60 R154 to R156). -/
  | putIrq (s : State) (id : Nat) (e : IrqEntry) : Update s { s with irq := s.irq.put id e }
  /-- The enable bit is written (spec 60 R159). -/
  | setEnable (s : State) (b : Bool) : Update s { s with irqEn := b }
  /-- The interrupt controller is reset (spec 60 R161). -/
  | resetIrq (s : State) : Update s s.resetIrq

/-- An unchanged state is no update at all. -/
theorem updates_of_eq {s t : State} (h : t = s) : ReflTransGen State.Update s t := h ▸ .refl

/-! ### A step -/

/-- A completed instruction writes a register and the pc, or bytes and the pc, or nothing (spec 40 R82). -/
theorem exec_updates {i : Instr} {s t : State} (h : exec i s = .next t) : ReflTransGen State.Update s t := by
  obtain ⟨rd, v, npc, rfl⟩ | ⟨ea, n, v, hb, rfl⟩ | ⟨-, rfl⟩ := exec_next_cases h
  · exact .tail (.single (.setReg s rd v)) (.setPc _ npc)
  · exact .tail (.single (.writeBytes s ea.toNat (leBytes n v) (by simpa using hb))) (.setPc _ _)
  · exact .refl

/-- A completed step is the decoded instruction, or the advance over an unknown word (spec 40 R75, R79). -/
theorem step_updates {s t : State} (h : step s = .next t) : ReflTransGen State.Update s t := by
  obtain ⟨-, ⟨w, -, rfl⟩ | ⟨i, -, hi⟩⟩ := step_next_cases h
  · exact .single (.setPc s _)
  · exact exec_updates hi

/-- A step taken as a transaction: the completed step, or no change (spec 60 R150). -/
theorem portStep_updates (s : State) : ReflTransGen State.Update s ((portStep s).after s) := by
  rcases portStep_after s with h | h
  · exact updates_of_eq h
  · exact step_updates h

/-! ### The other ports -/

/-- Reading a register leaves the state (spec 10 R18). -/
@[simp] theorem portRead_after (n : Int) (s : State) : (portRead n s).after s = s := by
  unfold portRead; split <;> rfl

/-- Reading memory leaves the state (spec 20 R36). -/
@[simp] theorem State.portReadN_after (s : State) (a : Int) (n : Nat) : (s.portReadN a n).after s = s := by
  rw [State.portReadN_eq]; split <;> rfl

/-- Reading a block leaves the state (spec 20 R38). -/
@[simp] theorem portReadBlock_after (a len : Int) (s : State) : (portReadBlock a len s).after s = s := by
  unfold portReadBlock; split <;> rfl

theorem portWrite_updates (n v : Int) (s : State) : ReflTransGen State.Update s ((portWrite n v s).after s) := by
  unfold portWrite
  split
  · next r _ => exact .single (.setReg s r (m32 v))
  · exact .refl

theorem portRestoreContext_updates (ctx : Option RawSnapshot) (s : State) :
    ReflTransGen State.Update s ((portRestoreContext ctx s).after s) := by
  unfold portRestoreContext
  split
  · next c => exact .single (.restoreFrom s c)
  · split
    · next c _ => exact .single (.restoreFrom s c.toRaw)
    · exact .refl

theorem portInitContext_updates (entry sp : Int) (s : State) :
    ReflTransGen State.Update s ((portInitContext entry sp s).after s) :=
  ((ReflTransGen.single (.resetRegFile s)).tail (.setPc _ (m32 entry))).tail (.setReg _ 2#5 (m32 sp))

theorem portWriteBlock_updates (a : Int) (bs : List Byte) (s : State) :
    ReflTransGen State.Update s ((portWriteBlock a bs s).after s) := by
  rw [portWriteBlock_eq]
  split
  · next h => exact .single (.writeBytes s a.toNat bs (by omega))
  · exact .refl

theorem State.portWriteN_updates (s : State) (a : Int) (n : Nat) (v : Int) :
    ReflTransGen State.Update s ((s.portWriteN a n v).after s) := by
  rw [State.portWriteN_eq]
  split
  · next h => exact .single (.writeBytes s a.toNat (leBytes n _) (by rw [length_leBytes]; omega))
  · exact .refl

theorem portRegister_updates (id priority : Nat) (handler : Int) (description : String) (s : State) :
    ReflTransGen State.Update s ((portRegister id priority handler description s).after s) := by
  unfold portRegister
  split
  · exact .refl
  · split
    · exact .refl
    · split
      · exact .refl
      · exact .single (.putIrq s id _)

theorem State.setPending_updates (s : State) (id : Nat) (b : Bool) :
    ReflTransGen State.Update s ((s.setPending id b).after s) := by
  unfold State.setPending
  split
  · exact .refl
  · exact .single (.putIrq s id _)

/-- The facade resets the register file, memory and the interrupt controller (spec 70 R168). -/
theorem State.facadeReset_updates (s : State) : ReflTransGen State.Update s s.facadeReset :=
  ((ReflTransGen.single (.resetRegFile s)).tail (.resetMem _)).tail (.resetIrq _)

/-! ### Every transaction -/

/-- Every transaction, whatever it answers, leaves a state that elementary updates give (spec 00 R8; log 19 for a
refusal). -/
theorem transact_updates (t : Txn) (s : State) : ReflTransGen State.Update s ((transact t s).after s) := by
  cases t <;> simp only [transact, PortOutcome.after_map]
  case getPc | hasPending | highestPriorityPending | getState => exact .refl
  case read n => exact updates_of_eq (portRead_after n s)
  case readByte a | readHalf a | readWord a => exact updates_of_eq (s.portReadN_after a _)
  case readBlock a len => exact updates_of_eq (portReadBlock_after a len s)
  case write n v => exact portWrite_updates n v s
  case setPc v => exact .single (.setPc s (m32 v))
  case resetRegFile => exact .single (.resetRegFile s)
  case saveContext => exact .single (.saveContext s)
  case restoreContext ctx => exact portRestoreContext_updates ctx s
  case initContext entry sp => exact portInitContext_updates entry sp s
  case writeByte a v | writeHalf a v | writeWord a v => exact s.portWriteN_updates a _ v
  case writeBlock a bs => exact portWriteBlock_updates a bs s
  case loadProgram words base => exact portWriteBlock_updates base _ s
  case resetMem => exact .single (.resetMem s)
  case registerInterrupt id p h d => exact portRegister_updates id p h d s
  case triggerInterrupt id | clearInterrupt id => exact s.setPending_updates id _
  case enable | disable => exact .single (.setEnable s _)
  case step => exact portStep_updates s
  case reset => exact s.facadeReset_updates

/-- A sequence of transactions is a series of elementary updates. -/
theorem transactAll_updates (ts : List Txn) (s : State) : ReflTransGen State.Update s (transactAll ts s) := by
  induction ts generalizing s with
  | nil => exact .refl
  | cons t ts ih => exact (transact_updates t s).trans (ih _)

/-- What every elementary update keeps holds after any series of them. -/
theorem State.Update.keeps_all {P : State → Prop} (hP : ∀ {s t : State}, State.Update s t → P s → P t) {s t : State}
    (h : ReflTransGen State.Update s t) (hs : P s) : P t := by
  induction h with
  | refl => exact hs
  | tail _ hu ih => exact hP hu ih

end Sys2Proof.Machine

/-! The statements of spec 00: every transaction keeps the invariant, and none changes the parameters. Each is a fact
about the elementary updates, carried along a sequence of transactions. -/

namespace Sys2Proof.Machine

/-! ### The invariant, field by field -/

/-- The invariant reads the parameters, memory, the interrupt table and the saved context only. -/
theorem State.Inv.congr {s t : State} (h : s.Inv) (hp : t.params = s.params) (hm : t.mem = s.mem) (hi : t.irq = s.irq)
    (hs : t.saved = s.saved) : t.Inv := by
  unfold State.Inv
  rwa [hp, hm, hi, hs]

theorem State.Inv.with_mem {s : State} {m : Memory} (h : s.Inv) (hwf : m.wf = true)
    (hin : m.within s.params.memSize = true) : { s with mem := m }.Inv := by
  obtain ⟨hlegal, -, -, hirq, hstd, hsaved⟩ := h
  exact ⟨hlegal, hwf, hin, hirq, hstd, hsaved⟩

theorem State.Inv.with_irq {s : State} {t : IrqTable} (h : s.Inv) (hwf : t.wf = true)
    (hstd : standardRegistered t = true) : { s with irq := t }.Inv := by
  obtain ⟨hlegal, hmem, hin, -, -, hsaved⟩ := h
  exact ⟨hlegal, hmem, hin, hwf, hstd, hsaved⟩

theorem State.Inv.with_saved {s : State} {c : Option Snapshot} (h : s.Inv) (hc : savedOk c = true) :
    { s with saved := c }.Inv := by
  obtain ⟨hlegal, hmem, hin, hirq, hstd, -⟩ := h
  exact ⟨hlegal, hmem, hin, hirq, hstd, hc⟩

/-! ### What the updates put there -/

/-- A saved context has regs[0] = 0 (spec 48 R144). -/
theorem savedOk_snapshot (s : State) : savedOk (some s.snapshot) = true :=
  beq_iff_eq.mpr (s.snapshot_regs 0#5)

/-- No update of the table unregisters an id (spec 60 R153). -/
theorem IrqTable.isSome_get?_put {t : IrqTable} {j : Nat} (id : Nat) (e : IrqEntry) (h : (t.get? j).isSome = true) :
    (IrqTable.get? (t.put id e) j).isSome = true := by
  rw [IrqTable.get?_put]
  split
  · rfl
  · exact h

theorem standardRegistered_put {t : IrqTable} (id : Nat) (e : IrqEntry) (h : standardRegistered t = true) :
    standardRegistered (t.put id e) = true := by
  simp only [standardRegistered, Bool.and_eq_true] at h ⊢
  obtain ⟨⟨h0, h1⟩, h2⟩ := h
  exact ⟨⟨IrqTable.isSome_get?_put id e h0, IrqTable.isSome_get?_put id e h1⟩, IrqTable.isSome_get?_put id e h2⟩

/-! ### Each elementary update -/

/-- No elementary update writes the parameters (log 1). -/
theorem State.Update.params_eq {s t : State} (h : State.Update s t) : t.params = s.params := by
  cases h <;> simp

/-- Each elementary update keeps the invariant. -/
theorem State.Update.keeps_inv {s t : State} (h : State.Update s t) (hs : s.Inv) : t.Inv := by
  have hp := h.params_eq
  cases h with
  | setReg | setPc | restoreFrom | setEnable => exact hs.congr hp (by simp) (by simp) (by simp)
  | resetRegFile => exact (hs.with_saved (c := none) rfl).congr hp (by simp) (by simp) (by simp)
  | saveContext => exact hs.with_saved (savedOk_snapshot s)
  | writeBytes a bs hb =>
    have ⟨_, hwf, hin, _⟩ := hs
    exact hs.with_mem (Memory.wf_writeBytes a bs hwf) (Memory.within_writeBytes bs hb hin)
  | resetMem => exact hs.with_mem rfl rfl
  | putIrq id e =>
    have ⟨_, _, _, hwf, hstd, _⟩ := hs
    exact hs.with_irq (IrqTable.wf_put id e hwf) (standardRegistered_put id e hstd)
  | resetIrq => exact (hs.with_irq (IrqTable.wf_standard s.params) rfl).congr hp rfl rfl rfl

end Sys2Proof.Machine

namespace Sys2Proof.Spec

open Sys2Proof.Machine

/-- Settles O34: a sequence of transactions is a series of elementary updates, each of which keeps the invariant. -/
theorem everyTransactionKeepsTheInvariant : Obligations.EveryTransactionKeepsTheInvariant := by
  unfold Obligations.EveryTransactionKeepsTheInvariant
  intro ts s hs
  exact State.Update.keeps_all State.Update.keeps_inv (transactAll_updates ts s) hs

/-- Settles O38: a sequence of transactions is a series of elementary updates, none of which writes the parameters. -/
theorem noTransactionChangesTheParameters : Obligations.NoTransactionChangesTheParameters := by
  unfold Obligations.NoTransactionChangesTheParameters
  intro ts s
  exact State.Update.keeps_all (P := fun t => t.params = s.params) (fun hu hs => hu.params_eq.trans hs)
    (transactAll_updates ts s) rfl

end Sys2Proof.Spec

/-! SUPPORT. Control state (the saved context, the interrupt table, the enable bit and the free-value counter) beside an
instruction and a step: neither reads it nor writes it. -/

namespace Sys2Proof.Machine

/-! ### The control state of another state -/

/-- `s` with the control state of `c`: its saved context, interrupt table, enable bit and free-value counter (spec 10 R24
to R26). -/
def State.withControl (s c : State) : State :=
  { s with saved := c.saved, irq := c.irq, irqEn := c.irqEn, freeSeq := c.freeSeq }

/-- A result with the control state of `c` in its next state, if it has one. -/
def Result.withControl (c : State) : Result → Result
  | .next t => .next (t.withControl c)
  | .fault f => .fault f
  | .refused r => .refused r

@[simp] theorem State.withControl_x (s c : State) : (s.withControl c).x = s.x := rfl
@[simp] theorem State.withControl_pc (s c : State) : (s.withControl c).pc = s.pc := rfl
@[simp] theorem State.withControl_mem (s c : State) : (s.withControl c).mem = s.mem := rfl
@[simp] theorem State.withControl_params (s c : State) : (s.withControl c).params = s.params := rfl

@[simp] theorem Result.withControl_next (c t : State) : Result.withControl c (.next t) = .next (t.withControl c) := rfl

/-- States that differ in their control state only are one state with two control states. -/
theorem State.eq_withControl {s c : State} (hparams : c.params = s.params) (hx : c.x = s.x) (hpc : c.pc = s.pc)
    (hmem : c.mem = s.mem) : c = s.withControl c := by
  cases c
  cases s
  cases hparams
  cases hx
  cases hpc
  cases hmem
  rfl

/-! ### The shared operations do not see it -/

theorem State.setPc_withControl (s c : State) (v : Word) : (s.withControl c).setPc v = (s.setPc v).withControl c := rfl

theorem State.setReg_withControl (s c : State) (r : Reg) (v : Word) :
    (s.withControl c).setReg r v = (s.setReg r v).withControl c := by
  unfold State.setReg
  split <;> rfl

theorem State.retire_withControl (s c : State) (rd : Reg) (v : Word) :
    (s.withControl c).retire rd v = (s.retire rd v).withControl c := by
  simp only [State.retire_eq, State.setReg_withControl, State.setPc_withControl, State.withControl_pc,
    Result.withControl_next]

theorem State.linkAndJump_withControl (s c : State) (rd : Reg) (target : Word) :
    (s.withControl c).linkAndJump rd target = (s.linkAndJump rd target).withControl c := by
  simp only [State.linkAndJump_eq, State.setReg_withControl, State.setPc_withControl, State.withControl_pc,
    Result.withControl_next]

theorem State.load_withControl (s c : State) (rd : Reg) (ea : Word) (n : Nat) (ext : Nat → Word) :
    (s.withControl c).load rd ea n ext = (s.load rd ea n ext).withControl c := by
  simp only [State.load_eq, State.setReg_withControl, State.setPc_withControl, State.withControl_pc,
    State.withControl_mem, State.withControl_params]
  split <;> rfl

theorem State.store_withControl (s c : State) (ea : Word) (n : Nat) (v : Word) :
    (s.withControl c).store ea n v = (s.store ea n v).withControl c := by
  rw [State.store_eq, State.store_eq, State.withControl_mem, State.withControl_params]
  split <;> rfl

theorem State.fetchDecode_withControl (s c : State) : (s.withControl c).fetchDecode = s.fetchDecode := rfl

/-! ### Nor does an instruction or a step -/

/-- An instruction does the same beside any control state and leaves it as it is (spec 10 R24, 40 R82). -/
theorem exec_withControl (i : Instr) (s c : State) : exec i (s.withControl c) = Result.withControl c (exec i s) := by
  cases i
  case lb | lh | lw | lbu | lhu => exact s.load_withControl c _ _ _ _
  case sb | sh | sw => exact s.store_withControl c _ _ _
  case beq | bne | blt | bge | bltu | bgeu | ecall | ebreak | halt => rfl
  case jal | jalr => exact s.linkAndJump_withControl c _ _
  all_goals exact s.retire_withControl c _ _

/-- Under IRQ_ACTION = ignore the sample lets every step through (spec 40 R76). -/
theorem State.irqGate_of_ignore {s : State} (h : s.params.irqAction = .ignore) : s.irqGate = none := by
  simp only [State.irqGate, h]

/-- Under IRQ_ACTION = ignore a step does the same beside any control state and leaves it as it is (spec 40 R76). -/
theorem step_withControl {s : State} (c : State) (h : s.params.irqAction = .ignore) :
    step (s.withControl c) = Result.withControl c (step s) := by
  have hc : (s.withControl c).irqGate = none := State.irqGate_of_ignore h
  unfold step
  rw [hc, State.irqGate_of_ignore h, State.fetchDecode_withControl]
  cases s.fetchDecode with
  | outOfBounds => rfl
  | unknown w => rfl
  | instr i => exact exec_withControl i s c

/-- Only the interrupt sample refuses a step: under IRQ_ACTION = ignore none is refused (spec 40 R76). -/
theorem step_ne_refused_of_ignore {s : State} (h : s.params.irqAction = .ignore) (r : Refusal) :
    step s ≠ .refused r := by
  unfold step
  rw [State.irqGate_of_ignore h]
  cases s.fetchDecode with
  | outOfBounds => exact nofun
  | unknown w => exact nofun
  | instr i => exact exec_ne_refused i s r

end Sys2Proof.Machine

/-! SUPPORT. The general registers beside a step and the ports. -/

namespace Sys2Proof.Machine

/-- A register write leaves every other register (spec 10 R17). -/
theorem State.reg_setReg_of_ne {s : State} {q r : Reg} (v : Word) (h : q ≠ r) : (s.setReg r v).reg q = s.reg q := by
  rw [State.reg_setReg, if_neg h]
  split
  · next h0 => rw [h0, State.reg_zero]
  · rfl

end Sys2Proof.Machine

namespace Sys2Proof.Spec

open Sys2Proof.Machine

/-! ### The frame of a step -/

theorem SameRest.refl (s : State) : SameRest s s := ⟨rfl, rfl, rfl, rfl, rfl⟩

theorem SameRest.setReg (s : State) (r : Reg) (v : Word) : SameRest s (s.setReg r v) := by
  simp [SameRest]

/-- A completed instruction leaves every register but one, and all control state (spec 40 R82). -/
theorem exec_frame {i : Instr} {s t : State} (h : exec i s = .next t) :
    SameRest s t ∧ ∃ rd, ∀ r, r ≠ rd → t.reg r = s.reg r := by
  obtain ⟨rd, v, npc, rfl⟩ | ⟨ea, n, v, -, rfl⟩ | ⟨-, rfl⟩ := exec_next_cases h
  · exact ⟨SameRest.setReg s rd v, rd, fun r hr => State.reg_setReg_of_ne v hr⟩
  · exact ⟨SameRest.refl s, 0#5, fun _ _ => rfl⟩
  · exact ⟨SameRest.refl t, 0#5, fun _ _ => rfl⟩

/-- A completed step leaves every register but one, and all control state (spec 10 R24, 40 R82). -/
theorem step_frame {s t : State} (h : step s = .next t) :
    SameRest s t ∧ ∃ rd, ∀ r, r ≠ rd → t.reg r = s.reg r := by
  obtain ⟨-, ⟨w, -, rfl⟩ | ⟨i, -, hi⟩⟩ := step_next_cases h
  · exact ⟨SameRest.refl s, 0#5, fun _ _ => rfl⟩
  · exact exec_frame hi

/-! ### The register ports -/

/-- A register write, in the statements' terms (spec 10 R16, R17). -/
theorem registerWritten_setReg (s : State) (r : Reg) (v : Word) : RegisterWritten s (s.setReg r v) r v s.pc :=
  ⟨fun q => s.reg_setReg r q v, s.setReg_pc r v, fun a => by rw [State.setReg_mem], SameRest.setReg s r v⟩

theorem portRead_of_mem {n : Int} (h : 0 ≤ n ∧ n ≤ 31) (s : State) :
    portRead n s = .ok (s.reg (BitVec.ofNat 5 n.toNat)) s := by
  simp only [portRead, portReg?_eq_some h]

theorem portWrite_of_mem {n : Int} (h : 0 ≤ n ∧ n ≤ 31) (v : Int) (s : State) :
    portWrite n v s = .ok () (s.setReg (BitVec.ofNat 5 n.toNat) (wrap32 v)) := by
  simp only [portWrite, portReg?_eq_some h, wrap32_eq_m32]

theorem portRead_of_not_mem {n : Int} (h : n < 0 ∨ 31 < n) (s : State) :
    portRead n s = .error (.invalidRegister n) := by
  simp only [portRead, portReg?_eq_none h]

theorem portWrite_of_not_mem {n : Int} (h : n < 0 ∨ 31 < n) (v : Int) (s : State) :
    portWrite n v s = .error (.invalidRegister n) := by
  simp only [portWrite, portReg?_eq_none h]

/-- The index of a register with storage is not that of x0 (spec 10 R15). -/
theorem portIndex_ne_zero {n : Int} (h : 1 ≤ n ∧ n ≤ 31) : BitVec.ofNat 5 n.toNat ≠ 0#5 := by
  intro e
  have := congrArg BitVec.toNat e
  simp only [BitVec.toNat_ofNat] at this
  omega

end Sys2Proof.Spec

/-! SUPPORT. The saved-context slot beside each port (spec 10 R24). -/

namespace Sys2Proof.Machine

theorem portWrite_saved (n v : Int) (s : State) : ((portWrite n v s).after s).saved = s.saved := by
  unfold portWrite
  split
  · exact s.setReg_saved _ _
  · rfl

/-- A restore leaves the slot (spec 48 R145). -/
theorem portRestoreContext_saved (ctx : Option RawSnapshot) (s : State) :
    ((portRestoreContext ctx s).after s).saved = s.saved := by
  unfold portRestoreContext
  split
  · next c => exact s.restoreFrom_saved c
  · split
    · next c _ => exact s.restoreFrom_saved c.toRaw
    · rfl

theorem State.portWriteN_saved (s : State) (a : Int) (n : Nat) (v : Int) :
    ((s.portWriteN a n v).after s).saved = s.saved := by
  rw [State.portWriteN_eq]
  split <;> rfl

theorem portWriteBlock_saved (a : Int) (bs : List Byte) (s : State) :
    ((portWriteBlock a bs s).after s).saved = s.saved := by
  rw [portWriteBlock_eq]
  split <;> rfl

theorem portRegister_saved (id priority : Nat) (handler : Int) (description : String) (s : State) :
    ((portRegister id priority handler description s).after s).saved = s.saved := by
  unfold portRegister
  split_ifs <;> rfl

theorem State.setPending_saved (s : State) (id : Nat) (b : Bool) : ((s.setPending id b).after s).saved = s.saved := by
  unfold State.setPending
  split <;> rfl

theorem portStep_saved (s : State) : ((portStep s).after s).saved = s.saved := by
  rcases portStep_after s with h | h
  · rw [h]
  · obtain ⟨⟨hsaved, -⟩, -⟩ := Spec.step_frame h
    exact hsaved

/-- `init_context` starts from a register-file reset, and so empties the slot (spec 48 R146). -/
theorem portInitContext_saved (entry sp : Int) (s : State) : ((portInitContext entry sp s).after s).saved = none := by
  simp [portInitContext]

/-- A facade reset resets the register file, and so empties the slot (spec 70 R168). -/
theorem State.facadeReset_saved (s : State) : s.facadeReset.saved = none := by
  simp [State.facadeReset]

/-- What a transaction does to the slot: nothing, unless it is `save_context` or empties the slot by a register-file
reset (spec 10 R24, R29). -/
theorem transact_saved_cases (t : Txn) (s : State) :
    ((transact t s).after s).saved = s.saved ∨ t = .saveContext ∨
      ((transact t s).after s).saved = none ∧
        (t = .resetRegFile ∨ t = .reset ∨ ∃ entry sp, t = .initContext entry sp) := by
  cases t
  case saveContext => exact .inr (.inl rfl)
  case resetRegFile => exact .inr (.inr ⟨s.resetRegFile_saved, .inl rfl⟩)
  case reset => exact .inr (.inr ⟨s.facadeReset_saved, .inr (.inl rfl)⟩)
  case initContext entry sp => exact .inr (.inr ⟨portInitContext_saved entry sp s, .inr (.inr ⟨entry, sp, rfl⟩)⟩)
  all_goals (refine .inl ?_; rw [transact, PortOutcome.after_map])
  case getPc | setPc | resetMem | hasPending | highestPriorityPending | enable | disable | getState => rfl
  case read n => rw [portRead_after]
  case readByte a | readHalf a | readWord a => exact congrArg State.saved (s.portReadN_after a _)
  case readBlock a len => rw [portReadBlock_after]
  case write n v => exact portWrite_saved n v s
  case restoreContext ctx => exact portRestoreContext_saved ctx s
  case writeByte a v | writeHalf a v | writeWord a v => exact s.portWriteN_saved a _ v
  case writeBlock a bs => exact portWriteBlock_saved a bs s
  case loadProgram words base => exact portWriteBlock_saved base _ s
  case registerInterrupt id p h d => exact portRegister_saved id p h d s
  case triggerInterrupt id | clearInterrupt id => exact s.setPending_saved id _
  case step => exact portStep_saved s

end Sys2Proof.Machine

/-! The statements of spec 10 on the state: what a program and the register file's ports can read and write. -/

namespace Sys2Proof.Spec

open Sys2Proof.Machine

/-- Settles O37: states that agree outside their control state are one state with two control states, and a step neither
reads nor writes that. -/
theorem programsCannotObserveControlState : Obligations.ProgramsCannotObserveControlState := by
  unfold Obligations.ProgramsCannotObserveControlState
  intro s1 s2 hignore hparams hx hpc hmem
  rw [State.eq_withControl hparams hx hpc hmem, step_withControl s2 hignore]
  cases h : step s1 with
  | next t => exact ⟨t.withControl_x s2, t.withControl_pc s2, t.withControl_mem s2⟩
  | fault f => rfl
  | refused r => exact step_ne_refused_of_ignore hignore r h

/-- Settles O35, by the cases of what a completed step can do. -/
theorem stepTouchesOneRegisterAndNoControlState : Obligations.StepTouchesOneRegisterAndNoControlState := by
  unfold Obligations.StepTouchesOneRegisterAndNoControlState
  exact fun s t h => step_frame h

/-- Settles O40, by the three ranges of the index. -/
theorem registerPortsCheckTheIndexAndMask : Obligations.RegisterPortsCheckTheIndexAndMask := by
  unfold Obligations.RegisterPortsCheckTheIndexAndMask
  intro n v s
  refine ⟨fun h => ⟨portRead_of_not_mem h s, portWrite_of_not_mem h v s⟩, ?_, fun h => ?_⟩
  · rintro rfl
    exact ⟨rfl, rfl⟩
  · have hn : 0 ≤ n ∧ n ≤ 31 := by omega
    refine ⟨portRead_of_mem hn s, _, portWrite_of_mem hn v s, ?_, registerWritten_setReg s _ _⟩
    rw [portRead_of_mem hn, State.reg_setReg, if_neg (portIndex_ne_zero h), if_pos rfl]

/-- Settles O47, by the cases of what a transaction does to the slot. -/
theorem savedContextChangesOnlyBySaveOrReset : Obligations.SavedContextChangesOnlyBySaveOrReset := by
  unfold Obligations.SavedContextChangesOnlyBySaveOrReset
  exact fun t s h => (transact_saved_cases t s).resolve_left h

/-- Settles O32: memory is empty, the table is the standard one and the slot is empty. -/
theorem invariantHoldsAtReset : Obligations.InvariantHoldsAtReset := by
  unfold Obligations.InvariantHoldsAtReset
  have hlegal : Params.default.legal = true := by decide
  have hirq : State.reset.irq.wf = true := IrqTable.wf_standard Params.default
  exact ⟨hlegal, rfl, rfl, hirq, rfl, rfl⟩

/-- Settles O39: x0 has no storage, so the reads and writes of every state agree. -/
theorem registerZeroIsHardwired : Obligations.RegisterZeroIsHardwired := by
  unfold Obligations.RegisterZeroIsHardwired
  have hzero : (0 : Int) ≤ 0 ∧ (0 : Int) ≤ 31 := by decide
  refine ⟨State.reg_zero, State.setReg_zero, fun s v => ?_, fun ts s => ?_⟩
  · exact (portWrite_of_mem hzero v s).trans (congrArg _ (s.setReg_zero _))
  · exact (portRead_of_mem hzero _).trans (congrArg (PortOutcome.ok · _) (State.reg_zero _))

/-- Settles O41: `set_pc` is the model's `setPc` of the masked value. -/
theorem pcPortsMask : Obligations.PcPortsMask := by
  unfold Obligations.PcPortsMask
  intro v s
  refine ⟨rfl, s.setPc (m32 v), rfl, ?_, s.reg_setPc _, fun _ => rfl, SameRest.refl s⟩
  rw [wrap32_eq_m32]
  rfl

/-- Settles O60: `get_state` answers the snapshot of the live registers. -/
theorem getStateReturnsRegistersAndPc : Obligations.GetStateReturnsRegistersAndPc := by
  unfold Obligations.GetStateReturnsRegistersAndPc
  exact fun s => ⟨s.snapshot, rfl, s.snapshot_regs, rfl⟩

end Sys2Proof.Spec

/-! SUPPORT. Memory beside a step, and what the memory's ports answer inside and outside memory. -/

namespace Sys2Proof.Machine

/-! ### Byte strings and words -/

/-- A byte outside the span of a byte string written at an integer address reads as before (spec 20 R39). -/
theorem Memory.read_writeBytes_of_outside {a : Int} {c : Nat} {bs : List Byte} (m : Memory) (ha : 0 ≤ a)
    (hc : (c : Int) < a ∨ a + bs.length ≤ c) : (m.writeBytes a.toNat bs).read c = m.read c := by
  have hout : ¬ (a.toNat ≤ c ∧ c < a.toNat + bs.length) := by omega
  rw [Memory.read_writeBytes, dif_neg hout]

/-- A byte of a byte string, where it was written (spec 20 R39). -/
theorem Memory.read_writeBytes_getElem (m : Memory) (a : Nat) {k : Nat} {bs : List Byte} (hk : k < bs.length) :
    (m.writeBytes a bs).read (a + k) = bs[k] := by
  have hin : a ≤ a + k ∧ a + k < a + bs.length := by omega
  simp [Memory.read_writeBytes, hin]

theorem Memory.writeBytes_append (m : Memory) (a : Nat) (bs cs : List Byte) :
    m.writeBytes a (bs ++ cs) = (m.writeBytes a bs).writeBytes (a + bs.length) cs := by
  induction bs generalizing m a with
  | nil => rfl
  | cons b bs ih =>
    rw [List.cons_append, Memory.writeBytes, ih, List.length_cons, Nat.add_assoc, Nat.add_comm 1]
    rfl

@[simp] theorem length_bytesOfWord (w : Word) : (bytesOfWord w).length = 4 := rfl

/-- The bytes of a word are its little-endian bytes (spec 20 R35). -/
theorem leNat_bytesOfWord (w : Word) : leNat (bytesOfWord w) = w.toNat := by
  have := w.isLt
  simp only [bytesOfWord, leNat, BitVec.extractLsb'_toNat, Nat.shiftRight_eq_div_pow]
  omega

theorem length_flatMap_bytesOfWord (ws : List Word) : (ws.flatMap bytesOfWord).length = 4 * ws.length := by
  simp [List.length_flatMap, Nat.mul_comm]

/-- Word j of words written one after another stands at its 4-byte stride (spec 20 R44). -/
theorem Memory.readLE_writeBytes_words (m : Memory) (a : Nat) {j : Nat} {ws : List Word} (hj : j < ws.length) :
    (m.writeBytes a (ws.flatMap bytesOfWord)).readLE (a + 4 * j) 4 = ws[j].toNat := by
  induction ws generalizing m a j with
  | nil => simp at hj
  | cons w ws ih =>
    rw [List.flatMap_cons, Memory.writeBytes_append, length_bytesOfWord]
    cases j with
    | zero =>
      have hkeep : ∀ c, a ≤ c → c < a + 4 →
          ((m.writeBytes a (bytesOfWord w)).writeBytes (a + 4) (ws.flatMap bytesOfWord)).read c =
            (m.writeBytes a (bytesOfWord w)).read c := fun c _ hc => by
        rw [Memory.read_writeBytes, dif_neg (by omega)]
      have hword : (m.writeBytes a (bytesOfWord w)).readBytes a 4 = bytesOfWord w := m.readBytes_writeBytes a _
      rw [show a + 4 * 0 = a from rfl, Memory.readLE, Memory.readBytes_congr hkeep, hword, leNat_bytesOfWord]
      rfl
    | succ j =>
      have hlt : j < ws.length := by simpa using hj
      rw [show a + 4 * (j + 1) = a + 4 + 4 * j by omega, ih _ _ hlt]
      rfl

/-! ### The ports -/

/-- A block read, inside memory and outside (spec 20 R38). -/
theorem portReadBlock_eq (a len : Int) (s : State) :
    portReadBlock a len s =
      if 0 ≤ len ∧ 0 ≤ a ∧ a + len ≤ s.params.memSize then .ok (s.mem.readBytes a.toNat len.toNat) s
      else .error (.outOfBounds a len) := by
  simp only [portReadBlock, inBounds_iff]

/-- A write port of `n` bytes writes the block of the value's `n` low bytes (spec 20 R37, R39). -/
theorem State.portWriteN_eq_portWriteBlock (s : State) (a : Int) (n : Nat) (v : Int) :
    s.portWriteN a n v = portWriteBlock a (leBytes n (v % 2 ^ (8 * n)).toNat) s := by
  rw [State.portWriteN_eq, portWriteBlock_eq, length_leBytes]
  rfl

/-! ### A store and a load -/

/-- A completed load leaves memory (spec 41 R88 to R92). -/
theorem State.mem_of_load {s t : State} {rd : Reg} {ea : Word} {n : Nat} {ext : Nat → Word}
    (h : s.load rd ea n ext = .next t) : t.mem = s.mem := by
  rw [State.load_eq] at h
  split at h <;> cases h
  simp

/-- A completed store had its bytes inside memory, and stored them and advanced the pc (spec 41 R93 to R95). -/
theorem State.store_next {s t : State} {ea : Word} {n : Nat} {v : Word} (h : s.store ea n v = .next t) :
    ea.toNat + n ≤ s.params.memSize ∧ t = { s with mem := s.mem.writeLE ea.toNat n v.toNat }.advance := by
  rw [State.store_eq] at h
  split at h <;> cases h
  exact ⟨‹_›, rfl⟩

/-- After a completed four-byte store, a fetch at its address reads the stored word (spec 20 R49). -/
theorem State.fetch_setPc_of_store {s t : State} {ea v : Word} (h : s.store ea 4 v = .next t) :
    (t.setPc ea).fetch = some v := by
  obtain ⟨hin, rfl⟩ := State.store_next h
  have hplace : ((s.setPc ea).placeWord v).fetch = some v := State.fetch_placeWord _ v hin
  rwa [State.placeWord, State.setPc_pc, State.memWrite_nat, State.setPc_params, if_pos hin] at hplace

/-- What a step decodes to an instruction is a word it fetched (spec 40 R75). -/
theorem State.fetch_of_fetchDecode {s : State} {i : Instr} (h : s.fetchDecode = .instr i) :
    ∃ w, s.fetch = some w ∧ decodeWord w = .ok i := by
  unfold State.fetchDecode at h
  split at h
  · cases h
  · next w hw =>
    split at h
    · next hd => cases h; exact ⟨w, hw, hd⟩
    · cases h

end Sys2Proof.Machine

namespace Sys2Proof.Spec

open Sys2Proof.Machine

/-- A completed instruction leaves memory, or is a store whose bytes, inside memory, it writes (spec 20 R41, 40 R82). -/
theorem exec_mem_cases {i : Instr} {s t : State} (h : exec i s = .next t) :
    t.mem = s.mem ∨ ∃ ea n v, isStore i = true ∧ dataAccess s i = some (ea, n) ∧
      ea.toNat + n ≤ s.params.memSize ∧ t.mem = s.mem.writeLE ea.toNat n v := by
  cases i
  case lb | lh | lw | lbu | lhu => exact .inl (State.mem_of_load h)
  case sb | sh | sw =>
    obtain ⟨hin, rfl⟩ := State.store_next h
    exact .inr ⟨_, _, _, rfl, rfl, hin, rfl⟩
  all_goals (cases h; exact .inl (by simp))

/-! ### The rules of the memory's ports, for every width -/

/-- Every read port returns the little-endian sum or raises (spec 20 R36). -/
theorem readPortRule_portReadN (n : Nat) : ReadPortRule (fun a s => s.portReadN a n) n := by
  intro a s
  refine ⟨fun h => ?_, fun h => ?_⟩ <;> simp only [State.portReadN_eq]
  · rw [if_pos (by omega), leSum_eq_readLE]
  · rw [if_neg (by omega)]

/-- The statements count a width in bits and the model's bytes count it in base 256 (spec 20 R37). -/
theorem two_pow_eight_mul (n : Nat) : (2 : Int) ^ (8 * n) = ((256 ^ n : Nat) : Int) := by
  rw [pow_mul]
  norm_num

/-- Byte `k` of a value's low bytes, on integers (spec 20 R37). -/
theorem toNat_getElem_leBytes {n k : Nat} {v : Int} (hv : 0 ≤ v) (hk : k < (leBytes n v.toNat).length) :
    (((leBytes n v.toNat)[k]).toNat : Int) = v / 2 ^ (8 * k) % 256 := by
  rw [getElem_leBytes, BitVec.toNat_ofNat, two_pow_eight_mul, Int.natCast_mod, Int.natCast_div, Int.toNat_of_nonneg hv]
  rfl

/-- Every write port truncates, stores its bytes and reads back, or raises (spec 20 R37). -/
theorem writePortRule_portWriteN (n : Nat) :
    WritePortRule (fun a v s => s.portWriteN a n v) (fun a s => s.portReadN a n) n := by
  intro a v s
  have hpos : (0 : Int) < 2 ^ (8 * n) := by positivity
  have hv := Int.emod_nonneg v hpos.ne'
  simp only [State.portWriteN_eq_portWriteBlock, portWriteBlock_eq, length_leBytes]
  refine ⟨fun h => ?_, fun h => if_neg (by omega)⟩
  have hin : 0 ≤ a ∧ a + n ≤ s.params.memSize := by omega
  refine ⟨_, if_pos hin, rfl, fun _ => rfl, SameRest.refl s, fun k hk => ?_, fun c hc => ?_, ?_⟩
  · have hk' : k < (leBytes n (v % 2 ^ (8 * n)).toNat).length := by simpa using hk
    rw [Memory.read_writeBytes_getElem _ _ hk', toNat_getElem_leBytes hv]
  · exact s.mem.read_writeBytes_of_outside hin.1 (by simpa using hc)
  · have hlt : (v % 2 ^ (8 * n)).toNat < 256 ^ n := by
      rw [Int.toNat_lt hv, ← two_pow_eight_mul]
      exact Int.emod_lt_of_pos v hpos
    rw [State.portReadN_eq, if_pos hin]
    exact congrArg (PortOutcome.ok · _) ((s.mem.readLE_writeLE _ _ _).trans (Nat.mod_eq_of_lt hlt))

/-! ### The statements of spec 20 -/

/-- Settles O33: a completed step is a series of elementary updates, each of which keeps the invariant. -/
theorem everyStepKeepsTheInvariant : Obligations.EveryStepKeepsTheInvariant := by
  unfold Obligations.EveryStepKeepsTheInvariant
  exact fun s t hs h => State.Update.keeps_all State.Update.keeps_inv (step_updates h) hs

/-- Settles O18: the store leaves the memory of a word placed at its effective address. -/
theorem fetchSeesTheStoredWord : Obligations.FetchSeesTheStoredWord := by
  unfold Obligations.FetchSeesTheStoredWord
  exact fun rs1 rs2 imm s t h => State.fetch_setPc_of_store h

/-- Settles O36: only a store writes memory, and outside its bytes memory reads as before. -/
theorem onlyAStoresBytesChange : Obligations.OnlyAStoresBytesChange := by
  unfold Obligations.OnlyAStoresBytesChange
  intro s t a h hne
  obtain ⟨-, ⟨w, -, rfl⟩ | ⟨i, hf, hi⟩⟩ := step_next_cases h
  · exact absurd rfl hne
  · obtain ⟨w, hw, hd⟩ := State.fetch_of_fetchDecode hf
    obtain hm | ⟨ea, n, v, hstore, hacc, hin, hm⟩ := exec_mem_cases hi
    · exact absurd (by rw [hm]) hne
    · have ha : ea.toNat ≤ a ∧ a < ea.toNat + n := by
        by_contra hout
        exact hne (by rw [hm, Memory.read_writeLE, if_neg hout])
      exact ⟨w, i, ea, n, (atPc_iff_fetch s w).mpr hw, hd, hstore, hacc, ha.1, ha.2, hin⟩

/-- Settles O48: the rule of the read ports at the three widths. -/
theorem memoryReadPortsSumLittleEndian : Obligations.MemoryReadPortsSumLittleEndian := by
  unfold Obligations.MemoryReadPortsSumLittleEndian
  exact ⟨readPortRule_portReadN 1, readPortRule_portReadN 2, readPortRule_portReadN 4⟩

/-- Settles O49: the rule of the write ports at the three widths. -/
theorem memoryWritePortsTruncateAndRoundTrip : Obligations.MemoryWritePortsTruncateAndRoundTrip := by
  unfold Obligations.MemoryWritePortsTruncateAndRoundTrip
  exact ⟨writePortRule_portWriteN 1, writePortRule_portWriteN 2, writePortRule_portWriteN 4⟩

/-- Settles O50, by the span check of each block port. -/
theorem blockPortsAreAllOrNothing : Obligations.BlockPortsAreAllOrNothing := by
  unfold Obligations.BlockPortsAreAllOrNothing
  simp only [portReadBlock_eq, portWriteBlock_eq]
  refine ⟨fun a len s => ⟨fun h => ?_, fun h => if_neg (by omega)⟩,
    fun a bs s => ⟨fun h => ?_, fun h => if_neg (by omega)⟩⟩
  · refine ⟨_, if_pos (by omega), ?_, fun k hk => s.mem.getElem_readBytes _ _ k hk⟩
    rw [Memory.length_readBytes]
    omega
  · exact ⟨_, if_pos (by omega), rfl, fun _ => rfl, SameRest.refl s,
      fun k hk => s.mem.read_writeBytes_getElem _ hk, fun c hc => s.mem.read_writeBytes_of_outside h.1 hc⟩

/-- Settles O51: the words are one block, four bytes to a word. -/
theorem loadProgramPlacesEveryWord : Obligations.LoadProgramPlacesEveryWord := by
  unfold Obligations.LoadProgramPlacesEveryWord
  intro ws base s
  have hlen : ((ws.flatMap bytesOfWord).length : Int) = 4 * ws.length := by
    exact_mod_cast length_flatMap_bytesOfWord ws
  simp only [portLoadProgram, portWriteBlock_eq, hlen]
  refine ⟨fun h => ?_, fun h => if_neg (by omega)⟩
  refine ⟨_, if_pos (by omega), rfl, fun _ => rfl, SameRest.refl s, fun j hj => ?_, fun c hc => ?_⟩
  · rw [leSum_eq_readLE]
    exact s.mem.readLE_writeBytes_words _ hj
  · exact s.mem.read_writeBytes_of_outside h.1 (by rwa [hlen])

end Sys2Proof.Spec

/-! SUPPORT. The rows of the opcode table against the fields of a word and against the encoder. -/

namespace Sys2Proof

/-! ### The fields of a literal word -/

@[simp] theorem opcodeOf_ofNat (n : Nat) : opcodeOf (BitVec.ofNat 32 n) = BitVec.ofNat 7 n := by
  apply BitVec.eq_of_toNat_eq
  simp only [opcodeOf, BitVec.extractLsb'_toNat, BitVec.toNat_ofNat, Nat.shiftRight_eq_div_pow]
  omega

@[simp] theorem funct3Of_ofNat (n : Nat) : funct3Of (BitVec.ofNat 32 n) = BitVec.ofNat 3 (n / 4096) := by
  apply BitVec.eq_of_toNat_eq
  simp only [funct3Of, BitVec.extractLsb'_toNat, BitVec.toNat_ofNat, Nat.shiftRight_eq_div_pow]
  omega

@[simp] theorem funct7Of_ofNat (n : Nat) : funct7Of (BitVec.ofNat 32 n) = BitVec.ofNat 7 (n / 33554432) := by
  apply BitVec.eq_of_toNat_eq
  simp only [funct7Of, BitVec.extractLsb'_toNat, BitVec.toNat_ofNat, Nat.shiftRight_eq_div_pow]
  omega

/-! ### A row's test, by the fields its mask keeps -/

section Accepts

variable {w p : Word} {name : String} {build : Word → Instr}

/-- A row of the R or I-shift format (spec 30 R52). -/
@[simp] theorem accepts_maskR_iff (hp : p &&& 0xFE00707F#32 = p) :
    OpcodeRow.accepts ⟨name, 0xFE00707F#32, p, build⟩ w = true ↔
      funct7Of w = funct7Of p ∧ funct3Of w = funct3Of p ∧ opcodeOf w = opcodeOf p := by
  rw [OpcodeRow.accepts, beq_iff_eq, ← maskR_iff, ← and_maskR, hp]

/-- A row of the I, S or B format (spec 30 R52). -/
@[simp] theorem accepts_maskI_iff (hp : p &&& 0x0000707F#32 = p) :
    OpcodeRow.accepts ⟨name, 0x0000707F#32, p, build⟩ w = true ↔
      funct3Of w = funct3Of p ∧ opcodeOf w = opcodeOf p := by
  rw [OpcodeRow.accepts, beq_iff_eq, ← maskI_iff, ← and_maskI, hp]

/-- A row of the U or J format (spec 30 R52). -/
@[simp] theorem accepts_maskU_iff (hp : p &&& 0x0000007F#32 = p) :
    OpcodeRow.accepts ⟨name, 0x0000007F#32, p, build⟩ w = true ↔ opcodeOf w = opcodeOf p := by
  rw [OpcodeRow.accepts, beq_iff_eq, ← maskU_iff, ← and_maskU, hp]

/-- A row of one exact word (spec 30 R66). -/
@[simp] theorem accepts_maskAll_iff : OpcodeRow.accepts ⟨name, 0xFFFFFFFF#32, p, build⟩ w = true ↔ w = p := by
  rw [OpcodeRow.accepts, beq_iff_eq, and_maskAll]

end Accepts

/-! ### A word is the encoding of its fields and of no others -/

@[simp] theorem encodeR_eq_iff (w : Word) (f7 : BitVec 7) (f3 : BitVec 3) (op : BitVec 7) :
    encodeR f7 (rs2Of w) (rs1Of w) f3 (rdOf w) op = w ↔ funct7Of w = f7 ∧ funct3Of w = f3 ∧ opcodeOf w = op := by
  refine ⟨fun h => by rw [← h]; simp, ?_⟩
  rintro ⟨rfl, rfl, rfl⟩
  exact encodeR_fields w

@[simp] theorem encodeI_eq_iff (w : Word) (f3 : BitVec 3) (op : BitVec 7) :
    encodeI (immIOf w) (rs1Of w) f3 (rdOf w) op = w ↔ funct3Of w = f3 ∧ opcodeOf w = op := by
  refine ⟨fun h => by rw [← h]; simp, ?_⟩
  rintro ⟨rfl, rfl⟩
  exact encodeI_fields w

@[simp] theorem encodeS_eq_iff (w : Word) (f3 : BitVec 3) (op : BitVec 7) :
    encodeS (immSOf w) (rs2Of w) (rs1Of w) f3 op = w ↔ funct3Of w = f3 ∧ opcodeOf w = op := by
  refine ⟨fun h => by rw [← h]; simp, ?_⟩
  rintro ⟨rfl, rfl⟩
  exact encodeS_fields w

@[simp] theorem encodeB_eq_iff (w : Word) (f3 : BitVec 3) (op : BitVec 7) :
    encodeB (immBOf w) (rs2Of w) (rs1Of w) f3 op = w ↔ funct3Of w = f3 ∧ opcodeOf w = op := by
  refine ⟨fun h => by rw [← h]; simp, ?_⟩
  rintro ⟨rfl, rfl⟩
  exact encodeB_fields w

@[simp] theorem encodeU_eq_iff (w : Word) (op : BitVec 7) : encodeU (immUOf w) (rdOf w) op = w ↔ opcodeOf w = op := by
  refine ⟨fun h => by rw [← h]; simp, ?_⟩
  rintro rfl
  exact encodeU_fields w

@[simp] theorem encodeJ_eq_iff (w : Word) (op : BitVec 7) : encodeJ (immJOf w) (rdOf w) op = w ↔ opcodeOf w = op := by
  refine ⟨fun h => by rw [← h]; simp, ?_⟩
  rintro rfl
  exact encodeJ_fields w

/-- The shift amount is the field of rs2 (spec 30 R51). -/
theorem shamtOf_eq_rs2Of (w : Word) : shamtOf w = rs2Of w := rfl

/-! ### The rows of the opcode table -/

/-- A row takes exactly the words that are the encoding of what it builds of them: its mask keeps the fixed fields of
its format (spec 30 R52). -/
theorem accepts_iff_encode_build {w : Word} : ∀ r ∈ opcodeTable, r.accepts w = true ↔ encode (r.build w) = w := by
  simp only [opcodeTable, List.forall_mem_append]
  refine ⟨⟨⟨⟨⟨⟨?load, ?opImm⟩, ?store⟩, ?op⟩, ?mulDiv⟩, ?branch⟩, ?other⟩
  case load => simp [loadRows, encode]
  case opImm => simp [opImmRows, encode, shamtOf_eq_rs2Of]
  case store => simp [storeRows, encode]
  case op => simp [opRows, encode]
  case mulDiv => simp [mulDivRows, encode]
  case branch => simp [branchRows, encode]
  case other => simp [otherRows, encode, eq_comm (a := w)]

/-- A row builds an instruction that some word encodes: a decoded immediate has its implicit zero bits (spec 30 R55 to
R57). -/
theorem wellFormed_build {w : Word} : ∀ r ∈ opcodeTable, (r.build w).wellFormed = true := by
  simp only [opcodeTable, List.forall_mem_append]
  refine ⟨⟨⟨⟨⟨⟨?load, ?opImm⟩, ?store⟩, ?op⟩, ?mulDiv⟩, ?branch⟩, ?other⟩
  case load => simp [loadRows, Instr.wellFormed]
  case opImm => simp [opImmRows, Instr.wellFormed]
  case store => simp [storeRows, Instr.wellFormed]
  case op => simp [opRows, Instr.wellFormed]
  case mulDiv => simp [mulDivRows, Instr.wellFormed]
  case branch => simp [branchRows, Instr.wellFormed, immBOf_wellFormed]
  case other => simp [otherRows, Instr.wellFormed, immUOf_wellFormed, immJOf_wellFormed]

/-- The pattern of a row has the opcode of one of the ten classes (spec 30 R59). -/
theorem opcodeOf_pattern_mem : ∀ r ∈ opcodeTable, opcodeOf r.pattern ∈
    [0x03#7, 0x13#7, 0x17#7, 0x23#7, 0x33#7, 0x37#7, 0x63#7, 0x67#7, 0x6F#7, 0x73#7] := by decide

/-- The mask of every row keeps the opcode (spec 30 R59). -/
theorem mask_keeps_opcode : ∀ r ∈ opcodeTable, r.mask &&& 0x7F#32 = 0x7F#32 := by decide

/-- A row takes only words of its own opcode. -/
theorem opcodeOf_eq_of_accepts {r : OpcodeRow} {w : Word} (hr : r ∈ opcodeTable) (h : r.accepts w = true) :
    opcodeOf w = opcodeOf r.pattern := by
  rw [OpcodeRow.accepts, beq_iff_eq] at h
  rw [← maskU_iff, ← and_maskU, ← h, BitVec.and_assoc, mask_keeps_opcode r hr]

/-- The patterns of two rows differ in a bit that both masks keep (spec 30 R70: checked over every pair of rows). -/
theorem opcodeTable_pairwise_clash :
    opcodeTable.Pairwise (fun r q => r.pattern &&& q.mask ≠ q.pattern &&& r.mask) := by decide

/-- No word is taken by two rows (spec 30 R70). -/
theorem opcodeTable_pairwise_disjoint (w : Word) :
    opcodeTable.Pairwise (fun r q => r.accepts w = true → q.accepts w = false) := by
  refine opcodeTable_pairwise_clash.imp fun {r q} hclash hr => ?_
  by_contra hq
  rw [Bool.not_eq_false, OpcodeRow.accepts, beq_iff_eq] at hq
  rw [OpcodeRow.accepts, beq_iff_eq] at hr
  rw [← hr, ← hq, BitVec.and_assoc, BitVec.and_assoc, BitVec.and_comm r.mask] at hclash
  exact hclash rfl

/-- Only one row takes a word (spec 30 R70). -/
theorem opcodeTable_index_unique {w : Word} {j k : Nat} {r q : OpcodeRow} (hj : opcodeTable[j]? = some r)
    (hk : opcodeTable[k]? = some q) (hr : r.accepts w = true) (hq : q.accepts w = true) : j = k := by
  obtain ⟨hjlt, rfl⟩ := List.getElem?_eq_some_iff.mp hj
  obtain ⟨hklt, rfl⟩ := List.getElem?_eq_some_iff.mp hk
  have hdisjoint := List.pairwise_iff_getElem.mp (opcodeTable_pairwise_disjoint w)
  rcases Nat.lt_trichotomy j k with hlt | heq | hgt
  · exact absurd hq (Bool.eq_false_iff.mp (hdisjoint j k hjlt hklt hlt hr))
  · exact heq
  · exact absurd hr (Bool.eq_false_iff.mp (hdisjoint k j hklt hjlt hgt hq))

/-! ### The search of the rows -/

theorem decodeByRows_eq_find? (w : Word) (rs : List OpcodeRow) :
    decodeByRows w rs = (rs.find? (·.accepts w)).map (·.build w) := by
  induction rs with
  | nil => rfl
  | cons r rs ih =>
    by_cases h : r.accepts w = true
    · simp [decodeByRows, h]
    · simp [decodeByRows, h, ih]

theorem decodeByRows_eq_none_iff {w : Word} {rs : List OpcodeRow} :
    decodeByRows w rs = none ↔ ∀ r ∈ rs, r.accepts w = false := by
  simp [decodeByRows_eq_find?]

theorem exists_row_of_decodeByRows {w : Word} {rs : List OpcodeRow} {i : Instr} (h : decodeByRows w rs = some i) :
    ∃ r ∈ rs, r.accepts w = true ∧ r.build w = i := by
  rw [decodeByRows_eq_find?, Option.map_eq_some_iff] at h
  obtain ⟨r, hfind, hbuild⟩ := h
  exact ⟨r, List.mem_of_find?_eq_some hfind, List.find?_some (p := fun r : OpcodeRow => r.accepts w) hfind, hbuild⟩

/-- The rows of one opcode class (spec 30 R59). -/
def rowsOf (op : BitVec 7) : List OpcodeRow := opcodeTable.filter (fun r => opcodeOf r.pattern == op)

/-- The search need look at the rows of the word's own class only. -/
theorem decodeByRows_rowsOf (w : Word) : decodeByRows w (rowsOf (opcodeOf w)) = decodeByRows w opcodeTable := by
  rw [decodeByRows_eq_find?, decodeByRows_eq_find?, rowsOf, List.find?_filter]
  refine congrArg _ (List.find?_congr fun r hr => ?_)
  by_cases h : r.accepts w = true
  · simp [h, opcodeOf_eq_of_accepts hr h]
  · simp [h]

theorem rowsOf_auipc : rowsOf 0x17#7 = [otherRows[0]] := rfl

theorem rowsOf_lui : rowsOf 0x37#7 = [otherRows[1]] := rfl

theorem rowsOf_jal : rowsOf 0x6F#7 = [otherRows[3]] := rfl

/-- No row takes a word outside the ten classes (spec 30 R59, R68). -/
theorem decodeByRows_opcodeTable_of_opcode {w : Word} (h : opcodeOf w ∉
    [0x03#7, 0x13#7, 0x17#7, 0x23#7, 0x33#7, 0x37#7, 0x63#7, 0x67#7, 0x6F#7, 0x73#7]) :
    decodeByRows w opcodeTable = none := by
  rw [decodeByRows_eq_none_iff]
  intro r hr
  by_contra haccepts
  rw [Bool.not_eq_false] at haccepts
  exact h (opcodeOf_eq_of_accepts hr haccepts ▸ opcodeOf_pattern_mem r hr)

end Sys2Proof

/-! SUPPORT. The decoder against the opcode table and the encoder. -/

namespace Sys2Proof

/-! ### Each class of the decoder is the search of its rows -/

theorem decodeLoad_toOption {w : Word} (hop : opcodeOf w = 0x03#7) :
    (decodeLoad w).toOption = decodeByRows w loadRows := by
  unfold decodeLoad
  split <;> simp_all [loadRows, decodeByRows, Except.toOption]

theorem decodeOpImm_toOption {w : Word} (hop : opcodeOf w = 0x13#7) :
    (decodeOpImm w).toOption = decodeByRows w opImmRows := by
  unfold decodeOpImm
  split
  case h_7 | h_8 => split <;> simp_all [opImmRows, decodeByRows, Except.toOption]
  all_goals simp_all [opImmRows, decodeByRows, Except.toOption]

theorem decodeStore_toOption {w : Word} (hop : opcodeOf w = 0x23#7) :
    (decodeStore w).toOption = decodeByRows w storeRows := by
  unfold decodeStore
  split <;> simp_all [storeRows, decodeByRows, Except.toOption]

theorem decodeOpBase_toOption {w : Word} (hop : opcodeOf w = 0x33#7) (hf7 : funct7Of w = 0b0000000#7) :
    (decodeOpBase w).toOption = decodeByRows w (opRows ++ mulDivRows) := by
  unfold decodeOpBase
  split <;> simp_all [opRows, mulDivRows, decodeByRows, Except.toOption]

theorem decodeOpAlt_toOption {w : Word} (hop : opcodeOf w = 0x33#7) (hf7 : funct7Of w = 0b0100000#7) :
    (decodeOpAlt w).toOption = decodeByRows w (opRows ++ mulDivRows) := by
  unfold decodeOpAlt
  split <;> simp_all [opRows, mulDivRows, decodeByRows, Except.toOption]

theorem decodeOpMulDiv_toOption {w : Word} (hop : opcodeOf w = 0x33#7) (hf7 : funct7Of w = 0b0000001#7) :
    (decodeOpMulDiv w).toOption = decodeByRows w (opRows ++ mulDivRows) := by
  unfold decodeOpMulDiv
  split <;> simp_all [opRows, mulDivRows, decodeByRows, Except.toOption]

theorem decodeOp_toOption {w : Word} (hop : opcodeOf w = 0x33#7) :
    (decodeOp w).toOption = decodeByRows w (opRows ++ mulDivRows) := by
  unfold decodeOp
  split
  · next hf7 => exact decodeOpBase_toOption hop hf7
  · next hf7 => exact decodeOpAlt_toOption hop hf7
  · next hf7 => exact decodeOpMulDiv_toOption hop hf7
  · simp_all [opRows, mulDivRows, decodeByRows, Except.toOption]

theorem decodeBranch_toOption {w : Word} (hop : opcodeOf w = 0x63#7) :
    (decodeBranch w).toOption = decodeByRows w branchRows := by
  unfold decodeBranch
  split <;> simp_all [branchRows, decodeByRows, Except.toOption]

theorem decodeJalr_toOption {w : Word} (hop : opcodeOf w = 0x67#7) :
    (decodeJalr w).toOption = decodeByRows w [otherRows[2]] := by
  unfold decodeJalr
  split <;> simp_all [otherRows, decodeByRows, Except.toOption]

theorem decodeSystem_toOption (w : Word) :
    (decodeSystem w).toOption = decodeByRows w [otherRows[4], otherRows[5]] := by
  unfold decodeSystem
  split_ifs <;> simp_all [otherRows, decodeByRows, Except.toOption]

/-- The class dispatch is the search of the opcode table (spec 30 R59, R70). -/
theorem decodeClass_toOption (w : Word) : (decodeClass w).toOption = decodeByRows w opcodeTable := by
  rw [← decodeByRows_rowsOf]
  unfold decodeClass
  split
  next hop => rw [hop]; exact decodeLoad_toOption hop
  next hop => rw [hop]; exact decodeOpImm_toOption hop
  next hop => rw [hop, rowsOf_auipc]; simp [otherRows, decodeByRows, Except.toOption, hop]
  next hop => rw [hop]; exact decodeStore_toOption hop
  next hop => rw [hop]; exact decodeOp_toOption hop
  next hop => rw [hop, rowsOf_lui]; simp [otherRows, decodeByRows, Except.toOption, hop]
  next hop => rw [hop]; exact decodeBranch_toOption hop
  next hop => rw [hop]; exact decodeJalr_toOption hop
  next hop => rw [hop, rowsOf_jal]; simp [otherRows, decodeByRows, Except.toOption, hop]
  next hop => rw [hop]; exact decodeSystem_toOption w
  next =>
    rw [decodeByRows_rowsOf]
    refine (decodeByRows_opcodeTable_of_opcode ?_).symm
    simp_all

/-! ### The decoder -/

theorem decodeWord_of_opcode_ne_zero {w : Word} (h : opcodeOf w ≠ 0#7) : decodeWord w = decodeClass w :=
  decodeWord_of_ne_zero (ne_zero_of_opcode rfl h)

/-- The decoder is the decoder of spec 30 R70. -/
theorem decodeWord_toOption (w : Word) : (decodeWord w).toOption = decodeByTable w := by
  unfold decodeWord decodeByTable
  split
  · rfl
  · exact decodeClass_toOption w

/-- A decoded word is the sentinel, or a word of a row that builds what it decodes to (spec 30 R70). -/
theorem decodeWord_ok_cases {w : Word} {i : Instr} (h : decodeWord w = .ok i) :
    w = 0#32 ∧ i = .halt ∨ ∃ r ∈ opcodeTable, r.accepts w = true ∧ r.build w = i := by
  have htable : decodeByTable w = some i := by rw [← decodeWord_toOption, h]; rfl
  unfold decodeByTable at htable
  split at htable
  · next hw => exact .inl ⟨hw, (Option.some.inj htable).symm⟩
  · exact .inr (exists_row_of_decodeByRows htable)

/-- A decoded instruction is well formed, and its encoding is the decoded word (spec 30 R52 to R67). -/
theorem wellFormed_and_encode_of_decodeWord {w : Word} {i : Instr} (h : decodeWord w = .ok i) :
    i.wellFormed = true ∧ encode i = w := by
  obtain ⟨rfl, rfl⟩ | ⟨r, hr, haccepts, rfl⟩ := decodeWord_ok_cases h
  · exact ⟨rfl, rfl⟩
  · exact ⟨wellFormed_build r hr, (accepts_iff_encode_build r hr).mp haccepts⟩

/-- A nonzero word is unknown exactly when no row takes it (spec 30 R68). -/
theorem exists_error_iff {w : Word} (hw : w ≠ 0#32) :
    (∃ r, decodeWord w = .error r) ↔ ∀ r ∈ opcodeTable, r.accepts w = false := by
  rw [← decodeByRows_eq_none_iff, ← decodeClass_toOption, decodeWord_of_ne_zero hw]
  cases decodeClass w <;> simp [Except.toOption]

/-- The decoder reads from the encoding of a well-formed instruction that instruction (spec 30 R52 to R67). -/
theorem decodeWord_encode {i : Instr} (h : i.wellFormed = true) : decodeWord (encode i) = .ok i := by
  cases i
  case lb | lh | lw | lbu | lhu => simp [encode, decodeWord_of_opcode_ne_zero, decodeClass, decodeLoad]
  case addi | slti | sltiu | xori | ori | andi | slli | srli | srai =>
    simp [encode, decodeWord_of_opcode_ne_zero, decodeClass, decodeOpImm]
  case sb | sh | sw => simp [encode, decodeWord_of_opcode_ne_zero, decodeClass, decodeStore]
  case add | sll | slt | sltu | xor | srl | or | and =>
    simp [encode, decodeWord_of_opcode_ne_zero, decodeClass, decodeOp, decodeOpBase]
  case sub | sra => simp [encode, decodeWord_of_opcode_ne_zero, decodeClass, decodeOp, decodeOpAlt]
  case mul | mulh | mulhsu | mulhu | div | divu | rem | remu =>
    simp [encode, decodeWord_of_opcode_ne_zero, decodeClass, decodeOp, decodeOpMulDiv]
  case auipc | lui => simp [encode, decodeWord_of_opcode_ne_zero, decodeClass, immUOf_encodeU _ _ _ h]
  case beq | bne | blt | bge | bltu | bgeu =>
    simp [encode, decodeWord_of_opcode_ne_zero, decodeClass, decodeBranch, immBOf_encodeB _ _ _ _ _ h]
  case jalr => simp [encode, decodeWord_of_opcode_ne_zero, decodeClass, decodeJalr]
  case jal => simp [encode, decodeWord_of_opcode_ne_zero, decodeClass, immJOf_encodeJ _ _ _ h]
  case ecall | ebreak | halt => rfl

/-- Every word of a row decodes to what the row builds of it (spec 30 R70). -/
theorem decodeWord_of_accepts {r : OpcodeRow} {w : Word} (hr : r ∈ opcodeTable) (h : r.accepts w = true) :
    decodeWord w = .ok (r.build w) := by
  have henc : encode (r.build w) = w := (accepts_iff_encode_build r hr).mp h
  have hdec := decodeWord_encode (wellFormed_build (w := w) r hr)
  rwa [henc] at hdec

end Sys2Proof

/-! SUPPORT. The pc after an instruction, and why it stays even (spec 46 R128). -/

namespace Sys2Proof.Machine

/-! ### Even words -/

/-- A number is even where its bit 0 is clear. -/
theorem toNat_mod_two_eq_zero_iff {n : Nat} (v : BitVec n) : v.toNat % 2 = 0 ↔ v.getLsbD 0 = false := by
  simp [BitVec.getLsbD]

theorem add_even {a b : Word} (ha : a.toNat % 2 = 0) (hb : b.toNat % 2 = 0) : (a + b).toNat % 2 = 0 := by
  rw [BitVec.toNat_add]
  omega

/-- Sign extension keeps bit 0 (spec 00 R11). -/
theorem sext_even {n : Nat} {v : BitVec n} (hn : 0 < n) (h : v.getLsbD 0 = false) : (sext v).toNat % 2 = 0 := by
  rw [toNat_mod_two_eq_zero_iff, sext, BitVec.getLsbD_signExtend]
  simp only [hn, h, if_true, Bool.and_false]

/-- An offset a B word can encode is even (spec 30 R55). -/
theorem sext_immB_even {imm : BitVec 13} (h : immBWellFormed imm = true) : (sext imm).toNat % 2 = 0 :=
  sext_even (by decide) (by simpa [immBWellFormed] using h)

/-- An offset a J word can encode is even (spec 30 R57). -/
theorem sext_immJ_even {imm : BitVec 21} (h : immJWellFormed imm = true) : (sext imm).toNat % 2 = 0 :=
  sext_even (by decide) (by simpa [immJWellFormed] using h)

/-- JALR clears bit 0 of its target (spec 46 R139). -/
theorem and_not_one_even (v : Word) : (v &&& 0xFFFFFFFE#32).toNat % 2 = 0 := by
  rw [toNat_mod_two_eq_zero_iff, BitVec.getLsbD_and]
  simp

/-- The next pc of an even pc is even (spec 10 R22). -/
theorem add_four_even {a : Word} (h : a.toNat % 2 = 0) : (a + 4#32).toNat % 2 = 0 := add_even h rfl

/-! ### The shared operations -/

/-- A completed load advances the pc (spec 41 R88 to R92). -/
theorem State.pc_of_load {s t : State} {rd : Reg} {ea : Word} {n : Nat} {ext : Nat → Word}
    (h : s.load rd ea n ext = .next t) : t.pc = s.pc + 4#32 := by
  rw [State.load_eq] at h
  split at h <;> cases h
  rfl

/-- A completed store advances the pc (spec 41 R93 to R95). -/
theorem State.pc_of_store {s t : State} {ea : Word} {n : Nat} {v : Word} (h : s.store ea n v = .next t) :
    t.pc = s.pc + 4#32 := by
  obtain ⟨-, rfl⟩ := State.store_next h
  rfl

/-- A branch by an even offset leads from an even pc to an even pc, taken or not (spec 46 R131). -/
theorem State.pc_even_of_branchIf {s t : State} {taken : Bool} {imm : BitVec 13} (himm : immBWellFormed imm = true)
    (hpc : s.pc.toNat % 2 = 0) (h : s.branchIf taken imm = .next t) : t.pc.toNat % 2 = 0 := by
  cases h
  rw [State.setPc_pc]
  cases taken with
  | true => exact add_even hpc (sext_immB_even himm)
  | false => exact add_four_even hpc

/-! ### An instruction and a step -/

/-- An instruction some word encodes leads from an even pc to an even pc (spec 46 R128). -/
theorem exec_pc_even {i : Instr} {s t : State} (hi : i.wellFormed = true) (hpc : s.pc.toNat % 2 = 0)
    (h : exec i s = .next t) : t.pc.toNat % 2 = 0 := by
  cases i
  case lb | lh | lw | lbu | lhu => rw [State.pc_of_load h]; exact add_four_even hpc
  case sb | sh | sw => rw [State.pc_of_store h]; exact add_four_even hpc
  case beq | bne | blt | bge | bltu | bgeu => exact State.pc_even_of_branchIf hi hpc h
  case jal => cases h; exact add_even hpc (sext_immJ_even hi)
  case jalr => cases h; exact and_not_one_even _
  case halt => cases h; exact hpc
  all_goals (cases h; exact add_four_even hpc)

/-- What a step decodes to an instruction is one that some word encodes. -/
theorem State.wellFormed_of_fetchDecode {s : State} {i : Instr} (h : s.fetchDecode = .instr i) :
    i.wellFormed = true := by
  obtain ⟨w, -, hd⟩ := State.fetch_of_fetchDecode h
  exact (wellFormed_and_encode_of_decodeWord hd).1

/-- A step leads from an even pc to an even pc (spec 10 R22, 46 R128). -/
theorem step_pc_even {s t : State} (h : step s = .next t) (hpc : s.pc.toNat % 2 = 0) : t.pc.toNat % 2 = 0 := by
  obtain ⟨-, ⟨w, -, rfl⟩ | ⟨i, hf, hi⟩⟩ := step_next_cases h
  · exact add_four_even hpc
  · exact exec_pc_even (State.wellFormed_of_fetchDecode hf) hpc hi

end Sys2Proof.Machine

/-! The statements on the encoding, and the pc that stays even. -/

namespace Sys2Proof.Spec

open Sys2Proof.Machine

/-- Settles O1: case by case of the instruction, each class reads back the fields its format wrote. -/
theorem decodeOfEncodeIsTheInstruction : Obligations.DecodeOfEncodeIsTheInstruction := by
  unfold Obligations.DecodeOfEncodeIsTheInstruction
  exact fun i h => decodeWord_encode h

/-- Settles O2: a decoded word is taken by a row, and a row takes only the encodings of what it builds. -/
theorem decodedWordIsTheEncoding : Obligations.DecodedWordIsTheEncoding := by
  unfold Obligations.DecodedWordIsTheEncoding
  exact fun w i h => wellFormed_and_encode_of_decodeWord h

/-- Settles O30: the offsets of decoded words are even, since a decoded instruction is well formed. -/
theorem evenPcStaysEven : Obligations.EvenPcStaysEven := by
  unfold Obligations.EvenPcStaysEven
  exact fun s t h hpc => step_pc_even h hpc

/-- Settles O3: each class searches its own rows, and two rows differ in a bit that both masks keep. -/
theorem decoderSearchesTheOpcodeTable : Obligations.DecoderSearchesTheOpcodeTable := by
  unfold Obligations.DecoderSearchesTheOpcodeTable
  exact ⟨decodeWord_toOption, fun w j k r q hj hk hr hq => opcodeTable_index_unique hj hk hr hq⟩

/-- Settles O4: a word outside the ten classes is taken by no row, and a nonzero word of no row is unknown. -/
theorem unknownWordsAreThoseOfNoRow : Obligations.UnknownWordsAreThoseOfNoRow := by
  unfold Obligations.UnknownWordsAreThoseOfNoRow
  refine ⟨fun w hw => exists_error_iff hw, fun w hw hop => ?_⟩
  rw [exists_error_iff hw, ← decodeByRows_eq_none_iff]
  exact decodeByRows_opcodeTable_of_opcode hop

/-- Settles O5: the decoder, evaluated on each word. -/
theorem specWordsDecode : Obligations.SpecWordsDecode := by
  unfold Obligations.SpecWordsDecode
  decide

end Sys2Proof.Spec

/-! SUPPORT. The step, its status and the host's run, by what the interrupt sample, the fetch and the decoder answer. -/

namespace Sys2Proof.Machine

/-! ### The step in each case of R75 -/

section
variable {s : State}

theorem step_of_irqGate {r : Refusal} (hg : s.irqGate = some r) : step s = .refused r := by
  simp only [step, hg]

theorem step_of_outOfBounds (hg : s.irqGate = none) (hf : s.fetchDecode = .outOfBounds) :
    step s = .fault (.outOfBounds s.pc.toNat 4) := by
  simp only [step, hg, hf, raiseOutOfBounds]

theorem step_of_unknown {w : Word} (hg : s.irqGate = none) (hf : s.fetchDecode = .unknown w) :
    step s = .next s.advance := by
  simp only [step, hg, hf]

theorem step_of_instr {i : Instr} (hg : s.irqGate = none) (hf : s.fetchDecode = .instr i) : step s = exec i s := by
  simp only [step, hg, hf]

/-! ### Its status in the cases that answer a next state (spec 40 R84) -/

theorem stepStatus_of_unknown {w : Word} (hg : s.irqGate = none) (hf : s.fetchDecode = .unknown w) :
    stepStatus s = .unknown w s.pc := by
  simp only [stepStatus, hg, hf]

theorem stepStatus_of_halt (hg : s.irqGate = none) (hf : s.fetchDecode = .instr .halt) : stepStatus s = .halt s.pc := by
  simp only [stepStatus, hg, hf]

theorem stepStatus_of_instr {i : Instr} {t : State} (hg : s.irqGate = none) (hf : s.fetchDecode = .instr i)
    (hi : i ≠ .halt) (hx : exec i s = .next t) : stepStatus s = .ok := by
  simp only [stepStatus, hg, hf, hx]

/-! ### The inversions of the other two answers -/

/-- Only the interrupt sample refuses a step (spec 40 R76). -/
theorem step_refused_iff {r : Refusal} : step s = .refused r ↔ s.irqGate = some r := by
  refine ⟨fun h => ?_, step_of_irqGate⟩
  cases hg : s.irqGate with
  | some q => rw [step_of_irqGate hg] at h; cases h; rfl
  | none =>
    cases hf : s.fetchDecode with
    | outOfBounds => rw [step_of_outOfBounds hg hf] at h; cases h
    | unknown w => rw [step_of_unknown hg hf] at h; cases h
    | instr i => rw [step_of_instr hg hf] at h; exact absurd h (exec_ne_refused i s r)

/-- A step raises an error in its fetch or in the decoded instruction (spec 40 R83). -/
theorem step_fault_iff {f : Fault} :
    step s = .fault f ↔ s.irqGate = none ∧ (s.fetchDecode = .outOfBounds ∧ f = .outOfBounds s.pc.toNat 4 ∨
      ∃ i, s.fetchDecode = .instr i ∧ exec i s = .fault f) := by
  constructor
  · intro h
    cases hg : s.irqGate with
    | some q => rw [step_of_irqGate hg] at h; cases h
    | none =>
      cases hf : s.fetchDecode with
      | outOfBounds => rw [step_of_outOfBounds hg hf] at h; cases h; exact ⟨rfl, .inl ⟨rfl, rfl⟩⟩
      | unknown w => rw [step_of_unknown hg hf] at h; cases h
      | instr i => rw [step_of_instr hg hf] at h; exact ⟨rfl, .inr ⟨i, rfl, h⟩⟩
  · rintro ⟨hg, ⟨hf, rfl⟩ | ⟨i, hf, hx⟩⟩
    · exact step_of_outOfBounds hg hf
    · rw [step_of_instr hg hf, hx]

/-! ### The step as a transaction -/

theorem transact_step_after_of_next {t : State} (h : step s = .next t) : (transact .step s).after s = t := by
  simp only [transact, PortOutcome.after_map, portStep, h, PortOutcome.after_ok]

theorem transact_step_after_of_fault {f : Fault} (h : step s = .fault f) : (transact .step s).after s = s := by
  cases f
  simp only [transact, PortOutcome.after_map, portStep, h, PortOutcome.after_error]

/-! ### The host's run (spec 40 R85) -/

theorem hostRun_of_stop {t : State} (k : Nat) (h : step s = .next t)
    (hc : (stepStatus s).continues s.params ≠ some true) : hostRun (k + 1) s = .stopped t (stepStatus s) := by
  simp only [hostRun, h, if_neg hc]

theorem hostRun_of_fault {f : Fault} (k : Nat) (h : step s = .fault f) : hostRun (k + 1) s = .raised s f := by
  simp only [hostRun, h]

end

/-! ### The errors of a load and a store -/

theorem ite_next_fault_eq_fault_iff {c : Prop} [Decidable c] {t : State} {f g : Fault} :
    (if c then (.next t : Result) else .fault g) = .fault f ↔ ¬ c ∧ f = g := by
  split <;> simp [*, eq_comm]

theorem State.load_fault_iff {s : State} {rd : Reg} {ea : Word} {n : Nat} {ext : Nat → Word} {f : Fault} :
    s.load rd ea n ext = .fault f ↔ s.params.memSize < ea.toNat + n ∧ f = .outOfBounds ea.toNat n := by
  rw [State.load_eq, ite_next_fault_eq_fault_iff, Nat.not_le]

theorem State.store_fault_iff {s : State} {ea : Word} {n : Nat} {v : Word} {f : Fault} :
    s.store ea n v = .fault f ↔ s.params.memSize < ea.toNat + n ∧ f = .outOfBounds ea.toNat n := by
  rw [State.store_eq, ite_next_fault_eq_fault_iff, Nat.not_le]

end Sys2Proof.Machine

namespace Sys2Proof.Spec

open Sys2Proof.Machine

/-! ### What the step finds at the pc, in the statements' terms -/

theorem fetchDecode_eq_outOfBounds_iff (s : State) :
    s.fetchDecode = .outOfBounds ↔ s.params.memSize < s.pc.toNat + 4 := by
  rw [← Nat.not_le]
  cases h : s.fetch with
  | none =>
    have hout : ¬ s.pc.toNat + 4 ≤ s.params.memSize := fun hin => by simp [State.fetch_eq, hin] at h
    simp only [State.fetchDecode, h, hout, not_false_eq_true]
  | some w =>
    have hin := ((atPc_iff_fetch s w).mpr h).1
    rw [State.fetchDecode_of_fetch h]
    cases decodeWord w <;> simp [hin]

theorem fetchDecode_eq_unknown_iff (s : State) (w : Word) :
    s.fetchDecode = .unknown w ↔ AtPc s w ∧ ∃ r, decodeWord w = .error r := by
  rw [atPc_iff_fetch]
  refine ⟨fun h => ?_, fun ⟨hw, r, hd⟩ => by rw [State.fetchDecode_of_fetch hw, hd]⟩
  unfold State.fetchDecode at h
  split at h
  · cases h
  · next v hv =>
    split at h
    · cases h
    · next r hd => cases h; exact ⟨hv, r, hd⟩

theorem fetchDecode_eq_instr_iff (s : State) (i : Instr) :
    s.fetchDecode = .instr i ↔ ∃ w, AtPc s w ∧ decodeWord w = .ok i := by
  simp only [atPc_iff_fetch]
  refine ⟨State.fetch_of_fetchDecode, fun ⟨w, hw, hd⟩ => ?_⟩
  rw [State.fetchDecode_of_fetch hw, hd]

theorem fetchDecode_eq_halt_iff (s : State) : s.fetchDecode = .instr .halt ↔ AtPc s 0#32 := by
  rw [fetchDecode_eq_instr_iff]
  refine ⟨fun ⟨w, hw, hd⟩ => ?_, fun h => ⟨_, h, rfl⟩⟩
  have henc : 0#32 = w := (wellFormed_and_encode_of_decodeWord hd).2
  exact henc ▸ hw

/-- One word stands at the pc. -/
theorem AtPc.unique {s : State} {v w : Word} (hv : AtPc s v) (hw : AtPc s w) : v = w := hv.2.trans hw.2.symm

/-! ### The frame of an unknown word, and the bounds that decide a fault -/

/-- The advance over an unknown word, in the statements' terms (spec 40 R79). -/
theorem advance_frame (s : State) :
    s.advance.pc = wrap32 (uval s.pc + 4) ∧ SameRegs s s.advance ∧ SameMemory s s.advance ∧ SameRest s s.advance :=
  ⟨(wrap32_add_four s.pc).symm, fun _ => rfl, fun _ => rfl, SameRest.refl s⟩

/-- An instruction raises exactly OutOfBounds of its data access, where that is not inside memory (spec 40 R83). -/
theorem exec_fault_iff {i : Instr} {s : State} {f : Fault} :
    exec i s = .fault f ↔
      ∃ ea n, dataAccess s i = some (ea, n) ∧ s.params.memSize < ea.toNat + n ∧ f = .outOfBounds ea.toNat n := by
  have access : ∀ (ea : Word) (n : Nat), (s.params.memSize < ea.toNat + n ∧ f = .outOfBounds ea.toNat n) ↔
      ∃ ea' n', some (ea, n) = some (ea', n') ∧ s.params.memSize < ea'.toNat + n' ∧ f = .outOfBounds ea'.toNat n' :=
    fun ea n => ⟨fun h => ⟨ea, n, rfl, h⟩, fun ⟨_, _, he, h⟩ => by cases he; exact h⟩
  cases i
  case lb | lh | lw | lbu | lhu => exact State.load_fault_iff.trans (access _ _)
  case sb | sh | sw => exact State.store_fault_iff.trans (access _ _)
  all_goals exact ⟨nofun, nofun⟩

/-- A step raises exactly OutOfBounds of its failed fetch or data access (spec 40 R83). -/
theorem step_fault_iff_bounds {s : State} {f : Fault} :
    step s = .fault f ↔ SampleLetsThrough s ∧
      ((s.params.memSize < s.pc.toNat + 4 ∧ f = .outOfBounds s.pc.toNat 4) ∨
        ∃ w i ea n, AtPc s w ∧ decodeWord w = .ok i ∧ dataAccess s i = some (ea, n) ∧
          s.params.memSize < ea.toNat + n ∧ f = .outOfBounds ea.toNat n) := by
  simp only [step_fault_iff, ← sampleLetsThrough_iff, fetchDecode_eq_outOfBounds_iff, fetchDecode_eq_instr_iff,
    exec_fault_iff]
  refine and_congr_right fun _ => or_congr_right ⟨?_, ?_⟩
  · rintro ⟨i, ⟨w, hw, hd⟩, ea, n, haccess⟩
    exact ⟨w, i, ea, n, hw, hd, haccess⟩
  · rintro ⟨w, i, ea, n, hw, hd, haccess⟩
    exact ⟨i, ⟨w, hw, hd⟩, ea, n, haccess⟩

/-! ### The step on the sentinel and on an unknown word -/

section
variable {s : State} (hs : SampleLetsThrough s)
include hs

/-- The sentinel: nothing changes and the status is HALT (spec 40 R78). -/
theorem step_and_status_of_sentinel (h0 : AtPc s 0#32) : step s = .next s ∧ stepStatus s = .halt s.pc := by
  have hg := (sampleLetsThrough_iff s).mp hs
  have hf := (fetchDecode_eq_halt_iff s).mpr h0
  exact ⟨step_of_instr hg hf, stepStatus_of_halt hg hf⟩

/-- An unknown word: the pc advances and the status is UNKNOWN (spec 40 R79). -/
theorem step_and_status_of_unknown {w : Word} (hw : AtPc s w) (hd : ∃ r, decodeWord w = .error r) :
    step s = .next s.advance ∧ stepStatus s = .unknown w s.pc := by
  have hg := (sampleLetsThrough_iff s).mp hs
  have hf := (fetchDecode_eq_unknown_iff s w).mpr ⟨hw, hd⟩
  exact ⟨step_of_unknown hg hf, stepStatus_of_unknown hg hf⟩

end

end Sys2Proof.Spec

/-! The statements of spec 40 on the step. -/

namespace Sys2Proof.Spec

open Sys2Proof.Machine

/-- Settles O8: the zero word decodes to HALT, whose execution is the state itself, so a second step finds it again. -/
theorem sentinelHaltsWithNoChange : Obligations.SentinelHaltsWithNoChange := by
  unfold Obligations.SentinelHaltsWithNoChange
  refine ⟨fun _ => rfl, fun s hs h0 => ?_⟩
  obtain ⟨hstep, hstatus⟩ := step_and_status_of_sentinel hs h0
  refine ⟨hstep, hstatus, by rw [hstatus]; rfl, ?_⟩
  have hafter := transact_step_after_of_next hstep
  simp only [transactAll, hafter]

/-- Settles O9: a nonzero word of no row is one the decoder rejects, and the step passes over it. -/
theorem unknownWordOnlyAdvancesThePc : Obligations.UnknownWordOnlyAdvancesThePc := by
  unfold Obligations.UnknownWordOnlyAdvancesThePc
  intro s w hs hw hne hrows
  obtain ⟨hstep, hstatus⟩ := step_and_status_of_unknown hs hw ((exists_error_iff hne).mpr hrows)
  refine ⟨⟨_, hstep, advance_frame s⟩, hstatus, ?_⟩
  simp only [hstatus, StepStatus.continues, Option.some.injEq, beq_iff_eq]

/-- Settles O10: under ignore a step commutes with a change of control state and changes none itself; under refuse the
sample is the step's gate. -/
theorem interruptSampleHasNoEffectUnlessRefusing : Obligations.InterruptSampleHasNoEffectUnlessRefusing := by
  unfold Obligations.InterruptSampleHasNoEffectUnlessRefusing
  refine ⟨fun _ => rfl, fun s table en hignore => ?_, fun s id e hrefuse hp => ?_⟩
  · refine (step_withControl { s with irq := table, irqEn := en } hignore).trans ?_
    cases h : step s with
    | next t =>
      obtain ⟨⟨hsaved, -, -, -, hfree⟩, -⟩ := step_frame h
      simp only [Result.withControl, State.withControl, ← hsaved, ← hfree]
    | fault f => rfl
    | refused r => rfl
  · exact step_of_irqGate (by simp only [State.irqGate, hrefuse, hp])

/-- Settles O11, by the inversion of a step that raises. -/
theorem stepFaultsExactlyOnFailedBoundsChecks : Obligations.StepFaultsExactlyOnFailedBoundsChecks := by
  unfold Obligations.StepFaultsExactlyOnFailedBoundsChecks
  exact fun s f => ⟨step_fault_iff_bounds, transact_step_after_of_fault⟩

/-- Settles O12: the two other answers of a step are a failed bounds check and a refusing sample. -/
theorem stepCompletesWithinBounds : Obligations.StepCompletesWithinBounds := by
  unfold Obligations.StepCompletesWithinBounds
  intro s w hs hw hin
  cases h : step s with
  | next t => exact ⟨t, rfl⟩
  | fault f =>
    obtain ⟨-, ⟨hpc, -⟩ | ⟨v, i, ea, n, hv, hd, haccess, hout, -⟩⟩ := step_fault_iff_bounds.mp h
    · exact absurd hw.1 (Nat.not_le.mpr hpc)
    · exact absurd (hin i ea n (hv.unique hw ▸ hd) haccess) (Nat.not_le.mpr hout)
  | refused r =>
    rw [step_refused_iff, (sampleLetsThrough_iff s).mp hs] at h
    cases h

/-- Settles O13, by the cases of the step: the sample, the fetch, and what the decoded instruction answers. -/
theorem statusSaysWhatTheStepDid : Obligations.StatusSaysWhatTheStepDid := by
  unfold Obligations.StatusSaysWhatTheStepDid
  intro s
  cases h : step s with
  | refused r => rw [stepStatus_of_refused h]
  | fault f =>
    cases f with
    | outOfBounds a n => rw [stepStatus_of_fault h]; exact ⟨rfl, rfl⟩
  | next t =>
    obtain ⟨hg, ⟨w, hf, rfl⟩ | ⟨i, hf, hx⟩⟩ := step_next_cases h
    · obtain ⟨hw, hd⟩ := (fetchDecode_eq_unknown_iff s w).mp hf
      rw [stepStatus_of_unknown hg hf]
      exact ⟨rfl, hw, hd, ⟨_, rfl, advance_frame s⟩, rfl⟩
    · by_cases hi : i = .halt
      · subst hi
        cases hx
        rw [stepStatus_of_halt hg hf]
        exact ⟨rfl, (fetchDecode_eq_halt_iff s).mp hf, rfl, rfl⟩
      · obtain ⟨w, hw, hd⟩ := (fetchDecode_eq_instr_iff s i).mp hf
        rw [stepStatus_of_instr hg hf hi hx]
        exact ⟨⟨w, i, hw, hd, hi, hx.symm⟩, ⟨t, rfl⟩, rfl⟩

/-- Settles O14: the first step of the run does not continue, or raises. -/
theorem hostRunEndsWhereContinueIsFalse : Obligations.HostRunEndsWhereContinueIsFalse := by
  unfold Obligations.HostRunEndsWhereContinueIsFalse
  refine ⟨fun k s hs h0 => ?_, fun k s w r hs hw hd hpolicy => ?_, fun k s f h => hostRun_of_fault k h⟩
  · obtain ⟨hstep, hstatus⟩ := step_and_status_of_sentinel hs h0
    rw [← hstatus]
    exact hostRun_of_stop k hstep (by rw [hstatus]; exact nofun)
  · obtain ⟨hstep, hstatus⟩ := step_and_status_of_unknown hs hw ⟨r, hd⟩
    refine ⟨_, ?_, hstep⟩
    rw [← hstatus]
    exact hostRun_of_stop k hstep (by rw [hstatus, StepStatus.continues, hpolicy]; decide)

/-- Settles O6: the fetch and the decoder answer the instruction, and the sample is not in the way. -/
theorem stepRunsTheDecodedInstruction : Obligations.StepRunsTheDecodedInstruction := by
  unfold Obligations.StepRunsTheDecodedInstruction
  exact fun s w i hs hw hd =>
    step_of_instr ((sampleLetsThrough_iff s).mp hs) ((fetchDecode_eq_instr_iff s i).mpr ⟨w, hw, hd⟩)

/-- Settles O7: the fetched word is the little-endian sum, and an out-of-bounds fetch is one of the step's faults. -/
theorem fetchReadsTheWordAtThePc : Obligations.FetchReadsTheWordAtThePc := by
  unfold Obligations.FetchReadsTheWordAtThePc
  refine fun s => ⟨fun w => (atPc_iff_fetch s w).mp, fun hout hs => ?_⟩
  have hstep := step_fault_iff_bounds.mpr ⟨hs, .inl ⟨hout, rfl⟩⟩
  exact ⟨hstep, transact_step_after_of_fault hstep⟩

end Sys2Proof.Spec

/-! SUPPORT. A load and a store in the statements' terms: the row that decodes to each, the value or the bytes it puts,
and its frame. -/

namespace Sys2Proof.Machine

/-- A completed load had its bytes inside memory, and wrote their number, extended, to its destination and advanced the
pc (spec 41 R88 to R92). -/
theorem State.load_next {s t : State} {rd : Reg} {ea : Word} {n : Nat} {ext : Nat → Word}
    (h : s.load rd ea n ext = .next t) :
    ea.toNat + n ≤ s.params.memSize ∧ t = (s.setReg rd (ext (s.mem.readLE ea.toNat n))).setPc (s.pc + 4#32) := by
  rw [State.load_eq] at h
  split at h <;> cases h
  exact ⟨‹_›, rfl⟩

/-- A load changes no register but its destination (spec 41 R87). -/
theorem State.reg_of_load {s t : State} {rd r : Reg} {ea : Word} {n : Nat} {ext : Nat → Word}
    (h : s.load rd ea n ext = .next t) (hr : r ≠ rd) : t.reg r = s.reg r := by
  obtain ⟨-, rfl⟩ := State.load_next h
  exact State.reg_setReg_of_ne _ hr

/-- A store changes no register (spec 41 R87). -/
theorem State.reg_of_store {s t : State} {ea : Word} {n : Nat} {v : Word} (h : s.store ea n v = .next t) (r : Reg) :
    t.reg r = s.reg r := by
  obtain ⟨-, rfl⟩ := State.store_next h
  rfl

/-- Byte `k` of a stored number (spec 20 R37). -/
theorem Memory.toNat_read_writeLE (m : Memory) (a v : Nat) {n k : Nat} (hk : k < n) :
    ((m.writeLE a n v).read (a + k)).toNat = v / 2 ^ (8 * k) % 256 := by
  rw [Memory.read_writeLE, if_pos (by omega), BitVec.toNat_ofNat, Nat.add_sub_cancel_left, Nat.pow_mul]

/-- A byte outside the span of a stored number reads as before (spec 20 R37). -/
theorem Memory.read_writeLE_of_outside (m : Memory) {a n c : Nat} (v : Nat) (hc : c < a ∨ a + n ≤ c) :
    (m.writeLE a n v).read c = m.read c := by
  rw [Memory.read_writeLE, if_neg (by omega)]

end Sys2Proof.Machine

namespace Sys2Proof.Spec

open Sys2Proof.Machine

/-! ### The rows, and the readings of a loaded number -/

/-- The words of every row of the opcode table decode to what the row builds (spec 30 R70). -/
theorem rowDecodes_opcodeTable (j : Nat) (hj : j < opcodeTable.length := by decide) :
    RowDecodes opcodeTable[j].mask opcodeTable[j].pattern opcodeTable[j].build :=
  fun _ h => decodeWord_of_accepts (List.getElem_mem hj) (beq_iff_eq.mpr h)

/-- The sign extension of an `n`-bit number (spec 41 R88, R89). -/
theorem sext_ofNat {n v : Nat} (hn : 0 < n) (hv : v < 2 ^ n) : sext (BitVec.ofNat n v) = wrap32 (signed n v) := by
  rw [← wrap32_signed hn, BitVec.toNat_ofNat, Nat.mod_eq_of_lt hv]

/-- The zero extension of an `n`-bit number (spec 41 R91, R92). -/
theorem zext_ofNat {n v : Nat} (hv : v < 2 ^ n) : zext (BitVec.ofNat n v) = wrap32 v := by
  rw [wrap32_natCast]
  apply BitVec.eq_of_toNat_eq
  rw [zext, BitVec.toNat_setWidth, BitVec.toNat_ofNat, BitVec.toNat_ofNat, Nat.mod_eq_of_lt hv]

/-! ### The rules -/

/-- A value written to a register with the pc advanced, in the statements' terms (spec 40 R82). -/
theorem registerWritten_setReg_setPc (s : State) (rd : Reg) (v : Word) :
    RegisterWritten s ((s.setReg rd v).setPc (s.pc + 4#32)) rd v (wrap32 (uval s.pc + 4)) := by
  obtain ⟨hreg, -, hmem, hrest⟩ := registerWritten_setReg s rd v
  exact ⟨hreg, (wrap32_add_four s.pc).symm, hmem, hrest⟩

/-- An instruction that is a load of `n` bytes keeps the load rule, for the value its extension gives of every
`n`-byte number (spec 41 R88 to R92). -/
theorem loadRule_of_exec_eq_load {mk : Reg → Reg → BitVec 12 → Instr} {pattern : Word} {n : Nat}
    {ext value : Nat → Word}
    (hrow : RowDecodes 0x0000707F#32 pattern (fun w => mk (rdOf w) (rs1Of w) (immIOf w)))
    (hexec : ∀ rd rs1 imm s, exec (mk rd rs1 imm) s = s.load rd (effAddr (s.reg rs1) imm) n ext)
    (hext : ∀ v, v < 256 ^ n → ext v = value v) : LoadRule mk pattern n value := by
  refine ⟨hrow, fun rd rs1 imm s => ⟨fun hin => ?_, fun hout => ?_⟩⟩
  · rw [Writes, hexec, State.load_eq, if_pos hin, hext _ (s.mem.readLE_lt _ _), leSum_eq_readLE]
    exact ⟨_, rfl, registerWritten_setReg_setPc s rd _⟩
  · rw [hexec]
    exact State.load_fault_iff.mpr ⟨hout, rfl⟩

/-- An instruction that is a store of `n` bytes keeps the store rule (spec 41 R93 to R95). -/
theorem storeRule_of_exec_eq_store {mk : Reg → Reg → BitVec 12 → Instr} {pattern : Word} {n : Nat}
    (hrow : RowDecodes 0x0000707F#32 pattern (fun w => mk (rs1Of w) (rs2Of w) (immSOf w)))
    (hexec : ∀ rs1 rs2 imm s, exec (mk rs1 rs2 imm) s = s.store (effAddr (s.reg rs1) imm) n (s.reg rs2)) :
    StoreRule mk pattern n := by
  refine ⟨hrow, fun rs1 rs2 imm s => ?_⟩
  rw [hexec]
  refine ⟨fun hin => ?_, fun hout => State.store_fault_iff.mpr ⟨hout, rfl⟩⟩
  rw [State.store_eq, if_pos hin]
  exact ⟨_, rfl, (wrap32_add_four s.pc).symm, fun _ => rfl, SameRest.refl s,
    fun k hk => s.mem.toNat_read_writeLE _ _ hk, fun c hc => s.mem.read_writeLE_of_outside _ hc⟩

/-! ### An instruction by its data access -/

/-- An instruction whose data access, if it has one, is inside memory completes (spec 41 R86, 60 R152). -/
theorem exec_completes {i : Instr} {s : State}
    (hin : ∀ ea n, dataAccess s i = some (ea, n) → ea.toNat + n ≤ s.params.memSize) : ∃ t, exec i s = .next t := by
  cases h : exec i s with
  | next t => exact ⟨t, rfl⟩
  | fault f =>
    obtain ⟨ea, n, hacc, hout, -⟩ := exec_fault_iff.mp h
    exact absurd (hin ea n hacc) (Nat.not_le.mpr hout)
  | refused r => exact absurd h (exec_ne_refused i s r)

/-- A completed load or store keeps every register but the destination of a load (spec 41 R87). -/
theorem reg_of_exec_dataAccess {i : Instr} {s t : State} {ea : Word} {n : Nat} {r : Reg}
    (hacc : dataAccess s i = some (ea, n)) (h : exec i s = .next t)
    (hr : ∀ rs1 imm, i ≠ .lb r rs1 imm ∧ i ≠ .lh r rs1 imm ∧ i ≠ .lw r rs1 imm ∧ i ≠ .lbu r rs1 imm ∧
      i ≠ .lhu r rs1 imm) : t.reg r = s.reg r := by
  cases i
  case lb rd rs1 imm | lh rd rs1 imm | lw rd rs1 imm | lbu rd rs1 imm | lhu rd rs1 imm =>
    have hne : r ≠ rd := by
      rintro rfl
      simpa using hr rs1 imm
    exact State.reg_of_load h hne
  case sb | sh | sw => exact State.reg_of_store h r
  all_goals cases hacc

/-! ### The statements of spec 41 -/

/-- Settles O15: a load or a store fails exactly on its bounds check, and writes at most its destination. -/
theorem effectiveAddressWrapsAndKeepsTheBase : Obligations.EffectiveAddressWrapsAndKeepsTheBase := by
  unfold Obligations.EffectiveAddressWrapsAndKeepsTheBase
  refine ⟨fun base imm => (wrap32_add_signed (by decide) base imm).symm, fun i s ea n hacc => ⟨fun hin => ?_,
    fun hout => exec_fault_iff.mpr ⟨ea, n, hacc, hout, rfl⟩, fun t h r hr => reg_of_exec_dataAccess hacc h hr⟩⟩
  refine exec_completes fun ea' n' hacc' => ?_
  cases hacc.symm.trans hacc'
  exact hin

/-- Settles O16: each load is the shared load at its row (0 to 4 of the opcode table), width and extension. -/
theorem loadsReadExtendedMemory : Obligations.LoadsReadExtendedMemory := by
  unfold Obligations.LoadsReadExtendedMemory
  refine ⟨?lb, ?lh, ?lw, ?lbu, ?lhu⟩
  case lb =>
    exact loadRule_of_exec_eq_load (rowDecodes_opcodeTable 0) (fun _ _ _ _ => rfl) (fun _ hv => sext_ofNat (by decide) hv)
  case lh =>
    exact loadRule_of_exec_eq_load (rowDecodes_opcodeTable 1) (fun _ _ _ _ => rfl) (fun _ hv => sext_ofNat (by decide) hv)
  case lw =>
    exact loadRule_of_exec_eq_load (rowDecodes_opcodeTable 2) (fun _ _ _ _ => rfl) (fun v _ => (wrap32_natCast v).symm)
  case lbu =>
    exact loadRule_of_exec_eq_load (rowDecodes_opcodeTable 3) (fun _ _ _ _ => rfl) (fun _ hv => zext_ofNat hv)
  case lhu =>
    exact loadRule_of_exec_eq_load (rowDecodes_opcodeTable 4) (fun _ _ _ _ => rfl) (fun _ hv => zext_ofNat hv)

/-- Settles O17: each store is the shared store at its row (14 to 16 of the opcode table) and width. -/
theorem storesWriteTheirBytesOrNothing : Obligations.StoresWriteTheirBytesOrNothing := by
  unfold Obligations.StoresWriteTheirBytesOrNothing
  exact ⟨storeRule_of_exec_eq_store (rowDecodes_opcodeTable 14) (fun _ _ _ _ => rfl),
    storeRule_of_exec_eq_store (rowDecodes_opcodeTable 15) (fun _ _ _ _ => rfl),
    storeRule_of_exec_eq_store (rowDecodes_opcodeTable 16) (fun _ _ _ _ => rfl)⟩

end Sys2Proof.Spec

/-! SUPPORT. A register-immediate instruction in the statements' terms: the value it writes, on integers, and the words
of its opcode that no row takes. -/

namespace Sys2Proof

/-- The OP-IMM class by its opcode (spec 30 R59). -/
theorem decodeWord_of_opImm {w : Word} (hop : opcodeOf w = 0x13#7) : decodeWord w = decodeOpImm w := by
  simp [decodeWord_of_opcode_ne_zero, decodeClass, hop]

/-- The only funct7 of a left shift by an immediate is 0x00 (spec 42 R102). -/
theorem decodeOpImm_unknown_of_shiftLeft {w : Word} (hf3 : funct3Of w = 0b001#3) (h0 : funct7Of w ≠ 0x00#7) :
    decodeOpImm w = .error (.unknownFunct7 w) := by
  -- hf3 selects the alternative of funct3 001; by h0 the match on funct7 falls to its last alternative
  simp only [decodeOpImm, hf3]

/-- The only funct7 of a right shift by an immediate are 0x00 and 0x20 (spec 42 R103, R104). -/
theorem decodeOpImm_unknown_of_shiftRight {w : Word} (hf3 : funct3Of w = 0b101#3) (h0 : funct7Of w ≠ 0x00#7)
    (h20 : funct7Of w ≠ 0x20#7) : decodeOpImm w = .error (.unknownFunct7 w) := by
  -- hf3 selects the alternative of funct3 101; by h0 and h20 the match on funct7 falls to its last alternative
  simp only [decodeOpImm, hf3]

end Sys2Proof

namespace Sys2Proof.Spec

open Sys2Proof.Machine

/-! ### The operations on words, on integers -/

/-- The signed comparison (spec 42 R97). -/
theorem oneIf_sval_lt (a b : Word) : oneIf (sval a < sval b) = boolWord (ltS a b) := by
  simp only [boolWord, oneIf, ltS_iff]

/-- The unsigned comparison (spec 42 R98). -/
theorem oneIf_uval_lt (a b : Word) : oneIf (uval a < uval b) = boolWord (ltU a b) := by
  simp only [boolWord, oneIf, ltU_iff]

/-- A left shift multiplies by a power of two (spec 42 R102). -/
theorem wrap32_mul_two_pow (a : Word) (k : Nat) : wrap32 (uval a * 2 ^ k) = a <<< k := by
  have hcast : uval a * 2 ^ k = ((a.toNat * 2 ^ k : Nat) : Int) := by simp [uval]
  rw [hcast, wrap32_natCast]
  apply BitVec.eq_of_toNat_eq
  rw [BitVec.toNat_ofNat, BitVec.toNat_shiftLeft, Nat.shiftLeft_eq]

/-- A logical right shift divides the unsigned value by a power of two, rounding down (spec 42 R103). -/
theorem wrap32_uval_div_two_pow (a : Word) (k : Nat) : wrap32 (uval a / 2 ^ k) = a >>> k := by
  have hcast : uval a / 2 ^ k = ((a.toNat / 2 ^ k : Nat) : Int) := by simp [uval]
  have hlt : a.toNat / 2 ^ k < 2 ^ 32 := (Nat.div_le_self _ _).trans_lt a.isLt
  rw [hcast, wrap32_natCast]
  apply BitVec.eq_of_toNat_eq
  rw [BitVec.toNat_ofNat, Nat.mod_eq_of_lt hlt, BitVec.toNat_ushiftRight, Nat.shiftRight_eq_div_pow]

/-- An arithmetic right shift divides the signed value by a power of two, rounding down (spec 42 R104). -/
theorem wrap32_sval_div_two_pow (a : Word) (k : Nat) : wrap32 (sval a / 2 ^ k) = a.sshiftRight k := by
  rw [wrap32_eq_ofInt, sval_eq_toInt, BitVec.sshiftRight, Int.shiftRight_eq_div_pow, Nat.cast_pow,
    Nat.cast_ofNat]

/-! ### The rules -/

/-- An instruction that commits a register value completes and writes it (spec 40 R82). -/
theorem writes_of_exec_eq_retire {i : Instr} {s : State} {rd : Reg} {v : Word} (h : exec i s = s.retire rd v) :
    Writes i s rd v :=
  ⟨_, h.trans (s.retire_eq rd v), registerWritten_setReg_setPc s rd v⟩

/-- An instruction that commits the rule's value of x[rs1] and the sign-extended immediate keeps the OP-IMM rule
(spec 42 R96 to R101). -/
theorem opImmRule_of_exec_eq_retire {mk : Reg → Reg → BitVec 12 → Instr} {pattern : Word}
    {value : Word → Word → Word}
    (hrow : RowDecodes 0x0000707F#32 pattern (fun w => mk (rdOf w) (rs1Of w) (immIOf w)))
    (hexec : ∀ rd rs1 imm s, exec (mk rd rs1 imm) s = s.retire rd (value (s.reg rs1) (sext imm))) :
    OpImmRule mk pattern value := by
  refine ⟨hrow, fun rd rs1 imm s => ?_⟩
  rw [wrap32_signed (by decide)]
  exact writes_of_exec_eq_retire (hexec rd rs1 imm s)

/-- An instruction that commits the rule's value of x[rs1] and shamt keeps the immediate-shift rule (spec 42 R102 to
R104). -/
theorem shiftImmRule_of_exec_eq_retire {mk : Reg → Reg → BitVec 5 → Instr} {pattern : Word}
    {value : Word → Nat → Word}
    (hrow : RowDecodes 0xFE00707F#32 pattern (fun w => mk (rdOf w) (rs1Of w) (shamtOf w)))
    (hexec : ∀ rd rs1 shamt s, exec (mk rd rs1 shamt) s = s.retire rd (value (s.reg rs1) shamt.toNat)) :
    ShiftImmRule mk pattern value :=
  ⟨hrow, fun rd rs1 shamt s => writes_of_exec_eq_retire (hexec rd rs1 shamt s)⟩

/-! ### The statements of spec 42 -/

/-- Settles O19: each instruction is the shared commit, at its row (5 to 10 of the opcode table), of its value. -/
theorem opImmWritesTheRulesValue : Obligations.OpImmWritesTheRulesValue := by
  unfold Obligations.OpImmWritesTheRulesValue
  refine ⟨?addi, ?slti, ?sltiu, ?xori, ?ori, ?andi⟩
  case addi =>
    refine opImmRule_of_exec_eq_retire (rowDecodes_opcodeTable 5) fun rd rs1 imm s => ?_
    rw [wrap32_add]
    rfl
  case slti =>
    refine opImmRule_of_exec_eq_retire (rowDecodes_opcodeTable 6) fun rd rs1 imm s => ?_
    rw [oneIf_sval_lt]
    rfl
  case sltiu =>
    refine opImmRule_of_exec_eq_retire (rowDecodes_opcodeTable 7) fun rd rs1 imm s => ?_
    rw [oneIf_uval_lt]
    rfl
  case xori => exact opImmRule_of_exec_eq_retire (rowDecodes_opcodeTable 8) fun _ _ _ _ => rfl
  case ori => exact opImmRule_of_exec_eq_retire (rowDecodes_opcodeTable 9) fun _ _ _ _ => rfl
  case andi => exact opImmRule_of_exec_eq_retire (rowDecodes_opcodeTable 10) fun _ _ _ _ => rfl

/-- Settles O20: each shift is the shared commit, at its row (11 to 13 of the opcode table), of its value; the decoder
knows no other funct7 of their opcode and funct3. -/
theorem immediateShiftsScaleByPowersOfTwo : Obligations.ImmediateShiftsScaleByPowersOfTwo := by
  unfold Obligations.ImmediateShiftsScaleByPowersOfTwo
  refine ⟨?slli, ?srli, ?srai, fun w hw h0 => ?unknownLeft, fun w hw h0 h20 => ?unknownRight⟩
  case slli =>
    refine shiftImmRule_of_exec_eq_retire (rowDecodes_opcodeTable 11) fun rd rs1 shamt s => ?_
    rw [wrap32_mul_two_pow]
    rfl
  case srli =>
    refine shiftImmRule_of_exec_eq_retire (rowDecodes_opcodeTable 12) fun rd rs1 shamt s => ?_
    rw [wrap32_uval_div_two_pow]
    rfl
  case srai =>
    refine shiftImmRule_of_exec_eq_retire (rowDecodes_opcodeTable 13) fun rd rs1 shamt s => ?_
    rw [wrap32_sval_div_two_pow]
    rfl
  case unknownLeft =>
    obtain ⟨hf3, hop⟩ := (maskI_iff w 0b001#3 0x13#7).mp hw
    exact ⟨_, (decodeWord_of_opImm hop).trans (decodeOpImm_unknown_of_shiftLeft hf3 h0)⟩
  case unknownRight =>
    obtain ⟨hf3, hop⟩ := (maskI_iff w 0b101#3 0x13#7).mp hw
    exact ⟨_, (decodeWord_of_opImm hop).trans (decodeOpImm_unknown_of_shiftRight hf3 h0 h20)⟩

end Sys2Proof.Spec

/-! SUPPORT. The upper immediate as a masked word. -/

namespace Sys2Proof

/-- The U-immediate is the word with its low 12 bits cleared (spec 30 R56). -/
theorem and_maskImmU (w : Word) : w &&& 0xFFFFF000#32 = immUOf w := by
  apply BitVec.eq_of_getLsbD_eq
  intro i hi
  simp only [immUOf, BitVec.getLsbD_and, BitVec.getLsbD_append, BitVec.getLsbD_extractLsb']
  interval_cases i <;> simp

end Sys2Proof

namespace Sys2Proof.Spec

open Sys2Proof.Machine

/-- Settles O21: each instruction is the shared commit, at its row (41 and 42 of the opcode table), of its value. -/
theorem upperImmediatesAreShiftedIntoPlace : Obligations.UpperImmediatesAreShiftedIntoPlace := by
  unfold Obligations.UpperImmediatesAreShiftedIntoPlace
  simp only [and_maskImmU]
  refine ⟨?auipcRow, ?luiRow, fun rd imm s => ?auipcWrites, fun rd imm s => ?luiWrites⟩
  case auipcRow => exact rowDecodes_opcodeTable 41
  case luiRow => exact rowDecodes_opcodeTable 42
  case auipcWrites =>
    rw [wrap32_add]
    exact writes_of_exec_eq_retire rfl
  case luiWrites => exact writes_of_exec_eq_retire rfl

end Sys2Proof.Spec

/-! SUPPORT. A register-register instruction in the statements' terms: the value it writes, and the words of its opcode
that no row takes. -/

namespace Sys2Proof

/-- The OP class by its opcode (spec 30 R59). -/
theorem decodeWord_of_op {w : Word} (hop : opcodeOf w = 0x33#7) : decodeWord w = decodeOp w := by
  simp [decodeWord_of_opcode_ne_zero, decodeClass, hop]

/-- The OP class knows three funct7 (spec 44 R117). -/
theorem decodeOp_unknown_of_funct7 {w : Word} (h0 : funct7Of w ≠ 0x00#7) (h20 : funct7Of w ≠ 0x20#7)
    (h1 : funct7Of w ≠ 0x01#7) : decodeOp w = .error (.unknownFunct7 w) := by
  -- by h0, h20 and h1 the match on funct7 falls to its last alternative
  simp only [decodeOp]

/-- Under funct7 0x20 the OP class knows SUB and SRA only (spec 44 R117). -/
theorem decodeOp_unknown_of_funct3 {w : Word} (hf7 : funct7Of w = 0x20#7) (h0 : funct3Of w ≠ 0b000#3)
    (h5 : funct3Of w ≠ 0b101#3) : decodeOp w = .error (.unknownFunct7 w) := by
  -- hf7 selects the alternative of funct7 0x20; by h0 and h5 its match on funct3 falls to its last alternative
  simp only [decodeOp, hf7, decodeOpAlt]

end Sys2Proof

namespace Sys2Proof.Spec

open Sys2Proof.Machine

/-! ### The rule -/

/-- An instruction that commits an operation of x[rs1] and x[rs2], where the operation gives the rule's value, keeps the
register-register rule (spec 44, 45). -/
theorem opRule_of_exec_eq_retire {mk : Reg → Reg → Reg → Instr} {pattern : Word}
    {op value : Params → Word → Word → Word}
    (hrow : RowDecodes 0xFE00707F#32 pattern (fun w => mk (rdOf w) (rs1Of w) (rs2Of w)))
    (hvalue : ∀ p a b, value p a b = op p a b)
    (hexec : ∀ rd rs1 rs2 s, exec (mk rd rs1 rs2) s = s.retire rd (op s.params (s.reg rs1) (s.reg rs2))) :
    OpRule mk pattern value := by
  refine ⟨hrow, fun rd rs1 rs2 s => ?_⟩
  rw [hvalue]
  exact writes_of_exec_eq_retire (hexec rd rs1 rs2 s)

/-! ### The statements of spec 44 -/

/-- Settles O22: each instruction is the shared commit, at its row (17 to 26 of the opcode table, but for the shifts),
of its value. -/
theorem opWritesTheRulesValue : Obligations.OpWritesTheRulesValue := by
  unfold Obligations.OpWritesTheRulesValue
  refine ⟨?add, ?sub, ?slt, ?sltu, ?xor, ?or, ?and⟩
  case add =>
    exact opRule_of_exec_eq_retire (rowDecodes_opcodeTable 17) (fun _ => wrap32_add) (fun _ _ _ _ => rfl)
  case sub =>
    exact opRule_of_exec_eq_retire (rowDecodes_opcodeTable 18) (fun _ => wrap32_sub) (fun _ _ _ _ => rfl)
  case slt =>
    exact opRule_of_exec_eq_retire (rowDecodes_opcodeTable 20) (fun _ => oneIf_sval_lt) (fun _ _ _ _ => rfl)
  case sltu =>
    exact opRule_of_exec_eq_retire (rowDecodes_opcodeTable 21) (fun _ => oneIf_uval_lt) (fun _ _ _ _ => rfl)
  case xor => exact opRule_of_exec_eq_retire (rowDecodes_opcodeTable 22) (fun _ _ _ => rfl) (fun _ _ _ _ => rfl)
  case or => exact opRule_of_exec_eq_retire (rowDecodes_opcodeTable 25) (fun _ _ _ => rfl) (fun _ _ _ _ => rfl)
  case and => exact opRule_of_exec_eq_retire (rowDecodes_opcodeTable 26) (fun _ _ _ => rfl) (fun _ _ _ _ => rfl)

/-- Settles O23: each shift is the shared commit, at its row (19, 23 and 24 of the opcode table), of x[rs1] shifted by
the shift amount of x[rs2]. -/
theorem registerShiftsUseFiveBits : Obligations.RegisterShiftsUseFiveBits := by
  unfold Obligations.RegisterShiftsUseFiveBits
  refine ⟨?sll, ?srl, ?sra⟩
  case sll =>
    exact opRule_of_exec_eq_retire (rowDecodes_opcodeTable 19) (fun _ a b => wrap32_mul_two_pow a (shiftAmount b))
      (fun _ _ _ _ => rfl)
  case srl =>
    exact opRule_of_exec_eq_retire (rowDecodes_opcodeTable 23) (fun _ a b => wrap32_uval_div_two_pow a (shiftAmount b))
      (fun _ _ _ _ => rfl)
  case sra =>
    exact opRule_of_exec_eq_retire (rowDecodes_opcodeTable 24) (fun _ a b => wrap32_sval_div_two_pow a (shiftAmount b))
      (fun _ _ _ _ => rfl)

/-- Settles O24: the decoder rejects the word by its funct7, or by its funct3 under funct7 0x20, and the step passes
over a rejected word. -/
theorem otherOpWordsAreUnknown : Obligations.OtherOpWordsAreUnknown := by
  unfold Obligations.OtherOpWordsAreUnknown
  intro w hop hfields
  have hdec : decodeWord w = .error (.unknownFunct7 w) := by
    rw [decodeWord_of_op hop]
    obtain ⟨h0, h20, h1⟩ | ⟨hf7, h0, h5⟩ := hfields
    · exact decodeOp_unknown_of_funct7 h0 h20 h1
    · exact decodeOp_unknown_of_funct3 hf7 h0 h5
  refine ⟨⟨_, hdec⟩, fun s hs hw => ⟨_, ?_, advance_frame s⟩⟩
  exact (step_and_status_of_unknown hs hw ⟨_, hdec⟩).1

end Sys2Proof.Spec

/-! SUPPORT. Multiplication and division in the statements' terms: the value each operation of spec 45 gives, on
integers, and, outside the corners, the library's division of words that it is. -/

namespace Sys2Proof.Machine

/-! ### Division on words outside the corners (spec 45 R118) -/

theorem divOverflows_iff (a b : Word) : divOverflows a b = true ↔ a = 0x80000000#32 ∧ b = 0xFFFFFFFF#32 := by
  simp [divOverflows]

/-- The truncated quotient of the signed readings, mod 2^32: at the overflow both give -2^31. -/
theorem m32_tdiv (a b : Word) : m32 ((sg a).tdiv (sg b)) = a.sdiv b := by
  apply BitVec.eq_of_toInt_eq
  rw [m32, BitVec.toInt_ofInt, BitVec.toInt_sdiv, sg, sg]

/-- What the truncated quotient leaves of the dividend is the remainder. -/
theorem m32_sub_mul_tdiv (a b : Word) : m32 (sg a - sg b * (sg a).tdiv (sg b)) = a.srem b := by
  rw [m32, ← Int.tmod_def, sg, sg, ← BitVec.toInt_srem, BitVec.ofInt_toInt]

section
variable (p : Params) {a b : Word} (hb : b ≠ 0#32)
include hb

theorem quotientS_eq_sdiv (hovf : ¬ (a = 0x80000000#32 ∧ b = 0xFFFFFFFF#32)) : quotientS p a b = a.sdiv b := by
  rw [quotientS, if_neg hb, if_neg (mt (divOverflows_iff a b).mp hovf), m32_tdiv]

theorem remainderS_eq_srem (hovf : ¬ (a = 0x80000000#32 ∧ b = 0xFFFFFFFF#32)) : remainderS p a b = a.srem b := by
  rw [remainderS, if_neg hb, if_neg (mt (divOverflows_iff a b).mp hovf), m32_sub_mul_tdiv]

theorem quotientU_eq_udiv : quotientU p a b = a / b := by rw [quotientU, if_neg hb, BitVec.udiv_def]

theorem remainderU_eq_umod : remainderU p a b = a % b := by rw [remainderU, if_neg hb, BitVec.umod_def]

end

/-! ### The truncated remainder of integers -/

theorem abs_tmod_lt_abs (a : Int) {b : Int} (hb : b ≠ 0) : |a.tmod b| < |b| := by
  rw [Int.abs_eq_natAbs, Int.abs_eq_natAbs, Int.natAbs_tmod, Int.ofNat_lt]
  exact Nat.mod_lt _ (Int.natAbs_pos.mpr hb)

/-- The remainder has the sign of the dividend or is 0. -/
theorem tmod_mul_self_nonneg (a b : Int) : 0 ≤ a.tmod b * a := by
  obtain ha | ha := le_total 0 a
  · exact mul_nonneg (Int.tmod_nonneg b ha) ha
  · have hneg : 0 ≤ (-a).tmod b * -a := mul_nonneg (Int.tmod_nonneg b (by omega)) (by omega)
    rwa [Int.neg_tmod, neg_mul_neg] at hneg

/-! ### The register a commit writes -/

theorem State.reg_of_retire {s t : State} {rd : Reg} {v : Word} (hrd : rd ≠ 0#5) (h : s.retire rd v = .next t) :
    t.reg rd = v := by
  cases h
  rw [State.reg_setPc, State.reg_setReg, if_neg hrd, if_pos rfl]

end Sys2Proof.Machine

namespace Sys2Proof.Spec

open Sys2Proof.Machine

/-! ### The operations on words, on integers -/

/-- The low half of the unsigned product is the product of the words (spec 45 R119). -/
theorem wrap32_uval_mul (a b : Word) : wrap32 (uval a * uval b) = a * b := by
  rw [uval, uval, ← Nat.cast_mul, wrap32_natCast, BitVec.ofNat_mul, BitVec.ofNat_toNat, BitVec.ofNat_toNat,
    BitVec.setWidth_eq, BitVec.setWidth_eq]

/-- And so is the low half of the signed product (spec 45 R119). -/
theorem wrap32_sval_mul (a b : Word) : wrap32 (sval a * sval b) = a * b := by
  rw [wrap32_eq_ofInt, sval_eq_toInt, sval_eq_toInt, BitVec.ofInt_mul, BitVec.ofInt_toInt, BitVec.ofInt_toInt]

/-- The high half of an exact product (spec 45 R120 to R122). -/
theorem wrap32_div_two_pow (n : Int) : wrap32 (n / 2 ^ 32) = highHalf n := wrap32_eq_m32 _

/-- A word is known by its signed reading. -/
theorem sval_inj {a b : Word} : sval a = sval b ↔ a = b := by
  rw [sval_eq_toInt, sval_eq_toInt, BitVec.toInt_inj]

/-- The overflow of a signed division, by the signed readings (spec 45 R118). -/
theorem divOverflows_iff_sval (a b : Word) : divOverflows a b = true ↔ sval a = -2147483648 ∧ sval b = -1 := by
  have hmin : sval 0x80000000#32 = -2147483648 := by decide
  have hneg : sval 0xFFFFFFFF#32 = -1 := by decide
  rw [divOverflows_iff, ← hmin, ← hneg, sval_inj, sval_inj]

theorem quotientS_eq (p : Params) (a b : Word) : quotientS p a b =
    if b = 0#32 then p.divByZeroQS else if sval a = -2147483648 ∧ sval b = -1 then p.divOvfQ
    else wrap32 ((sval a).tdiv (sval b)) := by
  simp only [quotientS, divOverflows_iff_sval, sval_eq_sg, wrap32_eq_m32]

theorem remainderS_eq (p : Params) (a b : Word) : remainderS p a b =
    if b = 0#32 then remainderByZero p a else if sval a = -2147483648 ∧ sval b = -1 then p.divOvfR
    else wrap32 (sval a - sval b * (sval a).tdiv (sval b)) := by
  simp only [remainderS, divOverflows_iff_sval, sval_eq_sg, wrap32_eq_m32]

theorem quotientU_eq (p : Params) (a b : Word) : quotientU p a b =
    if b = 0#32 then p.divByZeroQU else wrap32 (uval a / uval b) := by
  rw [quotientU, uval, uval, ← Int.natCast_ediv, wrap32_natCast]

theorem remainderU_eq (p : Params) (a b : Word) : remainderU p a b =
    if b = 0#32 then remainderByZero p a else wrap32 (uval a % uval b) := by
  rw [remainderU, uval, uval, ← Int.natCast_emod, wrap32_natCast]

/-! ### Quotient and remainder give the dividend -/

/-- Truncating division of words, the overflow aside (spec 45 R118, R123, R125). -/
theorem sval_sdiv_srem {a b : Word} (hb : b ≠ 0#32) (hovf : ¬ (a = 0x80000000#32 ∧ b = 0xFFFFFFFF#32)) :
    sval (a.sdiv b) * sval b + sval (a.srem b) = sval a ∧ |sval (a.srem b)| < |sval b| ∧
      0 ≤ sval (a.srem b) * sval a := by
  have hdiv : (a.sdiv b).toInt = a.toInt.tdiv b.toInt :=
    BitVec.toInt_sdiv_of_ne_or_ne a b (not_and_or.mp hovf)
  have hb0 : b.toInt ≠ 0 := fun h => hb (BitVec.toInt_inj.mp h)
  simp only [sval_eq_toInt, hdiv, BitVec.toInt_srem]
  exact ⟨Int.tdiv_mul_add_tmod _ _, abs_tmod_lt_abs _ hb0, tmod_mul_self_nonneg _ _⟩

/-- Unsigned division of words (spec 45 R118, R124, R126). -/
theorem uval_udiv_umod {a b : Word} (hb : b ≠ 0#32) :
    uval (a / b) * uval b + uval (a % b) = uval a ∧ uval (a % b) < uval b := by
  have hb0 : b.toNat ≠ 0 := fun h => hb (BitVec.eq_of_toNat_eq h)
  simp only [uval, BitVec.toNat_udiv, BitVec.toNat_umod]
  exact_mod_cast And.intro (Nat.div_add_mod' a.toNat b.toNat) (Nat.mod_lt a.toNat (Nat.pos_of_ne_zero hb0))

/-! ### The statements of spec 45 -/

/-- Settles O25: each multiplication is the shared commit, at its row (27 to 30 of the opcode table), of a half of the
exact product. -/
theorem multipliesGiveHalvesOfTheExactProduct : Obligations.MultipliesGiveHalvesOfTheExactProduct := by
  unfold Obligations.MultipliesGiveHalvesOfTheExactProduct
  refine ⟨?mul, ?mulh, ?mulhsu, ?mulhu, fun a b => ?low⟩
  case mul =>
    exact opRule_of_exec_eq_retire (rowDecodes_opcodeTable 27) (fun _ => wrap32_uval_mul) (fun _ _ _ _ => rfl)
  case mulh =>
    refine opRule_of_exec_eq_retire (op := fun _ a b => highHalf (sg a * sg b)) (rowDecodes_opcodeTable 28)
      (fun _ a b => ?_) (fun _ _ _ _ => rfl)
    rw [wrap32_div_two_pow, sval_eq_sg, sval_eq_sg]
  case mulhsu =>
    refine opRule_of_exec_eq_retire (op := fun _ a b => highHalf (sg a * u b)) (rowDecodes_opcodeTable 29)
      (fun _ a b => ?_) (fun _ _ _ _ => rfl)
    rw [wrap32_div_two_pow, sval_eq_sg, uval_eq_u]
  case mulhu =>
    exact opRule_of_exec_eq_retire (rowDecodes_opcodeTable 30) (fun _ _ _ => wrap32_div_two_pow _) (fun _ _ _ _ => rfl)
  case low => rw [wrap32_uval_mul, wrap32_sval_mul]

/-- Settles O26: each division is the shared commit, at its row (31 to 34 of the opcode table), of its quotient or
remainder; the defaults are read off the default parameters. -/
theorem dividesTruncateAndCornersAreParameters : Obligations.DividesTruncateAndCornersAreParameters := by
  unfold Obligations.DividesTruncateAndCornersAreParameters
  refine ⟨?div, ?divu, ?rem, ?remu, rfl, rfl, rfl, rfl, rfl⟩
  case div =>
    exact opRule_of_exec_eq_retire (rowDecodes_opcodeTable 31) (fun p a b => (quotientS_eq p a b).symm)
      (fun _ _ _ _ => rfl)
  case divu =>
    exact opRule_of_exec_eq_retire (rowDecodes_opcodeTable 32) (fun p a b => (quotientU_eq p a b).symm)
      (fun _ _ _ _ => rfl)
  case rem =>
    exact opRule_of_exec_eq_retire (rowDecodes_opcodeTable 33) (fun p a b => (remainderS_eq p a b).symm)
      (fun _ _ _ _ => rfl)
  case remu =>
    exact opRule_of_exec_eq_retire (rowDecodes_opcodeTable 34) (fun p a b => (remainderU_eq p a b).symm)
      (fun _ _ _ _ => rfl)

/-- Settles O27: outside the corners the quotients and remainders written are those of division on words. -/
theorem quotientAndRemainderGiveTheDividend : Obligations.QuotientAndRemainderGiveTheDividend := by
  unfold Obligations.QuotientAndRemainderGiveTheDividend
  refine ⟨fun rd rs1 rs2 t q r hrd hb hovf hdiv hrem => ?signed,
    fun rd rs1 rs2 t q r hrd hb hdivu hremu => ?unsigned⟩
  case signed =>
    have hq : q.reg rd = quotientS t.params (t.reg rs1) (t.reg rs2) := State.reg_of_retire hrd hdiv
    have hr : r.reg rd = remainderS t.params (t.reg rs1) (t.reg rs2) := State.reg_of_retire hrd hrem
    rw [hq, hr, quotientS_eq_sdiv _ hb hovf, remainderS_eq_srem _ hb hovf]
    exact sval_sdiv_srem hb hovf
  case unsigned =>
    have hq : q.reg rd = quotientU t.params (t.reg rs1) (t.reg rs2) := State.reg_of_retire hrd hdivu
    have hr : r.reg rd = remainderU t.params (t.reg rs1) (t.reg rs2) := State.reg_of_retire hrd hremu
    rw [hq, hr, quotientU_eq_udiv _ hb, remainderU_eq_umod _ hb]
    exact uval_udiv_umod hb

end Sys2Proof.Spec

/-! SUPPORT. A branch and a jump in the statements' terms: the condition on the unsigned or signed readings, and where the
pc goes. -/

namespace Sys2Proof.Spec

open Sys2Proof.Machine

/-! ### The conditions of the complementary comparisons -/

/-- The condition of BGE (spec 46 R135). -/
theorem not_ltS_iff (a b : Word) : (!ltS a b) = true ↔ sval b ≤ sval a := by
  rw [Bool.not_eq_true', ← Bool.not_eq_true, ltS_iff, not_lt]

/-- The condition of BGEU (spec 46 R137). -/
theorem not_ltU_iff (a b : Word) : (!ltU a b) = true ↔ uval b ≤ uval a := by
  rw [Bool.not_eq_true', ← Bool.not_eq_true, ltU_iff, not_lt]

/-! ### The rules -/

/-- An instruction that is a branch moves the pc by imm_b or by 4, and nothing else (spec 46 R131). -/
theorem movesPc_of_exec_eq_branchIf {i : Instr} {s : State} {taken : Bool} {imm : BitVec 13}
    (h : exec i s = s.branchIf taken imm) :
    MovesPc i s (if taken then wrap32 (uval s.pc + signed 13 imm.toNat) else wrap32 (uval s.pc + 4)) := by
  rw [wrap32_add_signed (by decide), wrap32_add_four]
  exact ⟨_, h.trans (s.branchIf_eq taken imm), rfl, fun _ => rfl, fun _ => rfl, SameRest.refl s⟩

/-- An instruction that is a branch on a comparison of x[rs1] and x[rs2], where the comparison decides the rule's
condition, keeps the branch rule (spec 46 R131 to R137). -/
theorem branchRule_of_exec_eq_branchIf {mk : Reg → Reg → BitVec 13 → Instr} {pattern : Word}
    {compare : Word → Word → Bool} {cond : Word → Word → Prop}
    (hrow : RowDecodes 0x0000707F#32 pattern (fun w => mk (rs1Of w) (rs2Of w) (immBOf w)))
    (hcond : ∀ a b, compare a b = true ↔ cond a b)
    (hexec : ∀ rs1 rs2 imm s, exec (mk rs1 rs2 imm) s = s.branchIf (compare (s.reg rs1) (s.reg rs2)) imm) :
    BranchRule mk pattern cond := by
  refine ⟨hrow, fun rs1 rs2 imm s => ?_⟩
  have hmoves := movesPc_of_exec_eq_branchIf (hexec rs1 rs2 imm s)
  refine ⟨fun htaken => ?_, fun hnot => ?_⟩
  · rwa [if_pos ((hcond _ _).mpr htaken)] at hmoves
  · rwa [if_neg (mt (hcond _ _).mp hnot)] at hmoves

/-- An instruction that links and jumps completes with pc + 4 written to rd and the pc at the target (spec 46 R138,
R139). -/
theorem registerWritten_of_exec_eq_linkAndJump {i : Instr} {s : State} {rd : Reg} {target : Word}
    (h : exec i s = s.linkAndJump rd target) :
    ∃ t, exec i s = .next t ∧ RegisterWritten s t rd (wrap32 (uval s.pc + 4)) target := by
  obtain ⟨hreg, -, hmem, hrest⟩ := registerWritten_setReg s rd (s.pc + 4#32)
  rw [wrap32_add_four]
  exact ⟨_, h.trans (s.linkAndJump_eq rd target), hreg, rfl, hmem, hrest⟩

/-! ### The statements of spec 46 -/

/-- Settles O28: each instruction is the shared branch, at its row (35 to 40 of the opcode table), on its comparison. -/
theorem branchesGoWhereTheirConditionSays : Obligations.BranchesGoWhereTheirConditionSays := by
  unfold Obligations.BranchesGoWhereTheirConditionSays
  refine ⟨?beq, ?bne, ?blt, ?bge, ?bltu, ?bgeu⟩
  case beq =>
    exact branchRule_of_exec_eq_branchIf (rowDecodes_opcodeTable 35) (fun _ _ => beq_iff_eq) (fun _ _ _ _ => rfl)
  case bne =>
    exact branchRule_of_exec_eq_branchIf (rowDecodes_opcodeTable 36) (fun _ _ => bne_iff_ne) (fun _ _ _ _ => rfl)
  case blt => exact branchRule_of_exec_eq_branchIf (rowDecodes_opcodeTable 37) ltS_iff (fun _ _ _ _ => rfl)
  case bge => exact branchRule_of_exec_eq_branchIf (rowDecodes_opcodeTable 38) not_ltS_iff (fun _ _ _ _ => rfl)
  case bltu => exact branchRule_of_exec_eq_branchIf (rowDecodes_opcodeTable 39) ltU_iff (fun _ _ _ _ => rfl)
  case bgeu => exact branchRule_of_exec_eq_branchIf (rowDecodes_opcodeTable 40) not_ltU_iff (fun _ _ _ _ => rfl)

/-- Settles O29: each instruction is the shared link and jump, at its row (44 and 43 of the opcode table), to its
target, computed from the state before the link. -/
theorem jumpsLinkAndGo : Obligations.JumpsLinkAndGo := by
  unfold Obligations.JumpsLinkAndGo
  refine ⟨?jalRow, ?jalrRow, fun rd imm s => ?jalGoes, fun rd rs1 imm s => ?jalrGoes⟩
  case jalRow => exact rowDecodes_opcodeTable 44
  case jalrRow => exact rowDecodes_opcodeTable 43
  case jalGoes =>
    rw [wrap32_add_signed (by decide)]
    exact registerWritten_of_exec_eq_linkAndJump rfl
  case jalrGoes =>
    rw [wrap32_add_signed (by decide)]
    exact registerWritten_of_exec_eq_linkAndJump rfl

end Sys2Proof.Spec

/-! SUPPORT. A SYSTEM word: the two no-ops, and the decoder's rejection of every other one. -/

namespace Sys2Proof

/-- A SYSTEM word is one of the two exact words, or unknown (spec 47 R142). -/
theorem decodeWord_of_other_system {w : Word} (hop : opcodeOf w = 0x73#7) (hecall : w ≠ 0x00000073#32)
    (hebreak : w ≠ 0x00100073#32) : decodeWord w = .error (.unknownSystem w) := by
  have hclass : decodeWord w = decodeSystem w := by simp [decodeWord_of_opcode_ne_zero, decodeClass, hop]
  rw [hclass, decodeSystem, if_neg hecall, if_neg hebreak]

end Sys2Proof

namespace Sys2Proof.Spec

open Sys2Proof.Machine

/-- An instruction that only advances the pc, at a pc where its word stands: the step completes with status OK (spec 40
R84, 47 R140). -/
theorem step_and_status_of_no_op {i : Instr} {w : Word} (hexec : ∀ s, exec i s = .next s.advance) (hne : i ≠ .halt)
    (hd : decodeWord w = .ok i) (s : State) :
    MovesPc i s (wrap32 (uval s.pc + 4)) ∧
      (SampleLetsThrough s → AtPc s w → step s = exec i s ∧ stepStatus s = .ok) := by
  refine ⟨⟨_, hexec s, advance_frame s⟩, fun hs hw => ?_⟩
  have hg := (sampleLetsThrough_iff s).mp hs
  have hf := (fetchDecode_eq_instr_iff s i).mpr ⟨w, hw, hd⟩
  exact ⟨step_of_instr hg hf, stepStatus_of_instr hg hf hne (hexec s)⟩

/-- Settles O31: ECALL and EBREAK are the advance of the pc, and the decoder rejects every other SYSTEM word. -/
theorem systemWordsAreNoOpsOrUnknown : Obligations.SystemWordsAreNoOpsOrUnknown := by
  unfold Obligations.SystemWordsAreNoOpsOrUnknown
  have hecall : decodeWord 0x00000073#32 = .ok .ecall := rfl
  have hebreak : decodeWord 0x00100073#32 = .ok .ebreak := rfl
  refine ⟨⟨hecall, ?ecall⟩, ⟨hebreak, ?ebreak⟩, fun w hop hne1 hne2 => ?other⟩
  case ecall => exact step_and_status_of_no_op (fun _ => rfl) nofun hecall
  case ebreak => exact step_and_status_of_no_op (fun _ => rfl) nofun hebreak
  case other =>
    have hd : ∃ r, decodeWord w = .error r := ⟨_, decodeWord_of_other_system hop hne1 hne2⟩
    refine ⟨hd, fun s hs hw => ?_⟩
    obtain ⟨hstep, hstatus⟩ := step_and_status_of_unknown hs hw hd
    exact ⟨hstatus, _, hstep, advance_frame s⟩

end Sys2Proof.Spec

/-! SUPPORT. The context unit: the state after a restore, a first run and a context switch (spec 48). -/

namespace Sys2Proof.Machine

/-! ### A restore -/

/-- A snapshot passed back unchanged restores the words it holds: the mask of a word's reading is the word (spec 48
R145). -/
theorem Snapshot.m32_toRaw_regs (c : Snapshot) (r : Reg) :
    m32 (c.toRaw.regs[r.toNat]'r.isLt) = c.regs[r.toNat]'r.isLt := by
  simp [Snapshot.toRaw]

@[simp] theorem State.snapshot_pc (s : State) : s.snapshot.pc = s.pc := rfl

@[simp] theorem Snapshot.m32_toRaw_pc (c : Snapshot) : m32 c.toRaw.pc = c.pc := m32_u c.pc

/-- A register after a snapshot of the block's own is restored: what the snapshot holds, but for x0 (spec 48 R145). -/
theorem State.reg_restoreFrom_toRaw (s : State) (c : Snapshot) (r : Reg) :
    (s.restoreFrom c.toRaw).reg r = if r = 0#5 then 0#32 else c.regs[r.toNat]'r.isLt := by
  rw [State.reg_restoreFrom, Snapshot.m32_toRaw_regs]

/-- Restoring the snapshot of a state gives that state's registers, in whatever state (spec 48 R148). -/
theorem State.reg_restoreFrom_snapshot (s t : State) (r : Reg) : (t.restoreFrom s.snapshot.toRaw).reg r = s.reg r := by
  rw [State.reg_restoreFrom_toRaw, State.snapshot_regs]
  split
  · next h => rw [h, State.reg_zero]
  · rfl

/-- Without an argument the saved snapshot is restored (spec 48 R145). -/
theorem portRestoreContext_of_saved {s : State} {c : Snapshot} (h : s.saved = some c) :
    portRestoreContext none s = .ok () (s.restoreFrom c.toRaw) := by
  simp only [portRestoreContext, h]

theorem portRestoreContext_of_not_saved {s : State} (h : s.saved = none) :
    portRestoreContext none s = .error .noSavedContext := by
  simp only [portRestoreContext, h]

/-! ### A first run -/

/-- The state in which a task's first run starts: what `init_context` leaves (spec 48 R146). -/
def State.startTask (s : State) (entry sp : Int) : State := (s.resetRegFile.setPc (m32 entry)).setReg 2#5 (m32 sp)

theorem portInitContext_eq (entry sp : Int) (s : State) : portInitContext entry sp s = .ok () (s.startTask entry sp) :=
  rfl

section
variable (s : State) (entry sp : Int)

@[simp] theorem State.startTask_pc : (s.startTask entry sp).pc = m32 entry := by simp [State.startTask]
@[simp] theorem State.startTask_saved : (s.startTask entry sp).saved = none := by simp [State.startTask]
@[simp] theorem State.startTask_mem : (s.startTask entry sp).mem = s.mem := by simp [State.startTask]
@[simp] theorem State.startTask_irq : (s.startTask entry sp).irq = s.irq := by simp [State.startTask]
@[simp] theorem State.startTask_irqEn : (s.startTask entry sp).irqEn = s.irqEn := by simp [State.startTask]
@[simp] theorem State.startTask_params : (s.startTask entry sp).params = s.params := by simp [State.startTask]

/-- x2 holds the stack pointer (spec 48 R146). -/
@[simp] theorem State.startTask_reg_sp : (s.startTask entry sp).reg 2#5 = m32 sp := by
  simp [State.startTask, State.reg_setReg]

variable {s}

/-- Under REG_RESET_POLICY = zero every register but x2 is 0 (spec 48 R146). -/
theorem State.startTask_reg_of_ne (hz : s.params.regReset = .zero) {r : Reg} (hr : r ≠ 2#5) :
    (s.startTask entry sp).reg r = 0#32 := by
  rw [State.startTask, State.reg_setReg_of_ne _ hr, State.reg_setPc, State.reg_resetRegFile hz]

end

/-! ### A context switch -/

/-- The first half of a context switch: the live context saved, where there is a current task (spec 48 R147). -/
def State.saveCurrent (s : State) (current : Bool) : State :=
  { s with saved := if current then some s.snapshot else s.saved }

section
variable (s : State) (current : Bool)

@[simp] theorem State.saveCurrent_reg (r : Reg) : (s.saveCurrent current).reg r = s.reg r := rfl
@[simp] theorem State.saveCurrent_pc : (s.saveCurrent current).pc = s.pc := rfl
@[simp] theorem State.saveCurrent_mem : (s.saveCurrent current).mem = s.mem := rfl
@[simp] theorem State.saveCurrent_irq : (s.saveCurrent current).irq = s.irq := rfl
@[simp] theorem State.saveCurrent_params : (s.saveCurrent current).params = s.params := rfl
@[simp] theorem State.saveCurrent_saved :
    (s.saveCurrent current).saved = if current then some s.snapshot else s.saved := rfl

/-- Switching to no task only saves (spec 48 R147). -/
theorem contextSwitch_none : contextSwitch current none s = s.saveCurrent current := by
  cases current <;> rfl

/-- Switching to a task with a prior context restores that after the save (spec 48 R147). -/
theorem contextSwitch_prior (c : RawSnapshot) :
    contextSwitch current (some (.inl c)) s = (s.saveCurrent current).restoreFrom c := by
  cases current <;> rfl

/-- Switching to a task without a prior context starts its first run after the save (spec 48 R147). -/
theorem contextSwitch_first (entry sp : Int) :
    contextSwitch current (some (.inr (entry, sp))) s = (s.saveCurrent current).startTask entry sp := by
  cases current <;> rfl

/-- A context switch leaves memory and the interrupt table (spec 48 R147). -/
theorem contextSwitch_mem_irq (next : Option (RawSnapshot ⊕ (Int × Int))) :
    (contextSwitch current next s).mem = s.mem ∧ (contextSwitch current next s).irq = s.irq := by
  match next with
  | none => simp [contextSwitch_none]
  | some (.inl c) => simp [contextSwitch_prior]
  | some (.inr (entry, sp)) => simp [contextSwitch_first]

end

end Sys2Proof.Machine

/-! The statements of spec 48 on the context unit. -/

namespace Sys2Proof.Spec

open Sys2Proof.Machine

/-- A register after a restore, in the statements' terms (spec 48 R145). -/
theorem reg_restoreFrom_eq_wrap32 (s : State) (c : RawSnapshot) (r : Reg) :
    (s.restoreFrom c).reg r = if r = 0#5 then 0#32 else wrap32 (c.regs[r.toNat]'r.isLt) := by
  rw [State.reg_restoreFrom, wrap32_eq_m32]

theorem sameMemory_of_mem_eq {s t : State} (h : t.mem = s.mem) : SameMemory s t := fun a => by rw [h]

/-- A restore leaves everything but the registers and the pc (spec 48 R145). -/
theorem restoreFrom_frame (s : State) (c : RawSnapshot) :
    SameMemory s (s.restoreFrom c) ∧ SameRest s (s.restoreFrom c) :=
  ⟨sameMemory_of_mem_eq (s.restoreFrom_mem c), by simp [SameRest]⟩

/-- Settles O42: `save_context` answers the snapshot of the live registers and writes the slot. -/
theorem saveContextTakesTheLiveRegisters : Obligations.SaveContextTakesTheLiveRegisters := by
  unfold Obligations.SaveContextTakesTheLiveRegisters
  exact fun s => ⟨s.snapshot, _, rfl, s.snapshot_regs, s.snapshot_regs 0#5, rfl, rfl, fun _ => rfl, rfl, fun _ => rfl,
    rfl, rfl, rfl⟩

/-- Settles O43: a restore is the model's `restoreFrom`, of the argument or else of the slot. -/
theorem restoreContextMasksOrRaises : Obligations.RestoreContextMasksOrRaises := by
  unfold Obligations.RestoreContextMasksOrRaises
  refine ⟨fun c s => ?given, fun s h => portRestoreContext_of_not_saved h, fun c s h => ?saved⟩
  case given =>
    exact ⟨_, rfl, reg_restoreFrom_eq_wrap32 s c, by rw [State.restoreFrom_pc, wrap32_eq_m32], restoreFrom_frame s c⟩
  case saved =>
    exact ⟨_, portRestoreContext_of_saved h, s.reg_restoreFrom_toRaw c, by simp, restoreFrom_frame s c.toRaw⟩

/-- Settles O44: a first run starts from a register-file reset with the pc and x2 written. -/
theorem initContextStartsATask : Obligations.InitContextStartsATask := by
  unfold Obligations.InitContextStartsATask
  intro entry sp s
  simp only [wrap32_eq_m32]
  exact ⟨_, portInitContext_eq entry sp s, s.startTask_reg_sp entry sp,
    fun hz r hr => State.startTask_reg_of_ne entry sp hz hr, s.startTask_pc entry sp, s.startTask_saved entry sp,
    portRestoreContext_of_not_saved (s.startTask_saved entry sp), sameMemory_of_mem_eq (s.startTask_mem entry sp),
    s.startTask_irq entry sp, s.startTask_irqEn entry sp, s.startTask_params entry sp⟩

/-- Settles O45: a switch is the save, and then nothing, a restore or a first run. -/
theorem contextSwitchSavesThenRestoresOrStarts : Obligations.ContextSwitchSavesThenRestoresOrStarts := by
  unfold Obligations.ContextSwitchSavesThenRestoresOrStarts
  intro current s
  refine ⟨?idle, fun c => ?prior, fun entry sp => ?first, fun next => ?frame⟩
  case idle =>
    rw [contextSwitch_none]
    exact ⟨s.saveCurrent_reg current, s.saveCurrent_pc current, s.saveCurrent_saved current⟩
  case prior =>
    rw [contextSwitch_prior]
    exact ⟨reg_restoreFrom_eq_wrap32 _ c, by rw [State.restoreFrom_pc, wrap32_eq_m32], by simp⟩
  case first =>
    simp only [contextSwitch_first, wrap32_eq_m32]
    exact ⟨State.startTask_pc _ _ _, State.startTask_reg_sp _ _ _, State.startTask_saved _ _ _,
      fun hz r hr => State.startTask_reg_of_ne entry sp (by rwa [State.saveCurrent_params]) hr⟩
  case frame =>
    obtain ⟨hmem, hirq⟩ := contextSwitch_mem_irq s current next
    exact ⟨sameMemory_of_mem_eq hmem, hirq⟩

/-- Settles O46: the restored registers are those of the snapshot, whatever state it is restored in. -/
theorem restoreAfterSaveGivesTheContextBack : Obligations.RestoreAfterSaveGivesTheContextBack := by
  unfold Obligations.RestoreAfterSaveGivesTheContextBack
  intro s t0 c ts hsave
  generalize transactAll ts t0 = t
  obtain rfl : s.snapshot = c := (PortOutcome.ok.inj hsave).1
  exact ⟨_, rfl, s.reg_restoreFrom_snapshot t, by simp, (restoreFrom_frame t _).1⟩

end Sys2Proof.Spec

/-! SUPPORT. The interrupt table of unique ids by its lookups: what the queries find, and what a registration and a
setting of a flag answer (spec 60). -/

namespace Sys2Proof.Machine

/-! ### The queries of a table with unique ids -/

section
variable {t : IrqTable} (ht : t.wf = true)
include ht

theorem IrqTable.anyPending_iff : t.anyPending = true ↔ ∃ id e, t.get? id = some e ∧ e.pending = true := by
  simp only [IrqTable.anyPending, List.any_eq_true, Prod.exists, IrqTable.mem_iff_get? ht]

theorem IrqTable.best_eq_none_iff_get? : t.best = none ↔ ∀ id e, t.get? id = some e → e.pending = false := by
  simp only [IrqTable.best_eq_none, Prod.forall, IrqTable.mem_iff_get? ht]

/-- The query finds a registered, pending entry with the least (priority, id) (spec 60 R158). -/
theorem IrqTable.get?_of_best {id : Nat} {e : IrqEntry} (h : t.best = some (id, e)) :
    t.get? id = some e ∧ e.pending = true ∧ ∀ id' e', t.get? id' = some e' → e'.pending = true →
      irqBefore (id, e) (id', e') = true := by
  obtain ⟨hmem, hpending, hleast⟩ := IrqTable.best_spec h
  simp only [Prod.forall, IrqTable.mem_iff_get? ht] at hmem hleast
  exact ⟨hmem, hpending, hleast⟩

end

/-- The order of urgency: by priority, then by id (spec 60 R158). -/
theorem irqBefore_iff (id id' : Nat) (e e' : IrqEntry) :
    irqBefore (id, e) (id', e') = true ↔ e.priority < e'.priority ∨ (e.priority = e'.priority ∧ id ≤ id') := by
  simp only [irqBefore, Bool.or_eq_true, Bool.and_eq_true, decide_eq_true_eq]

/-! ### The queries of a disabled controller -/

/-- The enable bit masks the flags (spec 10 R26, 60 R157). -/
theorem State.hasPending_of_disabled {s : State} (h : s.irqEn = false) : s.hasPending = false := by
  rw [State.hasPending, h, Bool.false_and]

/-- The enable bit masks the query (spec 10 R26, 60 R158). -/
theorem State.highestPending_of_disabled {s : State} (h : s.irqEn = false) : s.highestPending = none := by
  simp [State.highestPending, h]

/-! ### The standard table -/

@[simp] theorem IrqTable.best_standard (p : Params) : (standardIrqs p).best = none := rfl

/-- No standard interrupt is pending (spec 60 R161). -/
theorem IrqTable.pending_of_get?_standard {p : Params} {id : Nat} {e : IrqEntry}
    (h : IrqTable.get? (standardIrqs p) id = some e) : e.pending = false :=
  (IrqTable.best_eq_none_iff_get? (IrqTable.wf_standard p)).mp (IrqTable.best_standard p) id e h

/-- The standard ids are 0, 1 and 2 (spec 60 R153). -/
theorem IrqTable.get?_standard_of_le (p : Params) {id : Nat} (h : 3 ≤ id) :
    IrqTable.get? (standardIrqs p) id = none := by
  obtain ⟨h0, h1, h2⟩ : id ≠ 0 ∧ id ≠ 1 ∧ id ≠ 2 := by omega
  simp only [standardIrqs, IrqTable.get?, if_neg h0, if_neg h1, if_neg h2]

/-! ### A registration -/

theorem fitsBits_eq_false_iff (width : Option Nat) (n : Nat) :
    fitsBits width n = false ↔ ∃ k, width = some k ∧ 2 ^ k ≤ n := by
  cases width <;> simp [fitsBits]

/-- A registration goes beyond the capacity where its id is new and the table is full (spec 60 R154). -/
theorem State.irqFull_iff (s : State) (id : Nat) :
    s.irqFull id = true ↔ ∃ k, s.params.irqCapacity = some k ∧ s.irq.get? id = none ∧ k ≤ s.irq.length := by
  unfold State.irqFull
  cases s.params.irqCapacity <;> simp

theorem State.irqFull_eq_false_iff (s : State) (id : Nat) :
    s.irqFull id = false ↔ ∀ k, s.params.irqCapacity = some k → s.irq.get? id = none → s.irq.length < k := by
  rw [← Bool.not_eq_true, State.irqFull_iff]
  push Not
  rfl

section
variable {s : State} {id priority : Nat} (handler : Int) (description : String)

/-- What fits is registered, with a fresh entry (spec 60 R154). -/
theorem portRegister_of_fits (hid : fitsBits s.params.irqIdBits id = true)
    (hpriority : fitsBits s.params.irqPrioBits priority = true) (hfull : s.irqFull id = false) :
    portRegister id priority handler description s =
      .ok () { s with irq := s.irq.put id ⟨priority, m32 handler, description, false⟩ } := by
  simp [portRegister, hid, hpriority, hfull]

/-- What does not fit is refused (spec 60 R154, 93 I10). -/
theorem portRegister_of_not_fits (h : fitsBits s.params.irqIdBits id = false ∨
    fitsBits s.params.irqPrioBits priority = false ∨ s.irqFull id = true) :
    ∃ r, portRegister id priority handler description s = .refused r := by
  unfold portRegister
  split
  · exact ⟨_, rfl⟩
  · next hid =>
    split
    · exact ⟨_, rfl⟩
    · next hpriority =>
      have hfull : s.irqFull id = true := (h.resolve_left hid).resolve_left hpriority
      exact ⟨_, if_pos hfull⟩

end

/-! ### Setting a flag -/

theorem State.setPending_of_get?_eq_none {s : State} {id : Nat} (b : Bool) (h : s.irq.get? id = none) :
    s.setPending id b = .error (.unknownInterrupt id) := by
  simp only [State.setPending, h]

theorem State.setPending_of_get?_eq_some {s : State} {id : Nat} {e : IrqEntry} (b : Bool) (h : s.irq.get? id = some e) :
    s.setPending id b = .ok () { s with irq := s.irq.put id { e with pending := b } } := by
  simp only [State.setPending, h]

/-! ### The interrupt table beside each port -/

theorem portWrite_irq (n v : Int) (s : State) : ((portWrite n v s).after s).irq = s.irq := by
  unfold portWrite
  split
  · exact s.setReg_irq _ _
  · rfl

theorem portRestoreContext_irq (ctx : Option RawSnapshot) (s : State) :
    ((portRestoreContext ctx s).after s).irq = s.irq := by
  unfold portRestoreContext
  split
  · next c => exact s.restoreFrom_irq c
  · split
    · next c _ => exact s.restoreFrom_irq c.toRaw
    · rfl

theorem portWriteBlock_irq (a : Int) (bs : List Byte) (s : State) : ((portWriteBlock a bs s).after s).irq = s.irq := by
  rw [portWriteBlock_eq]
  split <;> rfl

theorem State.portWriteN_irq (s : State) (a : Int) (n : Nat) (v : Int) :
    ((s.portWriteN a n v).after s).irq = s.irq := by
  rw [State.portWriteN_eq_portWriteBlock]
  exact portWriteBlock_irq a _ s

/-- A step moves no interrupt (spec 40 R76). -/
theorem portStep_irq (s : State) : ((portStep s).after s).irq = s.irq := by
  rcases portStep_after s with h | h
  · rw [h]
  · obtain ⟨⟨-, hirq, -⟩, -⟩ := Spec.step_frame h
    exact hirq

/-- A registration leaves the table, or puts an entry that is not pending (spec 60 R154). -/
theorem portRegister_irq_cases (id priority : Nat) (handler : Int) (description : String) (s : State) :
    ((portRegister id priority handler description s).after s).irq = s.irq ∨
      ∃ e, e.pending = false ∧ ((portRegister id priority handler description s).after s).irq = s.irq.put id e := by
  unfold portRegister
  split_ifs
  case neg => exact .inr ⟨_, rfl, rfl⟩
  all_goals exact .inl rfl

/-- Setting a flag leaves the table, or puts an entry with that flag (spec 60 R155, R156). -/
theorem State.setPending_irq_cases (s : State) (id : Nat) (b : Bool) :
    ((s.setPending id b).after s).irq = s.irq ∨
      ∃ e, e.pending = b ∧ ((s.setPending id b).after s).irq = s.irq.put id e := by
  cases h : s.irq.get? id with
  | none => exact .inl (by rw [State.setPending_of_get?_eq_none b h, PortOutcome.after_error])
  | some e => exact .inr ⟨_, rfl, by rw [State.setPending_of_get?_eq_some b h, PortOutcome.after_ok]⟩

/-- The flag that a transaction gives the interrupt it names, if it names one (spec 60 R154 to R156). -/
def Txn.setsFlag : Txn → Option (Nat × Bool)
  | .registerInterrupt id _ _ _ => some (id, false)
  | .triggerInterrupt id => some (id, true)
  | .clearInterrupt id => some (id, false)
  | _ => none

/-- What a transaction does to the interrupt table: nothing, unless it puts an entry with the flag it sets, or is the
facade reset (spec 60 R154 to R161). -/
theorem transact_irq_cases (t : Txn) (s : State) :
    ((transact t s).after s).irq = s.irq ∨
      (∃ id e, t.setsFlag = some (id, e.pending) ∧ ((transact t s).after s).irq = s.irq.put id e) ∨
      t = .reset ∧ ((transact t s).after s).irq = standardIrqs s.params := by
  have put : ∀ {id : Nat} {b : Bool} {irq : IrqTable}, t.setsFlag = some (id, b) →
      (irq = s.irq ∨ ∃ e, e.pending = b ∧ irq = s.irq.put id e) →
      irq = s.irq ∨ (∃ id e, t.setsFlag = some (id, e.pending) ∧ irq = s.irq.put id e) ∨
        t = .reset ∧ irq = standardIrqs s.params := by
    rintro id b irq hflag (h | ⟨e, rfl, h⟩)
    · exact .inl h
    · exact .inr (.inl ⟨id, e, hflag, h⟩)
  cases t <;> simp only [transact, PortOutcome.after_map]
  case reset => exact .inr (.inr ⟨trivial, by simp [portReset, State.facadeReset]⟩)
  case registerInterrupt id p h d => exact put rfl (portRegister_irq_cases id p h d s)
  case triggerInterrupt id | clearInterrupt id => exact put rfl (s.setPending_irq_cases id _)
  all_goals refine .inl ?_
  case getPc | setPc | saveContext | resetMem | hasPending | highestPriorityPending | enable | disable | getState => rfl
  case resetRegFile => exact s.resetRegFile_irq
  case initContext entry sp => exact s.startTask_irq entry sp
  case read n => rw [portRead_after]
  case readByte a | readHalf a | readWord a => exact congrArg State.irq (s.portReadN_after a _)
  case readBlock a len => rw [portReadBlock_after]
  case write n v => exact portWrite_irq n v s
  case restoreContext ctx => exact portRestoreContext_irq ctx s
  case writeByte a v | writeHalf a v | writeWord a v => exact s.portWriteN_irq a _ v
  case writeBlock a bs => exact portWriteBlock_irq a bs s
  case loadProgram words base => exact portWriteBlock_irq base _ s
  case step => exact portStep_irq s

/-- A pending flag moves only by a transaction that sets it so, or down by the facade reset (spec 60 R154 to R161). -/
theorem transact_pending_cases {t : Txn} {s : State} {id : Nat} {e e' : IrqEntry} (he : s.irq.get? id = some e)
    (he' : ((transact t s).after s).irq.get? id = some e') :
    e'.pending = e.pending ∨ t.setsFlag = some (id, e'.pending) ∨ t = .reset ∧ e'.pending = false := by
  obtain h | ⟨j, f, hflag, h⟩ | ⟨hreset, h⟩ := transact_irq_cases t s <;> rw [h] at he'
  · cases he.symm.trans he'
    exact .inl rfl
  · rw [IrqTable.get?_put] at he'
    split at he'
    · next hj => subst hj; cases he'; exact .inr (.inl hflag)
    · cases he.symm.trans he'
      exact .inl rfl
  · exact .inr (.inr ⟨hreset, IrqTable.pending_of_get?_standard he'⟩)

/-- Only `trigger_interrupt` sets a flag (spec 60 R155). -/
theorem Txn.eq_of_setsFlag_true {t : Txn} {id : Nat} (h : t.setsFlag = some (id, true)) :
    t = .triggerInterrupt id := by
  unfold Txn.setsFlag at h
  split at h <;> cases h
  rfl

/-- Only `clear_interrupt` and a registration clear the flag of one interrupt (spec 60 R154, R156). -/
theorem Txn.eq_of_setsFlag_false {t : Txn} {id : Nat} (h : t.setsFlag = some (id, false)) :
    t = .clearInterrupt id ∨ ∃ p h d, t = .registerInterrupt id p h d := by
  unfold Txn.setsFlag at h
  split at h <;> cases h
  · exact .inr ⟨_, _, _, rfl⟩
  · exact .inl rfl

end Sys2Proof.Machine

/-! The statements of spec 60 on the interrupt controller. -/

namespace Sys2Proof.Spec

open Sys2Proof.Machine

/-- Settles O52: in a table with unique ids the listed entries are the registered ones. -/
theorem queriesReportTheMostUrgentPending : Obligations.QueriesReportTheMostUrgentPending := by
  unfold Obligations.QueriesReportTheMostUrgentPending
  intro s hwf
  refine ⟨?hasPending, ?none, fun id e h => ?least, rfl, rfl⟩
  case hasPending => rw [State.hasPending, Bool.and_eq_true, IrqTable.anyPending_iff hwf]
  case none =>
    rw [← IrqTable.best_eq_none_iff_get? hwf, State.highestPending]
    cases s.irqEn <;> simp
  case least =>
    have hbest : s.irq.best = some (id, e) := by
      rw [State.highestPending] at h
      split at h
      · exact h
      · cases h
    obtain ⟨hget, hpending, hleast⟩ := IrqTable.get?_of_best hwf hbest
    exact ⟨hget, hpending, fun id' e' h' hp' => (irqBefore_iff id id' e e').mp (hleast id' e' h' hp')⟩

/-- Settles O53: without bounds everything fits, and the entry put is the one that is looked up. -/
theorem registeringGivesAFreshEntry : Obligations.RegisteringGivesAFreshEntry := by
  unfold Obligations.RegisteringGivesAFreshEntry
  intro id priority handler description s hid hpriority hcapacity
  have hfull : s.irqFull id = false := by simp only [State.irqFull, hcapacity]
  have hok := portRegister_of_fits (s := s) (id := id) (priority := priority) handler description
    (by rw [hid]; rfl) (by rw [hpriority]; rfl) hfull
  rw [wrap32_eq_m32]
  exact ⟨_, hok, fun j => s.irq.get?_put id j _, rfl, fun _ => rfl, fun _ => rfl, rfl, rfl, rfl⟩

/-- Settles O54: the three bounds are the three checks of a registration. -/
theorem boundedControllerRefusesWhatDoesNotFit : Obligations.BoundedControllerRefusesWhatDoesNotFit := by
  unfold Obligations.BoundedControllerRefusesWhatDoesNotFit
  intro id priority handler description s
  rw [wrap32_eq_m32]
  simp only [← fitsBits_iff, ← fitsBits_eq_false_iff, ← State.irqFull_iff, ← State.irqFull_eq_false_iff]
  exact ⟨fun hid hpriority hfull => ⟨_, portRegister_of_fits handler description hid hpriority hfull,
    fun j => s.irq.get?_put id j _⟩, portRegister_of_not_fits handler description⟩

/-- Settles O55: both ports set the flag of the looked-up entry. -/
theorem triggerAndClearSetOneFlag : Obligations.TriggerAndClearSetOneFlag := by
  unfold Obligations.TriggerAndClearSetOneFlag
  intro id b s
  have hport : (if b then portTrigger id s else portClear id s) = s.setPending id b := by cases b <;> rfl
  rw [hport]
  exact ⟨State.setPending_of_get?_eq_none b, fun e he => ⟨_, State.setPending_of_get?_eq_some b he,
    fun j => s.irq.get?_put id j _, rfl, fun _ => rfl, fun _ => rfl, rfl, rfl, rfl⟩⟩

/-- Settles O56, by the cases of what a transaction does to a flag. -/
theorem pendingFlagsMoveByCommandOnly : Obligations.PendingFlagsMoveByCommandOnly := by
  unfold Obligations.PendingFlagsMoveByCommandOnly
  intro t s id e e' he he'
  obtain hsame | hflag | ⟨hreset, hclear⟩ := transact_pending_cases he he'
  · exact ⟨fun h h' => by simp [hsame, h] at h', fun h h' => by simp [hsame, h] at h'⟩
  · refine ⟨fun _ hset => Txn.eq_of_setsFlag_true (hset ▸ hflag), fun _ hclear => ?_⟩
    obtain h | h := Txn.eq_of_setsFlag_false (hclear ▸ hflag)
    · exact .inl h
    · exact .inr (.inr h)
  · exact ⟨fun _ hset => by simp [hclear] at hset, fun _ _ => .inr (.inl hreset)⟩

/-- Settles O57: both ports write the enable bit alone, and it masks both queries. -/
theorem enableAndDisableOnlyMask : Obligations.EnableAndDisableOnlyMask := by
  unfold Obligations.EnableAndDisableOnlyMask
  refine fun s => ⟨rfl, { s with irqEn := false }, rfl, rfl, rfl, rfl, fun _ => rfl, fun _ => rfl, rfl, ?_, ?_, rfl, rfl⟩
  · exact State.hasPending_of_disabled rfl
  · exact State.highestPending_of_disabled rfl

end Sys2Proof.Spec

/-! SUPPORT. The state after a facade reset (spec 70 R168). -/

namespace Sys2Proof.Machine

section
variable (s : State)

@[simp] theorem State.facadeReset_mem : s.facadeReset.mem = [] := rfl
@[simp] theorem State.facadeReset_irqEn : s.facadeReset.irqEn = true := rfl

@[simp] theorem State.facadeReset_params : s.facadeReset.params = s.params := by simp [State.facadeReset]

@[simp] theorem State.facadeReset_irq : s.facadeReset.irq = standardIrqs s.params := by simp [State.facadeReset]

/-- No interrupt is pending (spec 70 R168). -/
theorem State.facadeReset_highestPending : s.facadeReset.highestPending = none := by simp [State.highestPending]

variable {s}

/-- Under REG_RESET_POLICY = zero the whole reset state is known (spec 10 R29, 70 R168). -/
theorem State.facadeReset_of_zero (hz : s.params.regReset = .zero) :
    s.facadeReset = { s with x := Vector.replicate 31 0#32, pc := 0#32, saved := none, mem := [],
                             irq := standardIrqs s.params, irqEn := true } := by
  simp [State.facadeReset, State.resetRegFile, hz, State.resetMem, State.resetIrq]

theorem State.facadeReset_pc (hz : s.params.regReset = .zero) : s.facadeReset.pc = 0#32 := by
  rw [State.facadeReset_of_zero hz]

/-- Every register is 0 (spec 10 R29). -/
theorem State.facadeReset_reg (hz : s.params.regReset = .zero) (r : Reg) : s.facadeReset.reg r = 0#32 :=
  State.reg_resetRegFile hz r

end

end Sys2Proof.Machine

/-! The statements of spec 70 on the facade reset. -/

namespace Sys2Proof.Spec

open Sys2Proof.Machine

/-- After a reset the sentinel stands at the pc: memory is zero (spec 70 R169). -/
theorem atPc_zero_of_facadeReset {s : State} (hz : s.params.regReset = .zero) (hlegal : s.params.legal = true) :
    AtPc s.facadeReset 0#32 := by
  obtain ⟨hsize, -⟩ : 4 ≤ s.params.memSize ∧ s.params.memSize ≤ 2 ^ 32 := by simpa [Params.legal] using hlegal
  rw [AtPc, State.facadeReset_pc hz, State.facadeReset_params, State.facadeReset_mem, leSum_eq_readLE]
  exact ⟨hsize, rfl⟩

/-- Settles O58: the reset of each unit leaves its part of the reset state. -/
theorem facadeResetLeavesTheResetState : Obligations.FacadeResetLeavesTheResetState := by
  unfold Obligations.FacadeResetLeavesTheResetState
  refine ⟨fun s => ?_, fun s hdefault => ?_⟩
  · simp only [portReset]
    refine ⟨_, rfl, fun hz => ⟨State.facadeReset_reg hz, State.facadeReset_pc hz⟩, s.facadeReset.reg_zero,
      s.facadeReset_saved, fun _ => rfl, rfl, ?_⟩
    rw [State.facadeReset_irq]
    exact ⟨rfl, rfl, rfl, fun id hid => IrqTable.get?_standard_of_le s.params hid, s.facadeReset_params⟩
  · have hz : s.params.regReset = .zero := by rw [hdefault]; rfl
    rw [portReset, State.facadeReset_of_zero hz, hdefault]
    rfl

/-- Settles O59: after a reset the sentinel stands at address 0 and nothing is pending. -/
theorem stepAfterResetHalts : Obligations.StepAfterResetHalts := by
  unfold Obligations.StepAfterResetHalts
  intro s t hz hlegal hreset
  obtain rfl : s.facadeReset = t := (PortOutcome.ok.inj hreset).2
  have hpc := State.facadeReset_pc hz
  have hpending := s.facadeReset_highestPending
  obtain ⟨hstep, hstatus⟩ := step_and_status_of_sentinel (.inr hpending) (atPc_zero_of_facadeReset hz hlegal)
  exact ⟨hpc, s.facadeReset_irqEn, hpending, hstep, hpc ▸ hstatus⟩

end Sys2Proof.Spec
